-- ==== Sys2Proof/Word.lean ====
section
/-!
DEFINITION. The word types of the block: a storage word is one byte (00_scope R10, `W = 8`), a port, a response
value, a band field and the pixel counter are 32 bits wide (10_state R33, 30_encoding R93, R94).
-/
namespace Sys2Proof

/-- One storage word of a store (00_scope R10). -/
abbrev Byte := BitVec 8

/-- One operand port, the `RES` field, a band field or `REM` (30_encoding R93, R94; 10_state R33). -/
abbrev Word := BitVec 32

end Sys2Proof
end

