-- ==== Sys2Proof/Config.lean ====
section
/-!
DEFINITION. The configuration `CFG` of 00_scope R8 as a record of plain data, and the free value of 44_transfer R218.
-/
namespace Sys2Proof

/-- Whether the frontend and the backend colour types are the same type (00_scope R8, field `BRIDGE`). -/
inductive Bridge where
  | identity
  | converting
  deriving DecidableEq, Repr

/-- The pixel address mapping strategy (00_scope R8, field `MAPPING`). -/
inductive Mapping where
  | rowMajor
  | banked
  deriving DecidableEq, Repr

/-- The configuration record of 00_scope R8. It is fixed before the block runs and no command changes it.

`convert` holds the total function `CONVERT` of R9 as the list of the (source value, result) pairs whose result is not
zero; a source value it does not list converts to 0 (DESIGN CHOICE of representation, log entry 2: every total function
on the finite set of source values is such a list). It is used only when `bridge` is `converting` (R8); under `identity`
it may hold any table (DESIGN CHOICE, log entry 2). -/
structure Config where
  width : Nat
  height : Nat
  pageCount : Nat
  maxChunk : Nat
  ef : Nat
  eb : Nat
  bridge : Bridge
  mapping : Mapping
  convert : List (Nat × Nat)
  deriving DecidableEq, Repr

/-- FREE VALUE (44_transfer R218, 93 S4; log entry 7): byte `i` of the `n`-th draw `CHUNK_DRAW` of a run, the byte
image of an identity chunk that does not start on a byte boundary. It has no body: nothing can be proved of it. -/
opaque Config.chunkByte : Nat → Nat → Byte

end Sys2Proof
end

