-- ==== Sys2Proof/Syntax.lean ====
section
/-!
DEFINITION. The 21 commands of 30_encoding R96 as abstract syntax, one constructor for each row of the opcode table,
with the operands of R93 interpreted as R95 says: an unsigned operand is a natural number, a signed one an integer.
-/
namespace Sys2Proof

/-- The store select bit `SEL` (30_encoding R91, R92): `front` is `SEL = 0`, `back` is `SEL = 1`. -/
inductive Sel where
  | front
  | back
  deriving DecidableEq, Repr

/-- A command with its operands, in the port order of 30_encoding R93. -/
inductive Instr where
  /-- `BFRD.R`: byte address, offset, width. -/
  | bfrdR (sel : Sel) (a o w : Nat)
  /-- `BFRD.L`: byte address, offset, width. -/
  | bfrdL (sel : Sel) (a o w : Nat)
  /-- `BFWR.R`: byte address, offset, width, value. -/
  | bfwrR (sel : Sel) (a o w v : Nat)
  /-- `BFWR.L`: byte address, offset, width, value. -/
  | bfwrL (sel : Sel) (a o w v : Nat)
  /-- `ELRD`: element index. -/
  | elrd (sel : Sel) (i : Nat)
  /-- `ELWR`: element index, value. -/
  | elwr (sel : Sel) (i v : Nat)
  /-- `CHRD.R`: element index, channel offset, channel width. -/
  | chrdR (sel : Sel) (i off w : Nat)
  /-- `CHRD.L`: element index, channel offset, channel width. -/
  | chrdL (sel : Sel) (i off w : Nat)
  /-- `CHWR.R`: element index, channel offset, channel width, value. -/
  | chwrR (sel : Sel) (i off w v : Nat)
  /-- `CHWR.L`: element index, channel offset, channel width, value. -/
  | chwrL (sel : Sel) (i off w v : Nat)
  /-- `CLR`. -/
  | clr (sel : Sel)
  /-- `ITBEG`. -/
  | itbeg (sel : Sel)
  /-- `ITEND`. -/
  | itend (sel : Sel)
  /-- `ITADD`: position, signed step. -/
  | itadd (sel : Sel) (pos : Nat) (n : Int)
  /-- `ITDIFF`: the position subtracted from, the position subtracted. -/
  | itdiff (sel : Sel) (pos2 pos1 : Nat)
  /-- `ITEQ`: two positions. -/
  | iteq (sel : Sel) (pos1 pos2 : Nat)
  /-- `PWBEGIN`. -/
  | pwbegin
  /-- `PWDRAW`: signed coordinates, colour. -/
  | pwdraw (x y : Int) (c : Nat)
  /-- `PWREAD`: signed coordinates. -/
  | pwread (x y : Int)
  /-- `PWADV`. -/
  | pwadv
  /-- `TDUPDATE`. -/
  | tdupdate
  deriving DecidableEq, Repr

end Sys2Proof
end

