-- ==== Sys2Proof/WellFormed.lean ====
section
/-!
DEFINITION. What makes a configuration legal (00_scope R11) and what makes a command encodable (30_encoding R95).
-/
namespace Sys2Proof

/-- The legal element widths (00_scope R8, R11 CFG-5). -/
def Config.legalWidths : List Nat := [1, 2, 3, 4, 5, 6, 7, 8, 16, 24, 32]

/-- CFG-1: `WIDTH ≥ 1` and `HEIGHT ≥ 1`. -/
def Config.cfg1 (c : Config) : Bool := decide (1 ≤ c.width) && decide (1 ≤ c.height)

/-- CFG-2: `PAGE_COUNT ≥ 1`. -/
def Config.cfg2 (c : Config) : Bool := decide (1 ≤ c.pageCount)

/-- CFG-3: `HEIGHT mod PAGE_COUNT = 0`. -/
def Config.cfg3 (c : Config) : Bool := decide (c.height % c.pageCount = 0)

/-- CFG-4: `MAX_CHUNK ≥ 1`. -/
def Config.cfg4 (c : Config) : Bool := decide (1 ≤ c.maxChunk)

/-- CFG-5: the element widths are legal. -/
def Config.cfg5 (c : Config) : Bool := Config.legalWidths.contains c.ef && Config.legalWidths.contains c.eb

/-- CFG-6: `BRIDGE = IDENTITY` implies `EF = EB`. -/
def Config.cfg6 (c : Config) : Bool := decide (c.bridge = .identity → c.ef = c.eb)

/-- CFG-7: `MAPPING = BANKED` implies `PAGE_HEIGHT mod 8 = 0`. -/
def Config.cfg7 (c : Config) : Bool := decide (c.mapping = .banked → c.height / c.pageCount % 8 = 0)

/-- CFG-8: `WIDTH * HEIGHT ≤ 2^31 - 1` and `MAX_CHUNK ≤ 2^31 - 1`. -/
def Config.cfg8 (c : Config) : Bool := decide (c.width * c.height ≤ 2147483647) && decide (c.maxChunk ≤ 2147483647)

/-- CFG-9 with the range of R9: `BRIDGE = CONVERTING` implies that `CONVERT` maps each value below `2^EF` to a value
below `2^EB`. The table gives every value a result (an unlisted one converts to 0), so the check is that what it lists
is in range, in rising order of the source values, and is not a result that leaving the pair out would give
(DESIGN CHOICE of representation, log entry 2).

Under `BRIDGE = IDENTITY` CFG-9 asks nothing. What the unused field may hold there the spec leaves open: this model
admits every table, and no command reads it (DESIGN CHOICE, safe, log entry 2). -/
def Config.cfg9 (c : Config) : Bool :=
  match c.bridge with
  | .identity => true
  | .converting =>
    decide (c.convert.Pairwise fun p q => p.1 < q.1) &&
      c.convert.all fun p => decide (p.1 < 2 ^ c.ef) && (decide (0 < p.2) && decide (p.2 < 2 ^ c.eb))

/-- All checks of 00_scope R11. -/
def Config.wf (c : Config) : Bool :=
  c.cfg1 && c.cfg2 && c.cfg3 && c.cfg4 && c.cfg5 && c.cfg6 && c.cfg7 && c.cfg8 && c.cfg9

/-- An unsigned operand: the 32-bit port value as an integer (30_encoding R95). -/
def unsignedOperand (n : Nat) : Bool := decide (n < 4294967296)

/-- A signed operand: the 32-bit port value read as two's complement (30_encoding R95). -/
def signedOperand (n : Int) : Bool := decide (-2147483648 ≤ n) && decide (n < 2147483648)

/-- Every operand of the command fits its port (30_encoding R93, R95). A range check on an offset, a width, an index
or a position is part of the command's meaning, not of its form (R95). -/
def Instr.wf : Instr → Bool
  | .bfrdR _ a o w => unsignedOperand a && unsignedOperand o && unsignedOperand w
  | .bfrdL _ a o w => unsignedOperand a && unsignedOperand o && unsignedOperand w
  | .bfwrR _ a o w v => unsignedOperand a && unsignedOperand o && unsignedOperand w && unsignedOperand v
  | .bfwrL _ a o w v => unsignedOperand a && unsignedOperand o && unsignedOperand w && unsignedOperand v
  | .elrd _ i => unsignedOperand i
  | .elwr _ i v => unsignedOperand i && unsignedOperand v
  | .chrdR _ i off w => unsignedOperand i && unsignedOperand off && unsignedOperand w
  | .chrdL _ i off w => unsignedOperand i && unsignedOperand off && unsignedOperand w
  | .chwrR _ i off w v => unsignedOperand i && unsignedOperand off && unsignedOperand w && unsignedOperand v
  | .chwrL _ i off w v => unsignedOperand i && unsignedOperand off && unsignedOperand w && unsignedOperand v
  | .clr _ => true
  | .itbeg _ => true
  | .itend _ => true
  | .itadd _ pos n => unsignedOperand pos && signedOperand n
  | .itdiff _ pos2 pos1 => unsignedOperand pos2 && unsignedOperand pos1
  | .iteq _ pos1 pos2 => unsignedOperand pos1 && unsignedOperand pos2
  | .pwbegin => true
  | .pwdraw x y c => signedOperand x && signedOperand y && unsignedOperand c
  | .pwread x y => signedOperand x && signedOperand y
  | .pwadv => true
  | .tdupdate => true

end Sys2Proof
end

