-- ==== Sys2Proof/Decode.lean ====
section
/-!
DEFINITION. The command as the block receives it (one command word and four operand ports, 30_encoding R90, R93), its
decoding (R91, R96, R97), total and rejecting by name, the encoder, and the host's fixed name `decodeTableWord`.
-/
namespace Sys2Proof

/-- One command as presented on the command port (30_encoding R90). The fields `opa` to `opd` are the ports
`OPA` to `OPD` of R93. -/
structure Command where
  cmd : Word
  opa : Word
  opb : Word
  opc : Word
  opd : Word
  deriving DecidableEq, Repr

/-- Why a command word is illegal: the four cases of 30_encoding R97. -/
inductive DecodeError where
  /-- A bit of `RSV`, bits 31 to 10, is set. -/
  | reservedBits
  /-- The operation code is not in the map. -/
  | unassignedOpc
  /-- `AL = 1` on an operation code without an alignment form. -/
  | alignmentUndefined
  /-- `SEL = 1` on a page-window or transfer operation code. -/
  | selectUndefined
  deriving DecidableEq, Repr

/-- The 17 operation codes of 30_encoding R96. -/
inductive Opc where
  | bfrd | bfwr | elrd | elwr | chrd | chwr | clr
  | itbeg | itend | itadd | itdiff | iteq
  | pwbegin | pwdraw | pwread | pwadv | tdupdate
  deriving DecidableEq, Repr

/-- The value of `CMD[7:0]` for an operation code (30_encoding R96, column OPC). -/
def Opc.code : Opc → Nat
  | .bfrd => 0x10 | .bfwr => 0x11
  | .elrd => 0x20 | .elwr => 0x21 | .chrd => 0x22 | .chwr => 0x23 | .clr => 0x24
  | .itbeg => 0x28 | .itend => 0x29 | .itadd => 0x2A | .itdiff => 0x2B | .iteq => 0x2C
  | .pwbegin => 0x30 | .pwdraw => 0x31 | .pwread => 0x32 | .pwadv => 0x33
  | .tdupdate => 0x40

/-- The operation code that a value of `CMD[7:0]` names, if any (30_encoding R96, R97). -/
def Opc.ofCode (n : Nat) : Option Opc :=
  if n = 0x10 then some .bfrd else if n = 0x11 then some .bfwr
  else if n = 0x20 then some .elrd else if n = 0x21 then some .elwr
  else if n = 0x22 then some .chrd else if n = 0x23 then some .chwr
  else if n = 0x24 then some .clr
  else if n = 0x28 then some .itbeg else if n = 0x29 then some .itend
  else if n = 0x2A then some .itadd else if n = 0x2B then some .itdiff
  else if n = 0x2C then some .iteq
  else if n = 0x30 then some .pwbegin else if n = 0x31 then some .pwdraw
  else if n = 0x32 then some .pwread else if n = 0x33 then some .pwadv
  else if n = 0x40 then some .tdupdate
  else none

/-- Whether the operation code has an alignment form (30_encoding R91, field `AL`). -/
def Opc.hasAlign : Opc → Bool
  | .bfrd | .bfwr | .chrd | .chwr => true
  | .elrd | .elwr | .clr | .itbeg | .itend | .itadd | .itdiff | .iteq
  | .pwbegin | .pwdraw | .pwread | .pwadv | .tdupdate => false

/-- Whether the operation code has the field `SEL` (30_encoding R91: opcodes `0x10` to `0x2C`). -/
def Opc.hasSelect : Opc → Bool
  | .bfrd | .bfwr | .elrd | .elwr | .chrd | .chwr | .clr
  | .itbeg | .itend | .itadd | .itdiff | .iteq => true
  | .pwbegin | .pwdraw | .pwread | .pwadv | .tdupdate => false

/-- The four fields of a command word (30_encoding R91). -/
def Command.opcField (c : Command) : Nat := c.cmd.toNat % 256
def Command.alField (c : Command) : Bool := c.cmd.getLsbD 8
def Command.selField (c : Command) : Bool := c.cmd.getLsbD 9
def Command.rsvField (c : Command) : Nat := c.cmd.toNat / 1024

/-- The store that the bit `SEL` selects (30_encoding R92). -/
def Sel.ofBit (b : Bool) : Sel := if b then .back else .front

/-- The command that an operation code, an alignment bit and a store select name, with its operands read from the
ports of 30_encoding R93. -/
def Opc.build (op : Opc) (al : Bool) (sel : Sel) (c : Command) : Instr :=
  match op with
  | .bfrd => if al then .bfrdL sel c.opa.toNat c.opb.toNat c.opc.toNat else .bfrdR sel c.opa.toNat c.opb.toNat c.opc.toNat
  | .bfwr =>
    if al then .bfwrL sel c.opa.toNat c.opb.toNat c.opc.toNat c.opd.toNat
    else .bfwrR sel c.opa.toNat c.opb.toNat c.opc.toNat c.opd.toNat
  | .elrd => .elrd sel c.opa.toNat
  | .elwr => .elwr sel c.opa.toNat c.opb.toNat
  | .chrd => if al then .chrdL sel c.opa.toNat c.opb.toNat c.opc.toNat else .chrdR sel c.opa.toNat c.opb.toNat c.opc.toNat
  | .chwr =>
    if al then .chwrL sel c.opa.toNat c.opb.toNat c.opc.toNat c.opd.toNat
    else .chwrR sel c.opa.toNat c.opb.toNat c.opc.toNat c.opd.toNat
  | .clr => .clr sel
  | .itbeg => .itbeg sel
  | .itend => .itend sel
  | .itadd => .itadd sel c.opa.toNat c.opb.toInt
  | .itdiff => .itdiff sel c.opa.toNat c.opb.toNat
  | .iteq => .iteq sel c.opa.toNat c.opb.toNat
  | .pwbegin => .pwbegin
  | .pwdraw => .pwdraw c.opa.toInt c.opb.toInt c.opc.toNat
  | .pwread => .pwread c.opa.toInt c.opb.toInt
  | .pwadv => .pwadv
  | .tdupdate => .tdupdate

/-- Decoding (30_encoding R97): a word outside the map is rejected by name, whatever the ports hold. -/
def decode (c : Command) : Except DecodeError Instr :=
  if c.rsvField ≠ 0 then .error .reservedBits
  else
    match Opc.ofCode c.opcField with
    | none => .error .unassignedOpc
    | some op =>
      if c.alField && !op.hasAlign then .error .alignmentUndefined
      else if c.selField && !op.hasSelect then .error .selectUndefined
      else .ok (op.build c.alField (Sel.ofBit c.selField) c)

/-! ### The encoder -/

/-- The value of the bit `SEL` (30_encoding R92). -/
def Sel.bit : Sel → Nat
  | .front => 0
  | .back => 1

/-- A command word put together from its fields (30_encoding R91), the reserved bits zero. -/
def commandWord (op : Opc) (al : Nat) (sel : Nat) : Word := BitVec.ofNat 32 (op.code + 256 * al + 512 * sel)

/-- An unsigned operand on its port (30_encoding R95). -/
def unsignedPort (n : Nat) : Word := BitVec.ofNat 32 n

/-- A signed operand on its port, in two's complement (30_encoding R95). -/
def signedPort (n : Int) : Word := BitVec.ofInt 32 n

/-- The command word and the ports of a command (30_encoding R91, R93, R96); a port the command does not use is 0. -/
def encode : Instr → Command
  | .bfrdR sel a o w => ⟨commandWord .bfrd 0 sel.bit, unsignedPort a, unsignedPort o, unsignedPort w, 0⟩
  | .bfrdL sel a o w => ⟨commandWord .bfrd 1 sel.bit, unsignedPort a, unsignedPort o, unsignedPort w, 0⟩
  | .bfwrR sel a o w v => ⟨commandWord .bfwr 0 sel.bit, unsignedPort a, unsignedPort o, unsignedPort w, unsignedPort v⟩
  | .bfwrL sel a o w v => ⟨commandWord .bfwr 1 sel.bit, unsignedPort a, unsignedPort o, unsignedPort w, unsignedPort v⟩
  | .elrd sel i => ⟨commandWord .elrd 0 sel.bit, unsignedPort i, 0, 0, 0⟩
  | .elwr sel i v => ⟨commandWord .elwr 0 sel.bit, unsignedPort i, unsignedPort v, 0, 0⟩
  | .chrdR sel i off w => ⟨commandWord .chrd 0 sel.bit, unsignedPort i, unsignedPort off, unsignedPort w, 0⟩
  | .chrdL sel i off w => ⟨commandWord .chrd 1 sel.bit, unsignedPort i, unsignedPort off, unsignedPort w, 0⟩
  | .chwrR sel i off w v => ⟨commandWord .chwr 0 sel.bit, unsignedPort i, unsignedPort off, unsignedPort w, unsignedPort v⟩
  | .chwrL sel i off w v => ⟨commandWord .chwr 1 sel.bit, unsignedPort i, unsignedPort off, unsignedPort w, unsignedPort v⟩
  | .clr sel => ⟨commandWord .clr 0 sel.bit, 0, 0, 0, 0⟩
  | .itbeg sel => ⟨commandWord .itbeg 0 sel.bit, 0, 0, 0, 0⟩
  | .itend sel => ⟨commandWord .itend 0 sel.bit, 0, 0, 0, 0⟩
  | .itadd sel pos n => ⟨commandWord .itadd 0 sel.bit, unsignedPort pos, signedPort n, 0, 0⟩
  | .itdiff sel pos2 pos1 => ⟨commandWord .itdiff 0 sel.bit, unsignedPort pos2, unsignedPort pos1, 0, 0⟩
  | .iteq sel pos1 pos2 => ⟨commandWord .iteq 0 sel.bit, unsignedPort pos1, unsignedPort pos2, 0, 0⟩
  | .pwbegin => ⟨commandWord .pwbegin 0 0, 0, 0, 0, 0⟩
  | .pwdraw x y c => ⟨commandWord .pwdraw 0 0, signedPort x, signedPort y, unsignedPort c, 0⟩
  | .pwread x y => ⟨commandWord .pwread 0 0, signedPort x, signedPort y, 0, 0⟩
  | .pwadv => ⟨commandWord .pwadv 0 0, 0, 0, 0, 0⟩
  | .tdupdate => ⟨commandWord .tdupdate 0 0, 0, 0, 0, 0⟩

/-! ### The opcode map as the table of 30_encoding R96 -/

/-- One row of the opcode map (30_encoding R96): mnemonic, `match`, `mask`. -/
structure OpcodeRow where
  mnemonic : String
  pattern : Word
  mask : Word
  deriving DecidableEq, Repr

/-- The 21 rows of 30_encoding R96. -/
def opcodeRows : List OpcodeRow :=
  [⟨"BFRD.R", 0x00000010#32, 0xFFFFFDFF#32⟩, ⟨"BFRD.L", 0x00000110#32, 0xFFFFFDFF#32⟩,
   ⟨"BFWR.R", 0x00000011#32, 0xFFFFFDFF#32⟩, ⟨"BFWR.L", 0x00000111#32, 0xFFFFFDFF#32⟩,
   ⟨"ELRD", 0x00000020#32, 0xFFFFFDFF#32⟩, ⟨"ELWR", 0x00000021#32, 0xFFFFFDFF#32⟩,
   ⟨"CHRD.R", 0x00000022#32, 0xFFFFFDFF#32⟩, ⟨"CHRD.L", 0x00000122#32, 0xFFFFFDFF#32⟩,
   ⟨"CHWR.R", 0x00000023#32, 0xFFFFFDFF#32⟩, ⟨"CHWR.L", 0x00000123#32, 0xFFFFFDFF#32⟩,
   ⟨"CLR", 0x00000024#32, 0xFFFFFDFF#32⟩, ⟨"ITBEG", 0x00000028#32, 0xFFFFFDFF#32⟩,
   ⟨"ITEND", 0x00000029#32, 0xFFFFFDFF#32⟩, ⟨"ITADD", 0x0000002A#32, 0xFFFFFDFF#32⟩] ++
  [⟨"ITDIFF", 0x0000002B#32, 0xFFFFFDFF#32⟩, ⟨"ITEQ", 0x0000002C#32, 0xFFFFFDFF#32⟩,
   ⟨"PWBEGIN", 0x00000030#32, 0xFFFFFFFF#32⟩, ⟨"PWDRAW", 0x00000031#32, 0xFFFFFFFF#32⟩,
   ⟨"PWREAD", 0x00000032#32, 0xFFFFFFFF#32⟩, ⟨"PWADV", 0x00000033#32, 0xFFFFFFFF#32⟩,
   ⟨"TDUPDATE", 0x00000040#32, 0xFFFFFFFF#32⟩]

/-- A command word belongs to a row when it agrees with `match` on `mask` (30_encoding R96, R97). -/
def OpcodeRow.matches (r : OpcodeRow) (w : Word) : Bool := decide (w &&& r.mask = r.pattern)

/-- The mnemonic of a command, as the opcode map spells it (30_encoding R96). -/
def Instr.mnemonic : Instr → String
  | .bfrdR .. => "BFRD.R" | .bfrdL .. => "BFRD.L" | .bfwrR .. => "BFWR.R" | .bfwrL .. => "BFWR.L"
  | .elrd .. => "ELRD" | .elwr .. => "ELWR"
  | .chrdR .. => "CHRD.R" | .chrdL .. => "CHRD.L" | .chwrR .. => "CHWR.R" | .chwrL .. => "CHWR.L"
  | .clr .. => "CLR"
  | .itbeg .. => "ITBEG" | .itend .. => "ITEND" | .itadd .. => "ITADD" | .itdiff .. => "ITDIFF" | .iteq .. => "ITEQ"
  | .pwbegin => "PWBEGIN" | .pwdraw .. => "PWDRAW" | .pwread .. => "PWREAD" | .pwadv => "PWADV"
  | .tdupdate => "TDUPDATE"

/-! ### The host's numbering of an instruction's bits -/

/-- A command whose 160 bits are `w`: bits 31 to 0 are the command word, then the ports in their order
(DESIGN CHOICE, log entry 12: the spec presents the ports beside the word and numbers no bits of them). -/
def commandOfBits (w : Nat) : Command :=
  ⟨BitVec.ofNat 32 w, BitVec.ofNat 32 (w / 2 ^ 32), BitVec.ofNat 32 (w / 2 ^ 64), BitVec.ofNat 32 (w / 2 ^ 96),
   BitVec.ofNat 32 (w / 2 ^ 128)⟩

/-- The instruction the decoder reads from an instruction whose low `nbits` bits are `w`, every higher bit 0. -/
def decodeTableWord (nbits w : Nat) : Option Instr :=
  match decode (commandOfBits (w % 2 ^ nbits)) with
  | .ok i => some i
  | .error _ => none

end Sys2Proof
end

