-- ==== Sys2Proof/Machine/Geometry.lean ====
section
/-!
DEFINITION. The constants derived from the configuration (00_scope R10), the store views (R19), the conversion
function (R9) and the pixel address mapping (43_page_window R180 to R182).
-/
namespace Sys2Proof

/-- `ceil(a / b)` (00_scope R16). -/
def ceilDiv (a b : Nat) : Nat := (a + b - 1) / b

/-- `PAGE_HEIGHT` (00_scope R10). -/
def Config.pageHeight (c : Config) : Nat := c.height / c.pageCount

/-- `PPP`, the pixels of a page (00_scope R10). -/
def Config.ppp (c : Config) : Nat := c.width * c.pageHeight

/-- `NF`, the bytes of the frontend store (00_scope R10). -/
def Config.nf (c : Config) : Nat := ceilDiv (c.ppp * c.ef) 8

/-- `NB`, the bytes of the backend store, which exists only in the converting bridge (00_scope R10). -/
def Config.nb (c : Config) : Nat :=
  match c.bridge with
  | .converting => ceilDiv (c.maxChunk * c.eb) 8
  | .identity => 0

/-- `LAST_TOP`, the top row of the last band (00_scope R10). -/
def Config.lastTop (c : Config) : Nat := c.height - c.pageHeight

/-- The two stores of 20_memory R60. -/
inductive StoreId where
  | fs
  | bs
  deriving DecidableEq, Repr

/-- `STORE(sel)` (00_scope R19): under the identity bridge both selections name the frontend store. -/
def Config.storeOf (c : Config) (sel : Sel) : StoreId :=
  match sel, c.bridge with
  | .front, _ => .fs
  | .back, .identity => .fs
  | .back, .converting => .bs

/-- The element width of a store. -/
def Config.widthOf (c : Config) : StoreId → Nat
  | .fs => c.ef
  | .bs => c.eb

/-- The element count of a store. -/
def Config.countOf (c : Config) : StoreId → Nat
  | .fs => c.ppp
  | .bs => c.maxChunk

/-- The byte size of a store. -/
def Config.bytesOf (c : Config) : StoreId → Nat
  | .fs => c.nf
  | .bs => c.nb

/-- `E(sel)` (00_scope R19). -/
def Config.elemBits (c : Config) (sel : Sel) : Nat := c.widthOf (c.storeOf sel)

/-- `COUNT(sel)` (00_scope R19). -/
def Config.count (c : Config) (sel : Sel) : Nat := c.countOf (c.storeOf sel)

/-- `NBYTES(sel)` (00_scope R19). -/
def Config.nbytes (c : Config) (sel : Sel) : Nat := c.bytesOf (c.storeOf sel)

/-- `CONVERT` (00_scope R9): the result of the pair whose source value is `v`, and 0 where the table lists none. -/
def Config.convertOf (c : Config) (v : Nat) : Nat :=
  match c.convert.find? (fun p => p.1 == v) with
  | some p => p.2
  | none => 0

/-- The pixel address mapping on page-relative coordinates: `MapRM` (43_page_window R180) or `MapBK` (R181). -/
def Config.mapIndex (c : Config) (x y : Nat) : Nat :=
  match c.mapping with
  | .rowMajor => y * c.width + x
  | .banked => 8 * (y / 8) * c.width + 8 * x + y % 8

end Sys2Proof
end

