-- ==== Sys2Proof/Machine/Memory.lean ====
section
/-!
DEFINITION. A byte store as plain data (10_state R34, R35) and its bit stream (20_memory R61; 00_scope R17).

A store is the list of its (address, byte) pairs in one canonical form: addresses strictly rising, and no byte equal to
what an unlisted address reads as. Equal stores are then equal lists.
-/
namespace Sys2Proof.Machine

/-- A store's bytes. -/
abbrev Memory := List Host.Cell

/-- What an unlisted address reads as (DESIGN CHOICE, log entry 3: the spec leaves the reset contents unspecified,
10_state R47; any contents are a list, and `State.resetWith` takes them as parameters). -/
def Memory.unlisted : Byte := 0#8

/-- The canonical form. -/
def Memory.wf (m : Memory) : Bool :=
  decide (m.Pairwise fun c d => c.1 < d.1) && m.all fun c => decide (c.2 ≠ Memory.unlisted)

/-- Every listed address is one of the store's `n` addresses (20_memory R74). -/
def Memory.within (n : Nat) (m : Memory) : Bool := m.all fun c => decide (c.1 < n)

/-- `MemRead(S, a, 1)` (00_scope R17). -/
def Memory.get : Memory → Nat → Byte
  | [], _ => Memory.unlisted
  | c :: m, a => if a = c.1 then c.2 else Memory.get m a

/-- `MemWrite(S, a, 1, v)` (00_scope R17), keeping the canonical form. -/
def Memory.set : Memory → Nat → Byte → Memory
  | [], a, v => if v = Memory.unlisted then [] else [(a, v)]
  | c :: m, a, v =>
    if a < c.1 then (if v = Memory.unlisted then c :: m else (a, v) :: c :: m)
    else if a = c.1 then (if v = Memory.unlisted then m else (a, v) :: m)
    else c :: Memory.set m a v

/-- The bytes `0` to `n - 1` all written with 0 (42_packed_container R150; 43_page_window R185). -/
def Memory.clear (n : Nat) (m : Memory) : Memory := m.filter fun c => decide (n ≤ c.1)

/-- The store whose bytes from address `a` on are the listed ones. -/
def Memory.ofBytesFrom : Nat → List Byte → Memory
  | _, [] => []
  | a, v :: vs =>
    if v = Memory.unlisted then Memory.ofBytesFrom (a + 1) vs else (a, v) :: Memory.ofBytesFrom (a + 1) vs

/-- A store of `n` bytes with the given contents from address 0 on. -/
def Memory.ofBytes (n : Nat) (vs : List Byte) : Memory := Memory.ofBytesFrom 0 (vs.take n)

/-- `n` consecutive bytes in ascending address order (20_memory R68). -/
def Memory.bytes (m : Memory) (a n : Nat) : List Byte := (List.range n).map fun i => Memory.get m (a + i)

/-- A byte with its bit `j` set to `b`. -/
def setByteBit (v : Byte) (j : Nat) (b : Bool) : Byte :=
  if b then v ||| (1#8 <<< j) else v &&& ~~~(1#8 <<< j)

/-- `Bit(S, k)` (00_scope R17; 20_memory R61). -/
def Memory.bit (m : Memory) (k : Nat) : Bool := (Memory.get m (k / 8)).getLsbD (k % 8)

/-- Sets `Bit(S, k)`. -/
def Memory.setBit (m : Memory) (k : Nat) (b : Bool) : Memory :=
  Memory.set m (k / 8) (setByteBit (Memory.get m (k / 8)) (k % 8) b)

/-- `StreamRead(S, k, n)` (00_scope R17). -/
def Memory.streamRead (m : Memory) (k : Nat) : Nat → Nat
  | 0 => 0
  | n + 1 => Memory.streamRead m k n + (Memory.bit m (k + n)).toNat * 2 ^ n

/-- `StreamWrite(S, k, n, v)` (00_scope R17). -/
def Memory.streamWrite (m : Memory) (k : Nat) (v : Nat) : Nat → Memory
  | 0 => m
  | n + 1 => Memory.setBit (Memory.streamWrite m k v n) (k + n) (v.testBit n)

end Sys2Proof.Machine
end

