-- ==== Sys2Proof/Machine/State.lean ====
section
/-!
DEFINITION. The state of the block (10_state R33), its observation (R41, R42), the environment's parts that the step
reads (the configuration, the host's sequence, the device's answers), the reasons a step can stop, and reset.
-/
namespace Sys2Proof.Machine

/-- A device event (10_state R41). A `DevWrite` carries its bytes, captured at the write, and its chunk record
`(off, size)` (R42). -/
inductive Event where
  | devWrite (bytes : List Byte) (off size : Nat)
  | devBeginFrame
  deriving DecidableEq, Repr

/-- The response of a command (30_encoding R94). -/
structure Response where
  status : BitVec 2
  res : Word
  flag : Bool
  deriving DecidableEq, Repr

/-- What the outside world does to the block next: the host issues a command, with the answers the device gives to its
poll and to its frame-start test (44_transfer R211, R212), or resets the block (70 R280), the stores then holding the
contents given (10_state R47). -/
inductive HostEvent where
  | issue (c : Command) (ready permit : Bool)
  | reset (initFs initBs : List Byte)
  deriving DecidableEq, Repr

/-- The whole state. `fs` to `fault` are the state of 10_state R33, `trace` its observation (R41), `cfg` the
configuration (00_scope R8). The rest is the model's own: the response port `resp` (log entry 5), the host's sequence
`host` and the index `pc` of its next entry (10_state R31, log entry 4), the input lines `ready` and `permit` of the
command in execution (log entry 6) and the counter `draws` that indexes the free value `CHUNK_DRAW` (log entry 7). -/
structure State where
  cfg : Config
  fs : Memory
  bs : Memory
  p0x : Word
  p0y : Word
  p1x : Word
  p1y : Word
  rem : Word
  fault : BitVec 2
  trace : List Event
  resp : Response
  host : List HostEvent
  pc : Nat
  ready : Bool
  permit : Bool
  draws : Nat
  deriving DecidableEq, Repr

/-- Why the machine stops. The block's own faults are no stop: they are next states (60_exceptions R254, log entry 8). -/
inductive Fault where
  /-- Raised by `PWDRAW`, `PWREAD` and `TDUPDATE` where the element they would reach lies outside the frontend store,
  an address the spec says does not exist (20_memory R75). Only a state that breaks 10_state R37 or R38 gets there, and
  no run reaches one (log entry 9). SAFE: the model stops. -/
  | outsideStore
  deriving DecidableEq, Repr

/-- Why the model gives no meaning. -/
inductive Refusal where
  /-- An instruction whose arm has no meaning yet. SAFE. No arm answers it now. -/
  | notModelled (mnemonic : String)
  /-- Raised by every command and by `step` under a configuration that fails a check of 00_scope R11: "No state and
  no step exist for it" (R12, log entry 10). SAFE: nothing can be proved of its steps. -/
  | illFormedConfiguration
  deriving DecidableEq, Repr

/-- The state after reset (10_state R47 to R50; 70_reset_and_hazards R280) for a configuration and the unspecified
contents of the two stores. -/
def State.resetWith (cfg : Config) (initFs initBs : List Byte) : State where
  cfg := cfg
  fs := Memory.ofBytes cfg.nf initFs
  bs := Memory.ofBytes cfg.nb initBs
  p0x := 0
  p0y := BitVec.ofNat 32 cfg.lastTop
  p1x := BitVec.ofNat 32 (cfg.width - 1)
  p1y := BitVec.ofNat 32 (cfg.height - 1)
  rem := 0
  fault := 0
  trace := []
  resp := ⟨0, 0, false⟩
  host := []
  pc := 0
  ready := false
  permit := false
  draws := 0

/-- The configuration of the source's own example frame (95_test_vectors 1.1, K10): DESIGN CHOICE, log entry 1. -/
def exampleConfig : Config where
  width := 4
  height := 4
  pageCount := 2
  maxChunk := 4
  ef := 1
  eb := 1
  bridge := .identity
  mapping := .rowMajor
  convert := []

/-- The machine right after reset, in the example configuration and with no store byte listed (log entries 1, 3). -/
def State.reset : State := State.resetWith exampleConfig [] []

end Sys2Proof.Machine
end

