-- ==== Sys2Proof/Machine/Flags.lean ====
section
/-!
DEFINITION. The response port (30_encoding R94): the block keeps no flags (10_state R32), and `STATUS`, `RES` and
`FLAG` are computed afresh by each command.
-/
namespace Sys2Proof.Machine

/-- The fault causes (60_exceptions R250). -/
inductive Cause where
  | illegalCmd
  | fieldRange
  | indexRange
  deriving DecidableEq, Repr

/-- The cause codes (60_exceptions R250). -/
def Cause.code : Cause → BitVec 2
  | .illegalCmd => 1
  | .fieldRange => 2
  | .indexRange => 3

/-- `zext_32` of an unsigned result (00_scope R16). -/
def unsignedResult (n : Nat) : Word := BitVec.ofNat 32 n

/-- A signed result in 32-bit two's complement (00_scope R16). -/
def signedResult (n : Int) : Word := BitVec.ofInt 32 n

/-- The response of a command that is done: `STATUS = 0` (30_encoding R94). -/
def doneResponse (res : Word) (flag : Bool) : Response := ⟨0, res, flag⟩

/-- The response of a fault, and of every command while halted: the code, `RES = 0`, `FLAG = 0`
(30_encoding R94; 60_exceptions R254, R255). -/
def faultResponse (code : BitVec 2) : Response := ⟨code, 0, false⟩

end Sys2Proof.Machine
end

