-- ==== Sys2Proof/Machine/Fields.lean ====
section
/-!
DEFINITION. The bit-field functions of 41_bitfield R120 to R124 and the channel functions of 42_packed_container R142
and R143, on unsigned values (00_scope R15, R16). A field of a storage word is the case of width 8.
-/
namespace Sys2Proof.Machine

/-- `FieldOK(o, w)` (41_bitfield R120). -/
def fieldOK (o w : Nat) : Bool := decide (1 ≤ w) && decide (w ≤ 8) && decide (o + w ≤ 8)

/-- `ChanOK` for an element of `e` bits (42_packed_container R142). -/
def chanOK (e off w : Nat) : Bool :=
  decide (1 ≤ w) && decide (w ≤ 8) && decide (off + w ≤ e) && decide (8 ≤ e → off % 8 + w ≤ 8)

/-- `M(w)` (41_bitfield R121). -/
def mask (w : Nat) : Nat := 2 ^ w - 1

/-- `~x` taken at `n` bits, for `x` below `2^n` (00_scope R15). -/
def notAt (n x : Nat) : Nat := mask n ^^^ x

/-- `ReadR` (41_bitfield R122) and `ChanR` (42_packed_container R143). -/
def readR (b o w : Nat) : Nat := (b >>> o) &&& mask w

/-- `ReadL` (41_bitfield R123) and `ChanL` (42_packed_container R143). -/
def readL (b o w : Nat) : Nat := readR b o w <<< (8 - w)

/-- `WriteR` (41_bitfield R124) at `n = 8` and `ChanWR` (42_packed_container R143) at `n = E`. -/
def writeR (n b o w v : Nat) : Nat := (b &&& notAt n (mask w <<< o)) ||| ((v &&& mask w) <<< o)

/-- `WriteL` (41_bitfield R124) and `ChanWL` (42_packed_container R143). -/
def writeL (n b o w v : Nat) : Nat := writeR n b o w (v >>> (8 - w))

end Sys2Proof.Machine
end

