-- ==== Sys2Proof/Machine/Operands.lean ====
section
/-!
DEFINITION. What an operand of a command names: a store by `SEL` (00_scope R19), a store byte, an element
(42_packed_container R140, R141), a pixel (43_page_window R182, R184).
-/
namespace Sys2Proof.Machine

/-- The bytes of a store. -/
def State.storeBytes (s : State) : StoreId → Memory
  | .fs => s.fs
  | .bs => s.bs

/-- `STORE(sel)` (00_scope R19). -/
def State.store (s : State) (sel : Sel) : Memory := s.storeBytes (s.cfg.storeOf sel)

/-- The state with new bytes in a store. -/
def State.setStoreBytes (s : State) : StoreId → Memory → State
  | .fs, m => { s with fs := m }
  | .bs, m => { s with bs := m }

/-- The state with new bytes in `STORE(sel)`. -/
def State.setStore (s : State) (sel : Sel) (m : Memory) : State := s.setStoreBytes (s.cfg.storeOf sel) m

/-- `MemRead(STORE(sel), a, 1)` as an unsigned value. -/
def State.storeByte (s : State) (sel : Sel) (a : Nat) : Nat := (Memory.get (s.store sel) a).toNat

/-- `MemWrite(STORE(sel), a, 1, v)` (00_scope R17). -/
def State.setStoreByte (s : State) (sel : Sel) (a v : Nat) : State :=
  s.setStore sel (Memory.set (s.store sel) a (BitVec.ofNat 8 v))

/-- Element `i` of a store of `e`-bit elements (20_memory R62). -/
def Memory.elem (m : Memory) (e i : Nat) : Nat := Memory.streamRead m (i * e) e

/-- Writes element `i` of a store of `e`-bit elements, the value masked to `e` bits (42_packed_container R141). -/
def Memory.setElem (m : Memory) (e i v : Nat) : Memory := Memory.streamWrite m (i * e) (v &&& mask e) e

/-- `ElemRead(sel, i)` (42_packed_container R140). -/
def State.elemRead (s : State) (sel : Sel) (i : Nat) : Nat := Memory.elem (s.store sel) (s.cfg.elemBits sel) i

/-- `ElemWrite(sel, i, v)` (42_packed_container R141). -/
def State.elemWrite (s : State) (sel : Sel) (i v : Nat) : State :=
  s.setStore sel (Memory.setElem (s.store sel) (s.cfg.elemBits sel) i v)

/-- `InBand(x, y)` (43_page_window R184): signed comparison, bounds inclusive. -/
def State.inBand (s : State) (x y : Int) : Bool :=
  decide (s.p0x.toInt ≤ x) && decide (x ≤ s.p1x.toInt) && decide (s.p0y.toInt ≤ y) && decide (y ≤ s.p1y.toInt)

/-- `Map(x, y)` (43_page_window R182): the mapping on page-relative coordinates. -/
def State.pixelIndex (s : State) (x y : Int) : Nat :=
  s.cfg.mapIndex (x - s.p0x.toInt).toNat (y - s.p0y.toInt).toNat

/-- `LastBand` (10_state R44). -/
def State.lastBand (s : State) : Bool := decide ((s.cfg.height : Int) - 1 ≤ s.p1y.toInt)

end Sys2Proof.Machine
end

