-- ==== Sys2Proof/Machine/Ops.lean ====
section
/-!
DEFINITION. The operations that commands share: finishing with a response, taking a fault (60_exceptions R254), the
halted block (R255) and the refused configuration (00_scope R12), and the event trace (10_state R41).

No command returns from a fault (60_exceptions R257): only reset does, and `State.resetWith` is it.
-/
namespace Sys2Proof.Machine

/-- What a command answers. -/
abbrev Result := Host.Outcome State Fault Refusal

/-- The command is done with a result value and a boolean outcome (30_encoding R94). -/
def done (res : Word) (flag : Bool) (s : State) : Result := .next { s with resp := doneResponse res flag }

/-- Taking a fault (60_exceptions R254): the cause code is recorded and answered, and nothing else changes. -/
def takeFault (c : Cause) (s : State) : Result := .next { s with fault := c.code, resp := faultResponse c.code }

/-- The answer of the halted block (60_exceptions R255): the stored code, and no effect. -/
def haltedAnswer (s : State) : Result := .next { s with resp := faultResponse s.fault }

/-- Every command runs under this: a refused configuration has no step (00_scope R12), and a halted block only repeats
its code (60_exceptions R255, first in the order of R256). -/
def running (s : State) (body : Result) : Result :=
  if s.cfg.wf then (if s.fault = 0 then body else haltedAnswer s) else .refused .illFormedConfiguration

/-- Appends an event to the trace (10_state R41). -/
def State.emit (s : State) (e : Event) : State := { s with trace := s.trace ++ [e] }

/-- The checks of a bit-field command, in the order of 60_exceptions R256, and then its effect. -/
def checkedField (s : State) (sel : Sel) (a o w : Nat) (body : Result) : Result :=
  running s
    (if fieldOK o w then (if a < s.cfg.nbytes sel then body else takeFault .indexRange s) else takeFault .fieldRange s)

/-- The check of an element command, and then its effect (42_packed_container R144, R145). -/
def checkedElem (s : State) (sel : Sel) (i : Nat) (body : Result) : Result :=
  running s (if i < s.cfg.count sel then body else takeFault .indexRange s)

/-- The checks of a channel command, in the order of 60_exceptions R256, and then its effect. -/
def checkedChannel (s : State) (sel : Sel) (i off w : Nat) (body : Result) : Result :=
  running s
    (if chanOK (s.cfg.elemBits sel) off w then (if i < s.cfg.count sel then body else takeFault .indexRange s)
     else takeFault .fieldRange s)

end Sys2Proof.Machine
end

