-- ==== Sys2Proof/Machine/BitField.lean ====
section
/-!
DEFINITION. The bit-field commands of 41_bitfield: `BFRD.R`, `BFRD.L`, `BFWR.R`, `BFWR.L`.
-/
namespace Sys2Proof.Machine

/-- `BFRD.R` (41_bitfield R125). -/
def execBfrdR (sel : Sel) (a o w : Nat) (s : State) : Result :=
  checkedField s sel a o w (done (unsignedResult (readR (s.storeByte sel a) o w)) false s)

/-- `BFRD.L` (41_bitfield R126). -/
def execBfrdL (sel : Sel) (a o w : Nat) (s : State) : Result :=
  checkedField s sel a o w (done (unsignedResult (readL (s.storeByte sel a) o w)) false s)

/-- `BFWR.R` (41_bitfield R127). -/
def execBfwrR (sel : Sel) (a o w v : Nat) (s : State) : Result :=
  checkedField s sel a o w (done 0 false (s.setStoreByte sel a (writeR 8 (s.storeByte sel a) o w v)))

/-- `BFWR.L` (41_bitfield R128). -/
def execBfwrL (sel : Sel) (a o w v : Nat) (s : State) : Result :=
  checkedField s sel a o w (done 0 false (s.setStoreByte sel a (writeL 8 (s.storeByte sel a) o w v)))

end Sys2Proof.Machine
end

