-- ==== Sys2Proof/Machine/Container.lean ====
section
/-!
DEFINITION. The element, channel and clear commands of 42_packed_container: `ELRD`, `ELWR`, `CHRD.R`, `CHRD.L`,
`CHWR.R`, `CHWR.L`, `CLR`.
-/
namespace Sys2Proof.Machine

/-- `ELRD` (42_packed_container R144). -/
def execElrd (sel : Sel) (i : Nat) (s : State) : Result :=
  checkedElem s sel i (done (unsignedResult (s.elemRead sel i)) false s)

/-- `ELWR` (42_packed_container R145). -/
def execElwr (sel : Sel) (i v : Nat) (s : State) : Result :=
  checkedElem s sel i (done 0 false (s.elemWrite sel i v))

/-- `CHRD.R` (42_packed_container R146). -/
def execChrdR (sel : Sel) (i off w : Nat) (s : State) : Result :=
  checkedChannel s sel i off w (done (unsignedResult (readR (s.elemRead sel i) off w)) false s)

/-- `CHRD.L` (42_packed_container R147). -/
def execChrdL (sel : Sel) (i off w : Nat) (s : State) : Result :=
  checkedChannel s sel i off w (done (unsignedResult (readL (s.elemRead sel i) off w)) false s)

/-- `CHWR.R` (42_packed_container R148). -/
def execChwrR (sel : Sel) (i off w v : Nat) (s : State) : Result :=
  checkedChannel s sel i off w
    (done 0 false (s.elemWrite sel i (writeR (s.cfg.elemBits sel) (s.elemRead sel i) off w v)))

/-- `CHWR.L` (42_packed_container R149). -/
def execChwrL (sel : Sel) (i off w v : Nat) (s : State) : Result :=
  checkedChannel s sel i off w
    (done 0 false (s.elemWrite sel i (writeL (s.cfg.elemBits sel) (s.elemRead sel i) off w v)))

/-- `CLR` (42_packed_container R150): every byte, pad bits included. -/
def execClr (sel : Sel) (s : State) : Result :=
  running s (done 0 false (s.setStore sel (Memory.clear (s.cfg.nbytes sel) (s.store sel))))

end Sys2Proof.Machine
end

