-- ==== Sys2Proof/Machine/Iterator.lean ====
section
/-!
DEFINITION. The iterator commands of 42_packed_container: `ITBEG`, `ITEND`, `ITADD`, `ITDIFF`, `ITEQ`. An iterator is
a position the host holds (R156); these commands touch no state.
-/
namespace Sys2Proof.Machine

/-- `ITBEG` (42_packed_container R151). `SEL` matters only to the host's bookkeeping. -/
def execItbeg (_sel : Sel) (s : State) : Result := running s (done 0 false s)

/-- `ITEND` (42_packed_container R152). -/
def execItend (sel : Sel) (s : State) : Result := running s (done (unsignedResult (s.cfg.count sel)) false s)

/-- `ITADD` (42_packed_container R153): the input position is checked first, then the result (60_exceptions R256). -/
def execItadd (sel : Sel) (pos : Nat) (n : Int) (s : State) : Result :=
  running s
    (if s.cfg.count sel < pos then takeFault .indexRange s
     else if (pos : Int) + n < 0 ∨ (s.cfg.count sel : Int) < (pos : Int) + n then takeFault .indexRange s
     else done (unsignedResult ((pos : Int) + n).toNat) false s)

/-- `ITDIFF` (42_packed_container R154). -/
def execItdiff (sel : Sel) (pos2 pos1 : Nat) (s : State) : Result :=
  running s
    (if s.cfg.count sel < pos2 ∨ s.cfg.count sel < pos1 then takeFault .indexRange s
     else done (signedResult ((pos2 : Int) - (pos1 : Int))) false s)

/-- `ITEQ` (42_packed_container R155). -/
def execIteq (sel : Sel) (pos1 pos2 : Nat) (s : State) : Result :=
  running s
    (if s.cfg.count sel < pos1 ∨ s.cfg.count sel < pos2 then takeFault .indexRange s
     else done 0 (decide (pos1 = pos2)) s)

end Sys2Proof.Machine
end

