-- ==== Sys2Proof/Machine/Window.lean ====
section
/-!
DEFINITION. The page window's procedures (43_page_window R185, R186) and commands: `PWBEGIN`, `PWDRAW`, `PWREAD`,
`PWADV`.
-/
namespace Sys2Proof.Machine

/-- `PW_BEGINFRAME` (43_page_window R185): the topmost band, and the frontend store cleared, pad bits included. -/
def State.beginFrame (s : State) : State :=
  { s with
    p0x := 0
    p0y := 0
    p1x := BitVec.ofNat 32 (s.cfg.width - 1)
    p1y := BitVec.ofNat 32 (s.cfg.pageHeight - 1)
    fs := Memory.clear s.cfg.nf s.fs }

/-- `PW_ADVANCE` where the band is not the last one (43_page_window R186): the box moves down by `PAGE_HEIGHT`. -/
def State.advanceBand (s : State) : State :=
  { s with
    p0y := s.p0y + BitVec.ofNat 32 s.cfg.pageHeight
    p1y := s.p1y + BitVec.ofNat 32 s.cfg.pageHeight }

/-- `PWBEGIN` (43_page_window R187). -/
def execPwbegin (s : State) : Result := running s (done 0 false s.beginFrame)

/-- `PWDRAW` (43_page_window R188): clipped outside the band, and never a fault of the block. The index is inside the
store in every state a run reaches (R183). -/
def execPwdraw (x y : Int) (c : Nat) (s : State) : Result :=
  running s
    (if s.inBand x y then
       (if s.pixelIndex x y < s.cfg.ppp then done 0 true (s.elemWrite .front (s.pixelIndex x y) c)
        else .fault .outsideStore)
     else done 0 false s)

/-- `PWREAD` (43_page_window R189): the default colour, 0, outside the band (R191). -/
def execPwread (x y : Int) (s : State) : Result :=
  running s
    (if s.inBand x y then
       (if s.pixelIndex x y < s.cfg.ppp then done (unsignedResult (s.elemRead .front (s.pixelIndex x y))) true s
        else .fault .outsideStore)
     else done 0 false s)

/-- `PWADV` (43_page_window R190). -/
def execPwadv (s : State) : Result :=
  running s (if s.lastBand then done 0 false s else done 0 true s.advanceBand)

end Sys2Proof.Machine
end

