-- ==== Sys2Proof/Machine/Transfer.lean ====
section
/-!
DEFINITION. The transfer sequencer and the colour-space bridge (44_transfer R213 to R221), and `TDUPDATE`.
-/
namespace Sys2Proof.Machine

/-- `CHUNK_DRAW(L)` (44_transfer R218): the bytes of one draw of the free value `Config.chunkByte` (log entry 7). -/
def chunkDraw (draw len : Nat) : List Byte := (List.range len).map fun i => Config.chunkByte draw i

/-- The conversions of one chunk (44_transfer R216): element `j` of the scratch store becomes `CONVERT` of frontend
element `off + j`, for `j` below `size`. -/
def convertChunk (c : Config) (fs : Memory) (off : Nat) : Nat → Memory → Memory
  | 0, bs => bs
  | size + 1, bs =>
    Memory.setElem (convertChunk c fs off size bs) c.eb size (c.convertOf (Memory.elem fs c.ef (off + size)))

/-- The bytes of a chunk: `EXTRACT_CHUNK(off, size)` of 44_transfer R215 (identity, zero-copy, or a draw where the
chunk does not start on a byte boundary) and R216 (converting, from the converted scratch store). -/
def State.chunkBytes (s : State) (off size : Nat) : List Byte :=
  match s.cfg.bridge with
  | .identity =>
    if off * s.cfg.ef % 8 = 0 then Memory.bytes s.fs (off * s.cfg.ef / 8) (ceilDiv (size * s.cfg.ef) 8)
    else chunkDraw s.draws (ceilDiv (size * s.cfg.ef) 8)
  | .converting => Memory.bytes (convertChunk s.cfg s.fs off size s.bs) 0 (ceilDiv (size * s.cfg.eb) 8)

/-- What `EXTRACT_CHUNK(off, size)` leaves: the scratch store refilled when converting (44_transfer R216), and the
draw counter moved on when the bytes were a draw. -/
def State.afterExtract (s : State) (off size : Nat) : State :=
  match s.cfg.bridge with
  | .identity => if off * s.cfg.ef % 8 = 0 then s else { s with draws := s.draws + 1 }
  | .converting => { s with bs := convertChunk s.cfg s.fs off size s.bs }

/-- The element offset of the next chunk (44_transfer R214). -/
def State.chunkOff (s : State) : Nat := s.cfg.ppp - s.rem.toNat

/-- The pixel count of the next chunk (44_transfer R214). -/
def State.chunkSize (s : State) : Nat := min s.cfg.maxChunk s.rem.toNat

/-- The state after `WRITE_CHUNK` (44_transfer R214). -/
def State.writeChunk (s : State) : State :=
  let t := (s.afterExtract s.chunkOff s.chunkSize).emit
    (.devWrite (s.chunkBytes s.chunkOff s.chunkSize) s.chunkOff s.chunkSize)
  { t with rem := s.rem - BitVec.ofNat 32 s.chunkSize }

/-- `WRITE_CHUNK` and the response of `TDUPDATE` for it (44_transfer R214, R220). `REM ≤ PPP` in every state a run
reaches (10_state R38). -/
def sendChunk (s : State) : Result :=
  if s.rem.toNat ≤ s.cfg.ppp then done (unsignedResult s.chunkSize) true s.writeChunk else .fault .outsideStore

/-- `REM <- PPP`, the first half of `BEGIN_PAGE` (44_transfer R213). -/
def State.startPage (s : State) : State := { s with rem := BitVec.ofNat 32 s.cfg.ppp }

/-- The state in which `FRAME_START` begins the page (44_transfer R221). -/
def State.startFrame (s : State) : State := s.beginFrame.emit .devBeginFrame

/-- `TDUPDATE` (44_transfer R220). -/
def execTdupdate (s : State) : Result :=
  running s
    (if s.ready then
       (if s.rem ≠ 0 then sendChunk s
        else if s.lastBand then (if s.permit then sendChunk s.startFrame.startPage else done 0 false s)
        else sendChunk s.advanceBand.startPage)
     else done 0 false s)

end Sys2Proof.Machine
end

