-- ==== Sys2Proof/Machine/Dispatch.lean ====
section
/-! DEFINITION. One arm per command: `exec` sends each constructor of `Instr` to its meaning. -/
namespace Sys2Proof.Machine

def exec (i : Instr) (s : State) : Host.Outcome State Fault Refusal :=
  match i with
  | .bfrdR sel a o w => Sys2Proof.Machine.execBfrdR sel a o w s
  | .bfrdL sel a o w => Sys2Proof.Machine.execBfrdL sel a o w s
  | .bfwrR sel a o w v => Sys2Proof.Machine.execBfwrR sel a o w v s
  | .bfwrL sel a o w v => Sys2Proof.Machine.execBfwrL sel a o w v s
  | .elrd sel k => Sys2Proof.Machine.execElrd sel k s
  | .elwr sel k v => Sys2Proof.Machine.execElwr sel k v s
  | .chrdR sel k off w => Sys2Proof.Machine.execChrdR sel k off w s
  | .chrdL sel k off w => Sys2Proof.Machine.execChrdL sel k off w s
  | .chwrR sel k off w v => Sys2Proof.Machine.execChwrR sel k off w v s
  | .chwrL sel k off w v => Sys2Proof.Machine.execChwrL sel k off w v s
  | .clr sel => Sys2Proof.Machine.execClr sel s
  | .itbeg sel => Sys2Proof.Machine.execItbeg sel s
  | .itend sel => Sys2Proof.Machine.execItend sel s
  | .itadd sel pos n => Sys2Proof.Machine.execItadd sel pos n s
  | .itdiff sel pos2 pos1 => Sys2Proof.Machine.execItdiff sel pos2 pos1 s
  | .iteq sel pos1 pos2 => Sys2Proof.Machine.execIteq sel pos1 pos2 s
  | .pwbegin => Sys2Proof.Machine.execPwbegin s
  | .pwdraw x y c => Sys2Proof.Machine.execPwdraw x y c s
  | .pwread x y => Sys2Proof.Machine.execPwread x y s
  | .pwadv => Sys2Proof.Machine.execPwadv s
  | .tdupdate => Sys2Proof.Machine.execTdupdate s

end Sys2Proof.Machine
end

