-- ==== Sys2Proof/Machine/CommandPort.lean ====
section
/-!
DEFINITION. The command port (00_scope R6; 10_state R31): how the block takes the host's next command, and reset as an
event of the host's sequence (70_reset_and_hazards R280).
-/
namespace Sys2Proof.Machine

/-- The next entry of the host's sequence (10_state R31), if the host has one. -/
def State.nextEvent (s : State) : Option HostEvent := s.host[s.pc]?

/-- The state in which the next command executes: the index has moved on (10_state R31: by one per command, faulted
ones included) and the input lines carry the device's answers (44_transfer R211, R212). -/
def State.accept (s : State) (ready permit : Bool) : State :=
  { s with pc := s.pc + 1, ready := ready, permit := permit }

/-- An illegal command word (30_encoding R98; 60_exceptions R251, R256). -/
def execIllegal (s : State) : Result := running s (takeFault .illegalCmd s)

/-- One command as presented: decoded, and run or faulted (30_encoding R97, R98). -/
def execCommand (c : Command) (s : State) : Result :=
  match decode c with
  | .ok i => exec i s
  | .error _ => execIllegal s

/-- Reset (70_reset_and_hazards R280). The configuration stays; so do the host's sequence, its index, which moves on,
and the draw counter, which are the model's own and no part of the block (log entry 11). -/
def State.resetTo (s : State) (initFs initBs : List Byte) : State :=
  { State.resetWith s.cfg initFs initBs with host := s.host, pc := s.pc + 1, draws := s.draws }

/-- One event of the host. -/
def handleEvent (e : HostEvent) (s : State) : Result :=
  match e with
  | .issue c ready permit => execCommand c (s.accept ready permit)
  | .reset initFs initBs => .next (s.resetTo initFs initBs)

/-- One step: the host's next event, or, with none pending, the block waits and holds its state (70 R281;
60_exceptions R267). Under a refused configuration there is no step (00_scope R12). -/
def stepBody (s : State) : Result :=
  if s.cfg.wf then
    (match s.nextEvent with
     | none => .next s
     | some e => handleEvent e s)
  else .refused .illFormedConfiguration

/-- The state with a host event standing where the next step takes it. -/
def State.withNextEvent (s : State) (e : HostEvent) : State :=
  { s with host := (s.host ++ List.replicate (s.pc + 1 - s.host.length) e).set s.pc e }

end Sys2Proof.Machine
end

