-- ==== Sys2Proof/Machine/Step.lean ====
section
/-!
DEFINITION. The step of the machine, and the host's fixed name for placing one instruction.
-/
namespace Sys2Proof.Machine

/-- One step: the host's next event (10_state R31; 00_scope R6). -/
def step (s : State) : Host.Outcome State Fault Refusal := stepBody s

/-- The state whose next step runs the instruction with the low `nbits` bits `w`: the host issues that command next,
with the device ready and a new frame permitted (the default policy of 44_transfer R212; log entry 4). -/
def State.withFetchWord (s : State) (nbits w : Nat) : State :=
  s.withNextEvent (.issue (commandOfBits (w % 2 ^ nbits)) true true)

end Sys2Proof.Machine
end

