-- ==== Sys2Proof/Safety.lean ====
section
/-!
DEFINITION. The terms claims are stated in: a running block, the phases of 10_state R45, the invariant of the states a
run reaches (10_state R37, R38; 20_memory R74), and what one state shares with another.
-/
namespace Sys2Proof

/-- The selection that a container write names: `BFWR`, `ELWR`, `CHWR` and `CLR` (10_state R34, R35). -/
def Instr.writtenSelect : Instr → Option Sel
  | .bfwrR sel _ _ _ _ => some sel
  | .bfwrL sel _ _ _ _ => some sel
  | .elwr sel _ _ => some sel
  | .chwrR sel _ _ _ _ => some sel
  | .chwrL sel _ _ _ _ => some sel
  | .clr sel => some sel
  | .bfrdR .. | .bfrdL .. | .elrd .. | .chrdR .. | .chrdL .. | .itbeg .. | .itend .. | .itadd .. | .itdiff ..
  | .iteq .. | .pwbegin | .pwdraw .. | .pwread .. | .pwadv | .tdupdate => none

/-- The same command with another store select, for the commands that have the field `SEL` (30_encoding R91). -/
def Instr.withSelect (sel : Sel) : Instr → Instr
  | .bfrdR _ a o w => .bfrdR sel a o w
  | .bfrdL _ a o w => .bfrdL sel a o w
  | .bfwrR _ a o w v => .bfwrR sel a o w v
  | .bfwrL _ a o w v => .bfwrL sel a o w v
  | .elrd _ i => .elrd sel i
  | .elwr _ i v => .elwr sel i v
  | .chrdR _ i off w => .chrdR sel i off w
  | .chrdL _ i off w => .chrdL sel i off w
  | .chwrR _ i off w v => .chwrR sel i off w v
  | .chwrL _ i off w v => .chwrL sel i off w v
  | .clr _ => .clr sel
  | .itbeg _ => .itbeg sel
  | .itend _ => .itend sel
  | .itadd _ pos n => .itadd sel pos n
  | .itdiff _ pos2 pos1 => .itdiff sel pos2 pos1
  | .iteq _ pos1 pos2 => .iteq sel pos1 pos2
  | .pwbegin => .pwbegin
  | .pwdraw x y c => .pwdraw x y c
  | .pwread x y => .pwread x y
  | .pwadv => .pwadv
  | .tdupdate => .tdupdate

/-- The chunks of one page: the offsets `0, MAX_CHUNK, 2 * MAX_CHUNK, ...` with their sizes (44_transfer R225). -/
def Config.pageRecords (c : Config) : List (Nat × Nat) :=
  (List.range (ceilDiv c.ppp c.maxChunk)).map fun k => (k * c.maxChunk, min c.maxChunk (c.ppp - k * c.maxChunk))

/-- The chunks of one frame, page after page (44_transfer R225). -/
def Config.frameRecords (c : Config) : List (Nat × Nat) :=
  (List.range c.pageCount).flatMap fun _ => c.pageRecords

end Sys2Proof

namespace Sys2Proof.Machine

/-- The block has a legal configuration (00_scope R12) and is not halted (60_exceptions R255). -/
def Running (s : State) : Prop := s.cfg.wf = true ∧ s.fault = 0

/-- The band invariant (10_state R37). -/
def BandOK (s : State) : Prop :=
  s.p0x.toInt = 0 ∧ s.p1x.toInt = (s.cfg.width : Int) - 1 ∧
    ∃ k : Nat, k < s.cfg.pageCount ∧ s.p0y.toInt = (k : Int) * s.cfg.pageHeight ∧
      s.p1y.toInt = s.p0y.toInt + s.cfg.pageHeight - 1

/-- The two stores are in canonical form and hold no byte beyond their sizes (20_memory R74). -/
def StoresOK (s : State) : Prop :=
  Memory.wf s.fs = true ∧ Memory.within s.cfg.nf s.fs = true ∧ Memory.wf s.bs = true ∧ Memory.within s.cfg.nb s.bs = true

/-- The invariant of the states a run reaches: a legal configuration, stores in canonical form, the band of R37, the
counter of R38 and an index into the host's sequence. -/
structure Inv (s : State) : Prop where
  config : s.cfg.wf = true
  stores : StoresOK s
  band : BandOK s
  rem : s.rem.toNat ≤ s.cfg.ppp
  index : s.pc ≤ s.host.length

/-- `Idle` (10_state R45). -/
abbrev Idle (s : State) : Prop := s.rem = 0 ∧ s.lastBand = true

/-- `PageActive(n)` (10_state R45). -/
def PageActive (n : Nat) (s : State) : Prop := s.rem.toNat = n ∧ 0 < n

/-- `PageExhausted` (10_state R45). -/
def PageExhausted (s : State) : Prop := s.rem = 0 ∧ s.lastBand = false

/-- A ready update of the running block sends a chunk: pixels of the page are left, or a next page is begun, or a new
frame is permitted (44_transfer R220). -/
def Sends (s : State) : Prop := s.rem ≠ 0 ∨ s.lastBand = false ∨ s.permit = true

/-- The values reset leaves (10_state R48, R49; 70_reset_and_hazards R280), whatever the stores hold. -/
def LeftByReset (c : Config) (t : State) : Prop :=
  t.cfg = c ∧ t.p0x.toInt = 0 ∧ t.p0y.toInt = (c.lastTop : Int) ∧ t.p1x.toInt = (c.width : Int) - 1 ∧
    t.p1y.toInt = (c.height : Int) - 1 ∧ t.rem = 0 ∧ t.fault = 0 ∧ t.trace = [] ∧ Idle t

/-- The two states differ at most in the response port. -/
def SameButResponse (s t : State) : Prop := t = { s with resp := t.resp }

/-- The two states differ at most in the response port and the stores. -/
def SameButStores (s t : State) : Prop := t = { s with fs := t.fs, bs := t.bs, resp := t.resp }

/-- The response says done, with this result and this boolean outcome (30_encoding R94). -/
def Answered (t : State) (res : Word) (flag : Bool) : Prop := t.resp.status = 0 ∧ t.resp.res = res ∧ t.resp.flag = flag

/-- Taking a fault with a cause changes nothing but `FAULT` and the response (60_exceptions R254). -/
def FaultedWith (s t : State) (code : BitVec 2) : Prop := t = { s with fault := code, resp := ⟨code, 0, false⟩ }

/-- The store that `SEL` does not name keeps its bytes (00_scope R19). -/
def OtherStoreSame (sel : Sel) (s t : State) : Prop := ∀ d, d ≠ s.cfg.storeOf sel → t.storeBytes d = s.storeBytes d

/-- The same command issued `n` times, with no other command between and the input lines held. -/
def repeated (i : Instr) : Nat → State → Result
  | 0, s => .next s
  | n + 1, s =>
    match exec i s with
    | .next t => repeated i n t
    | .fault r => .fault r
    | .refused r => .refused r

/-- `n` steps of the machine, stopping where a step stops. -/
def steps : Nat → State → Result
  | 0, s => .next s
  | n + 1, s =>
    match step s with
    | .next t => steps n t
    | .fault r => .fault r
    | .refused r => .refused r

/-- The chunk record of a `DevWrite` (10_state R42). -/
def Event.record : Event → Option (Nat × Nat)
  | .devWrite _ off size => some (off, size)
  | .devBeginFrame => none

/-- A safe state: the invariant holds and no fault is recorded (60_exceptions R255: a claim takes "`FAULT = 0` at the
end" as part of its postcondition). -/
def Safe (s : State) : Prop := Inv s ∧ s.fault = 0

end Sys2Proof.Machine
end

