-- ==== Sys2Proof/Certificates/Slice0/Obligations.lean ====
section
/-!
DEFINITION. The statements for the provers. Each docstring names the rule of spec/ it formalises. A statement over
states that no run reaches carries the invariant it needs as a premise (`Inv`, `StoresOK`, `BandOK`); that `Inv` holds
after reset and is kept by every step are statements of their own.
-/

open Sys2Proof Sys2Proof.Machine

/-! ### Encoding and decoding (30_encoding) -/

/-- 30_encoding R91, R93, R95 to R97: decoding the encoding of a command gives the command back, every operand at every
value its port admits. -/
def Obligations.EncodedCommandsDecodeBack : Prop :=
  ∀ i : Instr, i.wf = true → decode (encode i) = .ok i

/-- 30_encoding R95 to R97: a decoded command has operands its ports admit, and its encoding has the command word it
was decoded from: no other word means the same command. -/
def Obligations.DecodedCommandsKeepTheirWord : Prop :=
  ∀ (c : Command) (i : Instr), decode c = .ok i → i.wf = true ∧ (encode i).cmd = c.cmd

/-- 30_encoding R97 (decision D10): a word decodes to a row's command exactly when it agrees with the row's `match` on
its `mask`, and a word that agrees with no row is rejected. -/
def Obligations.LegalWordsAreTheRowsOfTheMap : Prop :=
  (∀ r ∈ opcodeRows, ∀ c : Command,
      c.cmd &&& r.mask = r.pattern ↔ ∃ i, decode c = .ok i ∧ i.mnemonic = r.mnemonic) ∧
    ∀ c : Command, (∀ r ∈ opcodeRows, c.cmd &&& r.mask ≠ r.pattern) → ∃ e, decode c = .error e

/-- 30_encoding R96: no command word agrees with two rows of the opcode map. -/
def Obligations.OpcodeRowsDoNotOverlap : Prop :=
  ∀ r ∈ opcodeRows, ∀ r' ∈ opcodeRows, ∀ w : Word,
    w &&& r.mask = r.pattern → w &&& r'.mask = r'.pattern → r = r'

/-- 30_encoding R102, and one word for each other family written out from the fields of R91: they decode to the
commands they stand for, whatever the unused ports hold. -/
def Obligations.ExampleWordsDecode : Prop :=
  ∀ x y z u : Word,
    decode ⟨0x00000310, 3, 2, 3, x⟩ = .ok (.bfrdL .back 3 2 3) ∧
      decode ⟨0x00000023, 2, 1, 2, 3⟩ = .ok (.chwrR .front 2 1 2 3) ∧
      decode ⟨0x00000031, 1, 0xFFFFFFFF, 1, x⟩ = .ok (.pwdraw 1 (-1) 1) ∧
      decode ⟨0x00000040, x, y, z, u⟩ = .ok .tdupdate ∧
      decode ⟨0x0000022A, 5, 0xFFFFFFFB, x, y⟩ = .ok (.itadd .back 5 (-5))

/-- 60_exceptions R251 (decision D10): an unassigned operation code, a set reserved bit, `AL = 1` without an alignment
form and `SEL = 1` on a page-window or transfer code each raise `ILLEGAL_CMD`. The command stands in the host's
sequence, the model's own field (log entries 4, 6). -/
def Obligations.IllegalWordsRaiseIllegalCmd : Prop :=
  ∀ (s : State) (c : Command) (r p : Bool), Running s → s.nextEvent = some (.issue c r p) →
    (c.cmd.toNat % 256 ∉ [0x10, 0x11, 0x20, 0x21, 0x22, 0x23, 0x24, 0x28, 0x29, 0x2A, 0x2B, 0x2C, 0x30, 0x31, 0x32, 0x33,
        0x40] ∨
      c.cmd.toNat / 1024 ≠ 0 ∨
      (c.cmd.getLsbD 8 = true ∧ c.cmd.toNat % 256 ∉ [0x10, 0x11, 0x22, 0x23]) ∨
      (c.cmd.getLsbD 9 = true ∧ 0x30 ≤ c.cmd.toNat % 256)) →
    ∃ t, step s = .next t ∧ FaultedWith (s.accept r p) t 1

/-! ### The step (00_scope R6, R12; 10_state R31) -/

/-- 10_state R31 and 00_scope R6: when the host's next event is a command that decodes to `i`, the step is `exec i`
with the index moved on and the input lines carrying the device's answers (log entries 4, 6: the model's own fields). -/
def Obligations.StepRunsTheDecodedCommand : Prop :=
  ∀ (s : State) (c : Command) (r p : Bool) (i : Instr), s.cfg.wf = true → s.nextEvent = some (.issue c r p) →
    decode c = .ok i → step s = exec i { s with pc := s.pc + 1, ready := r, permit := p }

/-- 60_exceptions R267 and 70_reset_and_hazards R281 (log entry 4): with no command pending the block holds its state. -/
def Obligations.StepWithoutACommandHoldsTheState : Prop :=
  ∀ s : State, s.cfg.wf = true → s.host.length ≤ s.pc → step s = .next s

/-- 00_scope R12 with the checks of R11: a configuration that fails a check has no step and no command has a meaning
under it (log entry 10: the model answers a refusal). -/
def Obligations.IllFormedConfigurationHasNoStep : Prop :=
  ∀ s : State,
    ¬((1 ≤ s.cfg.width ∧ 1 ≤ s.cfg.height) ∧ 1 ≤ s.cfg.pageCount ∧ s.cfg.height % s.cfg.pageCount = 0 ∧
        1 ≤ s.cfg.maxChunk ∧
        (s.cfg.ef ∈ [1, 2, 3, 4, 5, 6, 7, 8, 16, 24, 32] ∧ s.cfg.eb ∈ [1, 2, 3, 4, 5, 6, 7, 8, 16, 24, 32]) ∧
        (s.cfg.bridge = .identity → s.cfg.ef = s.cfg.eb) ∧
        (s.cfg.mapping = .banked → s.cfg.pageHeight % 8 = 0) ∧
        (s.cfg.width * s.cfg.height ≤ 2 ^ 31 - 1 ∧ s.cfg.maxChunk ≤ 2 ^ 31 - 1) ∧
        (s.cfg.bridge = .converting → ∀ v < 2 ^ s.cfg.ef, s.cfg.convertOf v < 2 ^ s.cfg.eb)) →
      step s = .refused .illFormedConfiguration ∧ ∀ i : Instr, exec i s = .refused .illFormedConfiguration

/-! ### Faults (60_exceptions) -/

/-- 60_exceptions R255: while `FAULT` is not 0 every command, and every illegal word, has no effect and answers the
stored code (log entry 8: a next state, not a stop). -/
def Obligations.HaltedBlockHasNoEffect : Prop :=
  ∀ s : State, s.cfg.wf = true → s.fault ≠ 0 →
    (∀ i : Instr, exec i s = .next { s with resp := ⟨s.fault, 0, false⟩ }) ∧
      ∀ c : Command, execCommand c s = .next { s with resp := ⟨s.fault, 0, false⟩ }

/-- 60_exceptions R257 (decision D11): in a halted block a command changes no part of the block and faults do not nest,
so `FAULT` keeps the first code; only a reset clears it. The host's events and the reset event are the model's own
(log entries 4, 11). -/
def Obligations.OnlyResetClearsAFault : Prop :=
  ∀ s : State, s.cfg.wf = true → s.fault ≠ 0 →
    (∀ t, step s = .next t → t.fault ≠ 0 →
        t.fault = s.fault ∧ t.fs = s.fs ∧ t.bs = s.bs ∧ t.rem = s.rem ∧ t.trace = s.trace ∧
          (t.p0x, t.p0y, t.p1x, t.p1y) = (s.p0x, s.p0y, s.p1x, s.p1y)) ∧
      (∀ t, step s = .next t → t.fault = 0 → ∃ f b, s.nextEvent = some (.reset f b)) ∧
      ∀ f b, s.nextEvent = some (.reset f b) → ∃ t, step s = .next t ∧ t.fault = 0

/-- 60_exceptions R254 (decision D11): a command that faults, whether by a check or as an illegal word, records the
code, answers it with `RES = 0` and `FLAG = 0`, and changes nothing else. -/
def Obligations.FaultsArePrecise : Prop :=
  ∀ s t : State, Running s → t.fault ≠ 0 →
    (∀ i : Instr, exec i s = .next t → FaultedWith s t t.fault) ∧
      ∀ c : Command, execCommand c s = .next t → FaultedWith s t t.fault

/-- 60_exceptions R250: code 2 is raised by bit-field and channel commands only, code 3 by those and the element and
iterator commands with a position, and no decoded command raises code 1. -/
def Obligations.CausesBelongToTheirCommands : Prop :=
  ∀ (s t : State) (i : Instr), Running s → exec i s = .next t →
    t.fault ≠ 1 ∧
      (t.fault = 2 → i.mnemonic ∈ ["BFRD.R", "BFRD.L", "BFWR.R", "BFWR.L", "CHRD.R", "CHRD.L", "CHWR.R", "CHWR.L"]) ∧
      (t.fault = 3 →
        i.mnemonic ∈ ["BFRD.R", "BFRD.L", "BFWR.R", "BFWR.L", "ELRD", "ELWR", "CHRD.R", "CHRD.L", "CHWR.R", "CHWR.L",
          "ITADD", "ITDIFF", "ITEQ"])

/-- 60_exceptions R252 (decision D8), with `FieldOK` of 41_bitfield R120 and `ChanOK` of 42_packed_container R142
written out: `FIELD_RANGE` is raised exactly when the field or channel is not legal, whatever the address or index. -/
def Obligations.FieldRangeIsRaisedExactly : Prop :=
  ∀ (s : State) (sel : Sel) (a o w v : Nat), Running s →
    (∀ i ∈ [Instr.bfrdR sel a o w, .bfrdL sel a o w, .bfwrR sel a o w v, .bfwrL sel a o w v],
        (∃ t, exec i s = .next t ∧ FaultedWith s t 2) ↔ ¬(1 ≤ w ∧ w ≤ 8 ∧ o + w ≤ 8)) ∧
      ∀ i ∈ [Instr.chrdR sel a o w, .chrdL sel a o w, .chwrR sel a o w v, .chwrL sel a o w v],
        (∃ t, exec i s = .next t ∧ FaultedWith s t 2) ↔
          ¬(1 ≤ w ∧ w ≤ 8 ∧ o + w ≤ s.cfg.elemBits sel ∧ (8 ≤ s.cfg.elemBits sel → o % 8 + w ≤ 8))

/-- 60_exceptions R253 (decision D9), after the field check that R256 puts first: `INDEX_RANGE` is raised exactly for a
byte address, an element index or an iterator position outside its range. -/
def Obligations.IndexRangeIsRaisedExactly : Prop :=
  ∀ (s : State) (sel : Sel) (a o w v b : Nat) (n : Int), Running s →
    (1 ≤ w ∧ w ≤ 8 ∧ o + w ≤ 8 →
        ∀ i ∈ [Instr.bfrdR sel a o w, .bfrdL sel a o w, .bfwrR sel a o w v, .bfwrL sel a o w v],
          (∃ t, exec i s = .next t ∧ FaultedWith s t 3) ↔ s.cfg.nbytes sel ≤ a) ∧
      (∀ i ∈ [Instr.elrd sel a, .elwr sel a v],
        (∃ t, exec i s = .next t ∧ FaultedWith s t 3) ↔ s.cfg.count sel ≤ a) ∧
      (1 ≤ w ∧ w ≤ 8 ∧ o + w ≤ s.cfg.elemBits sel ∧ (8 ≤ s.cfg.elemBits sel → o % 8 + w ≤ 8) →
        ∀ i ∈ [Instr.chrdR sel a o w, .chrdL sel a o w, .chwrR sel a o w v, .chwrL sel a o w v],
          (∃ t, exec i s = .next t ∧ FaultedWith s t 3) ↔ s.cfg.count sel ≤ a) ∧
      (∀ i ∈ [Instr.itdiff sel a b, .iteq sel a b],
        (∃ t, exec i s = .next t ∧ FaultedWith s t 3) ↔ s.cfg.count sel < a ∨ s.cfg.count sel < b) ∧
      ((∃ t, exec (.itadd sel a n) s = .next t ∧ FaultedWith s t 3) ↔
        s.cfg.count sel < a ∨ (a : Int) + n < 0 ∨ (s.cfg.count sel : Int) < (a : Int) + n)

/-! ### The bit-field accessor (41_bitfield) -/

/-- 41_bitfield R125, R126 with R122, R123: `BFRD` on a legal field and address answers the field's bits, right-aligned
at bit 0 or left-aligned at bit 7 of a byte, every other bit of `RES` 0, and changes nothing but the response. -/
def Obligations.BfrdReadsTheFieldBits : Prop :=
  ∀ (s : State) (sel : Sel) (a o w : Nat), Running s → 1 ≤ w → o + w ≤ 8 → a < s.cfg.nbytes sel →
    (∃ t, exec (.bfrdR sel a o w) s = .next t ∧ SameButResponse s t ∧ t.resp.status = 0 ∧ t.resp.flag = false ∧
        ∀ j, t.resp.res.getLsbD j = (decide (j < w) && Memory.bit (s.store sel) (8 * a + o + j))) ∧
      ∃ t, exec (.bfrdL sel a o w) s = .next t ∧ SameButResponse s t ∧ t.resp.status = 0 ∧ t.resp.flag = false ∧
        ∀ j, t.resp.res.getLsbD j =
          (decide (8 - w ≤ j) && (decide (j < 8) && Memory.bit (s.store sel) (8 * a + o + (j - (8 - w)))))

/-- 41_bitfield R127, R128 with R124, R133: `BFWR` on a legal field and address sets the field's bits to the low `w`
bits of the value (`.R`) or to bits 7 to `8-w` of it (`.L`), and changes no other bit of any store and no other state. -/
def Obligations.BfwrWritesTheFieldBitsOnly : Prop :=
  ∀ (s : State) (sel : Sel) (a o w v : Nat), Running s → StoresOK s → 1 ≤ w → o + w ≤ 8 → a < s.cfg.nbytes sel →
    (∃ t, exec (.bfwrR sel a o w v) s = .next t ∧ SameButStores s t ∧ OtherStoreSame sel s t ∧ Answered t 0 false ∧
        ∀ l, Memory.bit (t.store sel) l =
          if 8 * a + o ≤ l ∧ l < 8 * a + o + w then v.testBit (l - (8 * a + o)) else Memory.bit (s.store sel) l) ∧
      ∃ t, exec (.bfwrL sel a o w v) s = .next t ∧ SameButStores s t ∧ OtherStoreSame sel s t ∧ Answered t 0 false ∧
        ∀ l, Memory.bit (t.store sel) l =
          if 8 * a + o ≤ l ∧ l < 8 * a + o + w then v.testBit (8 - w + (l - (8 * a + o)))
          else Memory.bit (s.store sel) l

/-- 41_bitfield R129 (the spec derives it): `BFWR.R` and then `BFRD.R` of the same field answers `v mod 2^w`. -/
def Obligations.RightAlignedRoundTrip : Prop :=
  ∀ (s : State) (sel : Sel) (a o w v : Nat), Running s → StoresOK s → 1 ≤ w → o + w ≤ 8 → a < s.cfg.nbytes sel →
    ∃ t u, exec (.bfwrR sel a o w v) s = .next t ∧ exec (.bfrdR sel a o w) t = .next u ∧ u.resp.status = 0 ∧
      u.resp.res.toNat = v % 2 ^ w

/-- 41_bitfield R131 (the spec derives it): `BFWR.L` and then `BFRD.L` of the same field answers the top `w` bits of
`v[7:0]` with the low bits cleared, which is `v` itself when `v` is below 256 and its low `8 - w` bits are 0. -/
def Obligations.LeftAlignedRoundTrip : Prop :=
  ∀ (s : State) (sel : Sel) (a o w v : Nat), Running s → StoresOK s → 1 ≤ w → o + w ≤ 8 → a < s.cfg.nbytes sel →
    ∃ t u, exec (.bfwrL sel a o w v) s = .next t ∧ exec (.bfrdL sel a o w) t = .next u ∧ u.resp.status = 0 ∧
      u.resp.res.toNat = v &&& ((2 ^ w - 1) * 2 ^ (8 - w)) &&& 255 ∧
      (v < 256 → v % 2 ^ (8 - w) = 0 → u.resp.res.toNat = v)

/-! ### The packed element container (42_packed_container) -/

/-- 42_packed_container R144 with R140: `ELRD` on an index below the count answers the `E` stream bits of the element,
every other bit of `RES` 0, and changes nothing but the response. -/
def Obligations.ElrdReadsTheElementBits : Prop :=
  ∀ (s : State) (sel : Sel) (i : Nat), Running s → i < s.cfg.count sel →
    ∃ t, exec (.elrd sel i) s = .next t ∧ SameButResponse s t ∧ t.resp.status = 0 ∧ t.resp.flag = false ∧
      ∀ j, t.resp.res.getLsbD j =
        (decide (j < s.cfg.elemBits sel) && Memory.bit (s.store sel) (i * s.cfg.elemBits sel + j))

/-- 42_packed_container R141 (decision D6), through `ELWR`: the `E` stream bits of the element become those of the
value, so a value of `2^E` or more writes `v mod 2^E` and does not fault; no other bit of any store changes. -/
def Obligations.ElwrWritesTheElementBitsOnly : Prop :=
  ∀ (s : State) (sel : Sel) (i v : Nat), Running s → StoresOK s → i < s.cfg.count sel →
    ∃ t, exec (.elwr sel i v) s = .next t ∧ SameButStores s t ∧ OtherStoreSame sel s t ∧ Answered t 0 false ∧
      t.elemRead sel i = v % 2 ^ s.cfg.elemBits sel ∧
      ∀ l, Memory.bit (t.store sel) l =
        if i * s.cfg.elemBits sel ≤ l ∧ l < i * s.cfg.elemBits sel + s.cfg.elemBits sel
        then v.testBit (l - i * s.cfg.elemBits sel) else Memory.bit (s.store sel) l

/-- 42_packed_container R159, R161: a write through the proxy is visible to the next read of the element, and every
other element reads as before. -/
def Obligations.ElementWritesAreVisibleAtOnce : Prop :=
  ∀ (s : State) (sel : Sel) (i k v : Nat), Running s → StoresOK s → i < s.cfg.count sel → k < s.cfg.count sel →
    ∃ t u r, exec (.elwr sel i v) s = .next t ∧ exec (.elrd sel k) t = .next u ∧ exec (.elrd sel k) s = .next r ∧
      u.resp.res = if k = i then BitVec.ofNat 32 (v % 2 ^ s.cfg.elemBits sel) else r.resp.res

/-- 42_packed_container R146, R147 with R143: `CHRD` on a legal channel and index answers the channel's bits of the
element, right-aligned or left-aligned, and changes nothing but the response. -/
def Obligations.ChrdReadsTheChannelBits : Prop :=
  ∀ (s : State) (sel : Sel) (i off w : Nat), Running s → 1 ≤ w → w ≤ 8 → off + w ≤ s.cfg.elemBits sel →
    (8 ≤ s.cfg.elemBits sel → off % 8 + w ≤ 8) → i < s.cfg.count sel →
    (∃ t, exec (.chrdR sel i off w) s = .next t ∧ SameButResponse s t ∧ t.resp.status = 0 ∧ t.resp.flag = false ∧
        ∀ j, t.resp.res.getLsbD j =
          (decide (j < w) && Memory.bit (s.store sel) (i * s.cfg.elemBits sel + off + j))) ∧
      ∃ t, exec (.chrdL sel i off w) s = .next t ∧ SameButResponse s t ∧ t.resp.status = 0 ∧ t.resp.flag = false ∧
        ∀ j, t.resp.res.getLsbD j =
          (decide (8 - w ≤ j) &&
            (decide (j < 8) && Memory.bit (s.store sel) (i * s.cfg.elemBits sel + off + (j - (8 - w)))))

/-- 42_packed_container R148, R149 with R143, R161: `CHWR` on a legal channel and index changes the channel's bits of
the element and no other bit of any store, straddling channels included. -/
def Obligations.ChwrWritesTheChannelBitsOnly : Prop :=
  ∀ (s : State) (sel : Sel) (i off w v : Nat), Running s → StoresOK s → 1 ≤ w → w ≤ 8 → off + w ≤ s.cfg.elemBits sel →
    (8 ≤ s.cfg.elemBits sel → off % 8 + w ≤ 8) → i < s.cfg.count sel →
    (∃ t, exec (.chwrR sel i off w v) s = .next t ∧ SameButStores s t ∧ OtherStoreSame sel s t ∧ Answered t 0 false ∧
        ∀ l, Memory.bit (t.store sel) l =
          if i * s.cfg.elemBits sel + off ≤ l ∧ l < i * s.cfg.elemBits sel + off + w
          then v.testBit (l - (i * s.cfg.elemBits sel + off)) else Memory.bit (s.store sel) l) ∧
      ∃ t, exec (.chwrL sel i off w v) s = .next t ∧ SameButStores s t ∧ OtherStoreSame sel s t ∧ Answered t 0 false ∧
        ∀ l, Memory.bit (t.store sel) l =
          if i * s.cfg.elemBits sel + off ≤ l ∧ l < i * s.cfg.elemBits sel + off + w
          then v.testBit (8 - w + (l - (i * s.cfg.elemBits sel + off))) else Memory.bit (s.store sel) l

/-- 42_packed_container R150, R160(1) (decision D38): `CLR` zeroes every byte of the selected store, pad bits included,
so that every element then reads 0, and changes no other store and no other state. -/
def Obligations.ClrZeroesTheSelectedStore : Prop :=
  ∀ (s : State) (sel : Sel), Running s →
    ∃ t, exec (.clr sel) s = .next t ∧ SameButStores s t ∧ OtherStoreSame sel s t ∧ Answered t 0 false ∧
      (∀ a, Memory.get (t.store sel) a = if a < s.cfg.nbytes sel then 0 else Memory.get (s.store sel) a) ∧
      ∀ i, i < s.cfg.count sel → ∃ u, exec (.elrd sel i) t = .next u ∧ Answered u 0 false

/-- 42_packed_container R157 (the spec derives it): a packed element is one bit-field access, or two against two
adjacent bytes where it straddles, with the same result as the stream access. -/
def Obligations.PackedElementsAreFieldAccesses : Prop :=
  ∀ (s : State) (sel : Sel) (i v : Nat), StoresOK s → s.cfg.elemBits sel < 8 →
    let e := s.cfg.elemBits sel
    let k := i * e / 8
    let p := i * e % 8
    (p + e ≤ 8 →
        s.elemRead sel i = readR (s.storeByte sel k) p e ∧
          s.elemWrite sel i v = s.setStoreByte sel k (writeR 8 (s.storeByte sel k) p e v)) ∧
      (8 < p + e →
        s.elemRead sel i =
            readR (s.storeByte sel k) p (8 - p) ||| (readR (s.storeByte sel (k + 1)) 0 (e - (8 - p)) <<< (8 - p)) ∧
          s.elemWrite sel i v =
            (s.setStoreByte sel k (writeR 8 (s.storeByte sel k) p (8 - p) v)).setStoreByte sel (k + 1)
              (writeR 8 (s.storeByte sel (k + 1)) 0 (e - (8 - p)) (v >>> (8 - p))))

/-- 42_packed_container R158 and 20_memory R65 (the spec derives them): an element of `8 * n` bits is `n` whole bytes,
the least significant one at the lowest address. -/
def Obligations.WideElementsAreLittleEndianBytes : Prop :=
  ∀ (s : State) (sel : Sel) (i v n : Nat), StoresOK s → s.cfg.elemBits sel = 8 * n →
    s.elemRead sel i = ((List.range n).map fun m => s.storeByte sel (i * n + m) <<< (8 * m)).sum ∧
      ∀ a, (s.elemWrite sel i v).storeByte sel a =
        if i * n ≤ a ∧ a < i * n + n then (v >>> (8 * (a - i * n))) % 256 else s.storeByte sel a

/-- 00_scope R19 (decision D30): under the identity bridge `SEL = 1` names the same store, so every command answers as
with `SEL = 0`. -/
def Obligations.IdentityBridgeAliasesTheStores : Prop :=
  ∀ (s : State) (i : Instr), s.cfg.bridge = .identity → exec (i.withSelect .back) s = exec (i.withSelect .front) s

/-! ### Iterators (42_packed_container) -/

/-- 42_packed_container R151, R152 with 00_scope R19: `ITBEG` answers 0 and `ITEND` the count, which is the page for
`SEL = 0` and under identity, else `MAX_CHUNK`; nothing but the response changes. -/
def Obligations.ItbegAndItendAnswerTheEnds : Prop :=
  ∀ (s : State) (sel : Sel), Running s →
    (∃ t, exec (.itbeg sel) s = .next t ∧ SameButResponse s t ∧ Answered t 0 false) ∧
      ∃ t, exec (.itend sel) s = .next t ∧ SameButResponse s t ∧ t.resp.status = 0 ∧ t.resp.flag = false ∧
        t.resp.res.toNat =
          if sel = .front ∨ s.cfg.bridge = .identity then s.cfg.width * (s.cfg.height / s.cfg.pageCount)
          else s.cfg.maxChunk

/-- 42_packed_container R153: `ITADD` with the position and the sum inside `0..COUNT` answers the sum, the end position
included, and changes nothing but the response. -/
def Obligations.ItaddAnswersThePosition : Prop :=
  ∀ (s : State) (sel : Sel) (pos : Nat) (n : Int), Running s → pos ≤ s.cfg.count sel → 0 ≤ (pos : Int) + n →
    (pos : Int) + n ≤ s.cfg.count sel →
    ∃ t, exec (.itadd sel pos n) s = .next t ∧ SameButResponse s t ∧ t.resp.status = 0 ∧ t.resp.flag = false ∧
      (t.resp.res.toNat : Int) = (pos : Int) + n

/-- 42_packed_container R154: `ITDIFF` of two positions answers their difference in two's complement, never wrapped,
and changes nothing but the response. -/
def Obligations.ItdiffAnswersTheSignedDifference : Prop :=
  ∀ (s : State) (sel : Sel) (pos2 pos1 : Nat), Running s → pos2 ≤ s.cfg.count sel → pos1 ≤ s.cfg.count sel →
    ∃ t, exec (.itdiff sel pos2 pos1) s = .next t ∧ SameButResponse s t ∧ t.resp.status = 0 ∧ t.resp.flag = false ∧
      t.resp.res.toInt = (pos2 : Int) - (pos1 : Int)

/-- 42_packed_container R155: `ITEQ` of two positions answers whether they are equal, and changes nothing but the
response. -/
def Obligations.IteqComparesPositions : Prop :=
  ∀ (s : State) (sel : Sel) (pos1 pos2 : Nat), Running s → pos1 ≤ s.cfg.count sel → pos2 ≤ s.cfg.count sel →
    ∃ t, exec (.iteq sel pos1 pos2) s = .next t ∧ SameButResponse s t ∧ t.resp.status = 0 ∧ t.resp.res = 0 ∧
      (t.resp.flag = true ↔ pos1 = pos2)

/-! ### The page window (43_page_window) -/

/-- 43_page_window R180, R181, R182: on the resident band the index is the strategy's formula on page-relative
coordinates. R183 (the spec derives it): it is a bijection onto `0..PPP-1`. -/
def Obligations.PixelMapIsABijection : Prop :=
  ∀ s : State, s.cfg.wf = true → BandOK s →
    (∀ x y, s.inBand x y = true →
        (s.cfg.mapping = .rowMajor →
          (s.pixelIndex x y : Int) = (y - s.p0y.toInt) * s.cfg.width + (x - s.p0x.toInt)) ∧
          (s.cfg.mapping = .banked →
            (s.pixelIndex x y : Int) =
              8 * ((y - s.p0y.toInt) / 8) * s.cfg.width + 8 * (x - s.p0x.toInt) + (y - s.p0y.toInt) % 8)) ∧
    (∀ x y, s.inBand x y = true → s.pixelIndex x y < s.cfg.ppp) ∧
      (∀ x y x' y', s.inBand x y = true → s.inBand x' y' = true → s.pixelIndex x y = s.pixelIndex x' y' →
        x = x' ∧ y = y') ∧
      ∀ k, k < s.cfg.ppp → ∃ x y, s.inBand x y = true ∧ s.pixelIndex x y = k

/-- 43_page_window R184 with the band invariant: the bounds are inclusive, the comparison is signed, and a coordinate
that is negative or at or beyond the frame's width or height is never in the band. -/
def Obligations.InBandIsTheInclusiveBox : Prop :=
  ∀ (s : State) (x y : Int), s.cfg.wf = true → BandOK s →
    (s.inBand x y = true ↔ s.p0x.toInt ≤ x ∧ x ≤ s.p1x.toInt ∧ s.p0y.toInt ≤ y ∧ y ≤ s.p1y.toInt) ∧
      (x < 0 ∨ y < 0 ∨ (s.cfg.width : Int) ≤ x ∨ (s.cfg.height : Int) ≤ y → s.inBand x y = false)

/-- 43_page_window R185, R187 (decisions D16, D38): `PWBEGIN` sets the topmost band, zeroes every byte of `FS` and
changes nothing else: not `BS`, not `REM`, not `TRACE`. -/
def Obligations.PwbeginSetsTheTopBandAndClears : Prop :=
  ∀ s : State, Running s →
    ∃ t, exec .pwbegin s = .next t ∧ Answered t 0 false ∧
      t = { s with p0x := t.p0x, p0y := t.p0y, p1x := t.p1x, p1y := t.p1y, fs := t.fs, resp := t.resp } ∧
      t.p0x.toInt = 0 ∧ t.p0y.toInt = 0 ∧ t.p1x.toInt = (s.cfg.width : Int) - 1 ∧
      t.p1y.toInt = (s.cfg.pageHeight : Int) - 1 ∧
      ∀ a, Memory.get t.fs a = if a < s.cfg.nf then 0 else Memory.get s.fs a

/-- 43_page_window R188: `PWDRAW` at a point of the band writes the colour, masked to `EF` bits, to the pixel's element
and changes no other bit; outside the band it changes nothing, and only `FLAG` tells the two apart. -/
def Obligations.PwdrawWritesItsPixelOnly : Prop :=
  ∀ (s : State) (x y : Int) (c : Nat), Inv s → Running s →
    ∃ t, exec (.pwdraw x y c) s = .next t ∧ Answered t 0 (s.inBand x y) ∧
      (s.inBand x y = false → SameButResponse s t) ∧
      (s.inBand x y = true →
        t = { s with fs := t.fs, resp := t.resp } ∧
          ∀ l, Memory.bit t.fs l =
            if s.pixelIndex x y * s.cfg.ef ≤ l ∧ l < s.pixelIndex x y * s.cfg.ef + s.cfg.ef
            then c.testBit (l - s.pixelIndex x y * s.cfg.ef) else Memory.bit s.fs l)

/-- 43_page_window R189 with R191: `PWREAD` answers the pixel's element with `FLAG = 1` in the band, and the zero element
with `FLAG = 0` outside it, and changes nothing but the response. -/
def Obligations.PwreadReadsItsPixel : Prop :=
  ∀ (s : State) (x y : Int), Inv s → Running s →
    ∃ t, exec (.pwread x y) s = .next t ∧ SameButResponse s t ∧
      Answered t (if s.inBand x y = true then BitVec.ofNat 32 (s.elemRead .front (s.pixelIndex x y)) else 0)
        (s.inBand x y)

/-- 43_page_window R188, R189, R183: after a draw at a point of the band, reading that point answers the colour masked
to `EF` bits, and reading any other point answers as before the draw. -/
def Obligations.ADrawChangesOnePixelOnly : Prop :=
  ∀ (s : State) (x y x' y' : Int) (c : Nat), Inv s → Running s → s.inBand x y = true →
    ∃ t u r, exec (.pwdraw x y c) s = .next t ∧ exec (.pwread x' y') t = .next u ∧ exec (.pwread x' y') s = .next r ∧
      u.resp = if x' = x ∧ y' = y then ⟨0, BitVec.ofNat 32 (c % 2 ^ s.cfg.ef), true⟩ else r.resp

/-- 43_page_window R186, R190: `PWADV` at the last band answers `FLAG = 0` and changes nothing; elsewhere it moves the
box down by `PAGE_HEIGHT` rows and answers `FLAG = 1`; `FS`, `P0X`, `P1X` and `REM` stay. -/
def Obligations.PwadvMovesTheBandOrStays : Prop :=
  ∀ s : State, Running s → BandOK s →
    ((s.cfg.height : Int) - 1 ≤ s.p1y.toInt →
        ∃ t, exec .pwadv s = .next t ∧ SameButResponse s t ∧ Answered t 0 false) ∧
      (s.p1y.toInt < (s.cfg.height : Int) - 1 →
        ∃ t, exec .pwadv s = .next t ∧ Answered t 0 true ∧
          t = { s with p0y := t.p0y, p1y := t.p1y, resp := t.resp } ∧
          t.p0y.toInt = s.p0y.toInt + s.cfg.pageHeight ∧ t.p1y.toInt = s.p1y.toInt + s.cfg.pageHeight)

/-- 43_page_window R195 (the spec derives it): after `PWBEGIN`, the first `PAGE_COUNT - 1` advances answer true, the next
answers false, and the bottom of the box is then the frame's last row. -/
def Obligations.AdvanceTerminates : Prop :=
  ∀ s b : State, Running s → exec .pwbegin s = .next b →
    (∀ k, k + 1 < s.cfg.pageCount → ∃ t, repeated .pwadv (k + 1) b = .next t ∧ Answered t 0 true) ∧
      ∃ t u, repeated .pwadv (s.cfg.pageCount - 1) b = .next t ∧ exec .pwadv t = .next u ∧ Answered u 0 false ∧
        u.p1y.toInt = (s.cfg.height : Int) - 1

/-- 43_page_window R194 (the spec derives it): after `PWBEGIN` and `k` advances, a point of the frame is drawn exactly
when its row lies in band `k`. -/
def Obligations.DrawsWaitForTheirBand : Prop :=
  ∀ (s b : State) (k x y c : Nat), Running s → exec .pwbegin s = .next b → k < s.cfg.pageCount →
    x < s.cfg.width → y < s.cfg.height →
    ∃ t u, repeated .pwadv k b = .next t ∧ exec (.pwdraw x y c) t = .next u ∧ u.resp.status = 0 ∧
      (u.resp.flag = true ↔ y / s.cfg.pageHeight = k)

/-! ### The transfer sequencer and the bridge (44_transfer) -/

/-- 44_transfer R220 with R211, R212 and 60_exceptions R258: an update that finds the device not ready, or the block
idle with no new frame permitted, changes nothing and answers `FLAG = 0`. -/
def Obligations.UpdateWithoutProgressChangesNothing : Prop :=
  ∀ s : State, Running s → (s.ready = false ∨ (Idle s ∧ s.permit = false)) →
    exec .tdupdate s = .next { s with resp := ⟨0, 0, false⟩ }

/-- 44_transfer R214, R217, R220: a ready update with `REM > 0` sends the next chunk: offset `PPP - REM`, size
`min(MAX_CHUNK, REM)`, `ceil(size * EB / 8)` bytes; it decreases `REM` by the size and answers the size with `FLAG = 1`.
`FS` and the band stay. -/
def Obligations.UpdateSendsTheNextChunk : Prop :=
  ∀ s : State, Inv s → Running s → s.ready = true → s.rem ≠ 0 →
    let off := s.cfg.ppp - s.rem.toNat
    let size := min s.cfg.maxChunk s.rem.toNat
    ∃ t bytes, exec .tdupdate s = .next t ∧ Answered t (BitVec.ofNat 32 size) true ∧
      1 ≤ size ∧ off + size ≤ s.cfg.ppp ∧ bytes.length = ceilDiv (size * s.cfg.eb) 8 ∧
      t = { s with bs := t.bs, draws := t.draws, rem := t.rem, trace := s.trace ++ [.devWrite bytes off size],
                   resp := t.resp } ∧
      t.rem.toNat = s.rem.toNat - size

/-- 44_transfer R213, R214, R220 and 43_page_window R186, R193: a ready update with `REM = 0` before the last band moves
the band down and sends the first chunk of the new page, in one command. `FS` keeps the old band's pixels. -/
def Obligations.UpdateBeginsTheNextPage : Prop :=
  ∀ s : State, Inv s → Running s → s.ready = true → PageExhausted s →
    let size := min s.cfg.maxChunk s.cfg.ppp
    ∃ t bytes, exec .tdupdate s = .next t ∧ Answered t (BitVec.ofNat 32 size) true ∧
      bytes.length = ceilDiv (size * s.cfg.eb) 8 ∧
      t = { s with bs := t.bs, draws := t.draws, rem := t.rem, p0y := t.p0y, p1y := t.p1y,
                   trace := s.trace ++ [.devWrite bytes 0 size], resp := t.resp } ∧
      t.rem.toNat = s.cfg.ppp - size ∧
      t.p0y.toInt = s.p0y.toInt + s.cfg.pageHeight ∧ t.p1y.toInt = s.p1y.toInt + s.cfg.pageHeight

/-- 44_transfer R220, R221 (decision D19) and 43_page_window R185: a ready, permitted update of the idle block sets the
topmost band, clears `FS`, emits `DevBeginFrame` and sends the first chunk of page 0, in one command. -/
def Obligations.UpdateStartsAFrame : Prop :=
  ∀ s : State, Inv s → Running s → s.ready = true → s.permit = true → Idle s →
    let size := min s.cfg.maxChunk s.cfg.ppp
    ∃ t bytes, exec .tdupdate s = .next t ∧ Answered t (BitVec.ofNat 32 size) true ∧
      bytes.length = ceilDiv (size * s.cfg.eb) 8 ∧
      t = { s with fs := t.fs, bs := t.bs, draws := t.draws, rem := t.rem, p0x := t.p0x, p0y := t.p0y, p1x := t.p1x,
                   p1y := t.p1y, trace := s.trace ++ [.devBeginFrame, .devWrite bytes 0 size], resp := t.resp } ∧
      t.rem.toNat = s.cfg.ppp - size ∧ (∀ a, Memory.get t.fs a = if a < s.cfg.nf then 0 else Memory.get s.fs a) ∧
      t.p0x.toInt = 0 ∧ t.p0y.toInt = 0 ∧ t.p1x.toInt = (s.cfg.width : Int) - 1 ∧
      t.p1y.toInt = (s.cfg.pageHeight : Int) - 1

/-- 44_transfer R213, R215, R218, R226: an identity chunk that starts on a byte boundary carries exactly the bytes of
`FS` that cover its elements, all inside `FS`; the first chunk of a page always does (offset 0), and the first chunk of
a frame carries zeros, since the frame start clears `FS`. A chunk that starts inside a byte carries a draw, the free
value, for every value of it. An update writes no store but for the clearing. -/
def Obligations.IdentityChunksCarryTheStoreBytes : Prop :=
  ∀ s : State, Inv s → Running s → s.ready = true → Sends s → s.cfg.bridge = .identity →
    let left := if s.rem = 0 then s.cfg.ppp else s.rem.toNat
    let off := s.cfg.ppp - left
    let size := min s.cfg.maxChunk left
    let len := ceilDiv (size * s.cfg.ef) 8
    ∃ t bytes, exec .tdupdate s = .next t ∧ t.bs = s.bs ∧
      (¬ Idle s → t.fs = s.fs ∧ t.trace = s.trace ++ [.devWrite bytes off size]) ∧
      (Idle s → (∀ a, Memory.get t.fs a = if a < s.cfg.nf then 0 else Memory.get s.fs a) ∧
        t.trace = s.trace ++ [.devBeginFrame, .devWrite bytes off size]) ∧
      (off * s.cfg.ef % 8 = 0 →
        off * s.cfg.ef / 8 + len ≤ s.cfg.nf ∧ t.draws = s.draws ∧
          bytes = (List.range len).map fun i => if Idle s then 0 else Memory.get s.fs (off * s.cfg.ef / 8 + i)) ∧
      (off * s.cfg.ef % 8 ≠ 0 →
        t.draws = s.draws + 1 ∧ bytes = (List.range len).map fun i => Config.chunkByte s.draws i)

/-- 44_transfer R213, R216, R217, R226, R227 and 70_reset_and_hazards R288: a converting chunk, the first one of a page
or of a frame included, leaves `CONVERT` of its frontend elements (all 0 at a frame start, which clears `FS`) in the
elements `0` to `size - 1` of `BS`, and its bytes are the first `ceil(size * EB / 8)` bytes of `BS`, the bits of the
last byte beyond the chunk included. The stream bits of `BS` from element `size` on keep their values. -/
def Obligations.ConvertingChunksCarryTheConversions : Prop :=
  ∀ s : State, Inv s → Running s → s.ready = true → Sends s → s.cfg.bridge = .converting →
    let left := if s.rem = 0 then s.cfg.ppp else s.rem.toNat
    let off := s.cfg.ppp - left
    let size := min s.cfg.maxChunk left
    ∃ t bytes, exec .tdupdate s = .next t ∧ t.draws = s.draws ∧
      (¬ Idle s → t.fs = s.fs ∧ t.trace = s.trace ++ [.devWrite bytes off size]) ∧
      (Idle s → (∀ a, Memory.get t.fs a = if a < s.cfg.nf then 0 else Memory.get s.fs a) ∧
        t.trace = s.trace ++ [.devBeginFrame, .devWrite bytes off size]) ∧
      bytes.length = ceilDiv (size * s.cfg.eb) 8 ∧ bytes = Memory.bytes t.bs 0 bytes.length ∧
      (∀ j, j < size →
        Memory.elem t.bs s.cfg.eb j =
            s.cfg.convertOf (if Idle s then 0 else Memory.elem s.fs s.cfg.ef (off + j)) ∧
          Memory.elem (Memory.ofBytes bytes.length bytes) s.cfg.eb j = Memory.elem t.bs s.cfg.eb j) ∧
      ∀ l, size * s.cfg.eb ≤ l → Memory.bit t.bs l = Memory.bit s.bs l

/-- 44_transfer R223 (the spec derives it): while the device is not ready, `n` updates issued one after another leave
the whole block as it was and emit no event (the host's sequence and the input lines are the model's: log entries 4,
6). -/
def Obligations.BackpressureHoldsTheBlock : Prop :=
  ∀ (n : Nat) (s : State), Running s →
    (∀ k, k < n → ∃ c p, s.host[s.pc + k]? = some (.issue c false p) ∧ decode c = .ok .tdupdate) →
    ∃ t, steps n s = .next t ∧
      t = { s with pc := s.pc + n, ready := t.ready, permit := t.permit, resp := t.resp }

/-- 44_transfer R225 (the spec derives it), the chunk coverage law: from `Idle`, ready and permitted updates make the
block idle again after exactly `PAGE_COUNT * ceil(PPP / MAX_CHUNK)` commands and not before; they emit one
`DevBeginFrame` and then writes whose chunks are those of the frame, page after page, and sum to the frame's pixels. -/
def Obligations.OneFrameCoversEveryPixel : Prop :=
  ∀ s : State, Inv s → Running s → s.ready = true → s.permit = true → Idle s →
    (∃ t ws, repeated .tdupdate (s.cfg.pageCount * ceilDiv s.cfg.ppp s.cfg.maxChunk) s = .next t ∧ Idle t ∧
        t.trace = s.trace ++ .devBeginFrame :: ws ∧ ws.map Event.record = s.cfg.frameRecords.map some ∧
        (s.cfg.frameRecords.map Prod.snd).sum = s.cfg.width * s.cfg.height ∧
        ∀ r ∈ s.cfg.frameRecords, 1 ≤ r.2 ∧ r.2 ≤ s.cfg.maxChunk) ∧
      ∀ m u, 0 < m → m < s.cfg.pageCount * ceilDiv s.cfg.ppp s.cfg.maxChunk → repeated .tdupdate m s = .next u →
        ¬ Idle u

/-- 10_state R41 with 44_transfer R219, R222: the trace only grows, so no later command changes an event; only
`TDUPDATE` appends, and one update appends at most one `DevBeginFrame` and one `DevWrite`, the write with at least one
byte. -/
def Obligations.TheTraceOnlyGrowsByUpdates : Prop :=
  ∀ (s t : State) (i : Instr), exec i s = .next t →
    t.trace = s.trace ∨
      (i = .tdupdate ∧ ∃ bytes off size, 1 ≤ bytes.length ∧ 1 ≤ size ∧ size ≤ s.cfg.maxChunk ∧
        (t.trace = s.trace ++ [.devWrite bytes off size] ∨
          t.trace = s.trace ++ [.devBeginFrame, .devWrite bytes off size]))

/-- 70_reset_and_hazards R293 (the spec derives it): a ready update emits a chunk, or finds the block idle with no new
frame permitted. -/
def Obligations.ReadyUpdatesMakeProgress : Prop :=
  ∀ s : State, Inv s → Running s → s.ready = true →
    ∃ t, exec .tdupdate s = .next t ∧
      ((t.resp.flag = true ∧ s.trace.length < t.trace.length) ∨
        (t.resp.flag = false ∧ Idle s ∧ s.permit = false ∧ SameButResponse s t))

/-- 44_transfer R224 with 10_state R45 (the spec derives it): a ready, permitted update leads from each phase to the
phases of the source's diagram. -/
def Obligations.UpdatesFollowThePhases : Prop :=
  ∀ s : State, Inv s → Running s → s.ready = true → s.permit = true →
    ∃ t, exec .tdupdate s = .next t ∧
      (Idle s ∨ PageExhausted s →
        if s.cfg.maxChunk < s.cfg.ppp then PageActive (s.cfg.ppp - s.cfg.maxChunk) t
        else Idle t ∨ PageExhausted t) ∧
      ∀ n, PageActive n s →
        if s.cfg.maxChunk < n then PageActive (n - s.cfg.maxChunk) t else Idle t ∨ PageExhausted t

/-! ### Reset, invariants and whole-machine rules -/

/-- 10_state R48, R49 (decision D18): after reset the band is the last band, `REM` and `FAULT` are 0 and `TRACE` is
empty, so the block is `Idle`; for every configuration and every initial contents of the stores. The reset that a step
executes, from whatever state the block is in, leaves the same values and the configuration (70_reset_and_hazards R280);
that it is an event of the host's sequence is the model's choice (log entries 4, 11). -/
def Obligations.ResetLeavesTheBlockIdle : Prop :=
  (∀ (c : Config) (f b : List Byte), c.wf = true → LeftByReset c (State.resetWith c f b)) ∧
    ∀ (s : State) (f b : List Byte), s.cfg.wf = true → s.nextEvent = some (.reset f b) →
      ∃ t, step s = .next t ∧ LeftByReset s.cfg t

/-- The invariant holds after reset, for every configuration and every initial contents, and at `State.reset`
(10_state R37, R38, R47 to R49). The configuration and contents of `State.reset` are the model's choice (log entries
1, 3). -/
def Obligations.ResetStatesMeetTheInvariant : Prop :=
  (∀ (c : Config) (f b : List Byte), c.wf = true → Inv (State.resetWith c f b)) ∧ Inv State.reset

/-- 10_state R37, R38 and 20_memory R74: every step keeps the invariant, whatever the host does (its events, and the
canonical form of a store, are the model's own: log entries 3, 4, 11). -/
def Obligations.EveryStepKeepsTheInvariant : Prop :=
  ∀ s t : State, Inv s → step s = .next t → Inv t

/-- 00_scope R18 and 60_exceptions R254: from a state that meets the invariant no step stops: whatever the host issues,
the block has a next state, a block fault included (log entries 4, 8, 9: these are the model's own conventions). -/
def Obligations.GoodStatesNeverStop : Prop :=
  ∀ s : State, Inv s → ∃ t, step s = .next t

/-- 00_scope R8, 10_state R34, R35, R36, R38, R39, R41 with 60_exceptions R254: which commands write each element of the
state: the stores, the band, `REM`, `FAULT` (only where it is 0, by taking a fault, which writes nothing else) and
`TRACE` (which only grows). The clauses on `host`, `pc`, `ready`, `permit` and `draws` are about the model's own fields
(log entries 4, 6, 7). -/
def Obligations.EachStateElementHasItsWriters : Prop :=
  ∀ (s t : State) (i : Instr), exec i s = .next t →
    (t.cfg = s.cfg ∧ t.host = s.host ∧ t.pc = s.pc ∧ t.ready = s.ready ∧ t.permit = s.permit) ∧
      (t.rem ≠ s.rem → i = .tdupdate) ∧
      ((t.p0x, t.p0y, t.p1x, t.p1y) ≠ (s.p0x, s.p0y, s.p1x, s.p1y) → i = .pwbegin ∨ i = .pwadv ∨ i = .tdupdate) ∧
      (t.fs ≠ s.fs →
        (∃ sel, i.writtenSelect = some sel ∧ s.cfg.storeOf sel = .fs) ∨ (∃ x y c, i = .pwdraw x y c) ∨ i = .pwbegin ∨
          i = .tdupdate) ∧
      (t.bs ≠ s.bs →
        s.cfg.bridge = .converting ∧
          ((∃ sel, i.writtenSelect = some sel ∧ s.cfg.storeOf sel = .bs) ∨ i = .tdupdate)) ∧
      (t.fault ≠ s.fault → s.fault = 0 ∧ FaultedWith s t t.fault) ∧
      (t.trace ≠ s.trace → i = .tdupdate ∧ ∃ events, t.trace = s.trace ++ events) ∧
      (t.draws ≠ s.draws → s.cfg.bridge = .identity ∧ i = .tdupdate)

/-- 10_state R38: `REM` stays in `0..PPP` under every command; only an update changes it: beginning a page sets it to
`PPP`, and each chunk, the page's first one included, decreases it by the chunk's size. -/
def Obligations.RemCountsThePixelsLeft : Prop :=
  ∀ (s t : State) (i : Instr), Inv s → exec i s = .next t →
    t.rem.toNat ≤ s.cfg.ppp ∧
      (t.rem ≠ s.rem →
        i = .tdupdate ∧
          t.rem.toNat =
            if s.rem = 0 then s.cfg.ppp - min s.cfg.maxChunk s.cfg.ppp
            else s.rem.toNat - min s.cfg.maxChunk s.rem.toNat)

/-- 20_memory R60, R71, 44_transfer R216: the backend contents never reach the frontend store, the band, the counter or
the fault register: two runs of one command from states that differ only in `BS` agree on them. -/
def Obligations.BackendNeverReachesTheFrontend : Prop :=
  ∀ (s t u : State) (m : Memory) (i : Instr), exec i s = .next t → exec i { s with bs := m } = .next u →
    t.fs = u.fs ∧ t.rem = u.rem ∧ t.fault = u.fault ∧
      (t.p0x, t.p0y, t.p1x, t.p1y) = (u.p0x, u.p0y, u.p1x, u.p1y)
end

