-- ==== Sys2Proof/Laws/Decode.lean ====
section
/-!
SUPPORT. The fields of a command word, the ports, and the inversion of `decode`: what a word that decodes looks like.
-/
namespace Sys2Proof

theorem commandWord_toNat (op : Opc) {al sel : Nat} (ha : al < 2) (hs : sel < 2) :
    (commandWord op al sel).toNat = op.code + 256 * al + 512 * sel := by
  rw [commandWord, BitVec.toNat_ofNat, Nat.mod_eq_of_lt]
  cases op <;> simp [Opc.code] <;> omega

/-- An operation code is found from its own value alone. -/
theorem Opc.ofCode_some {n : Nat} {op : Opc} (h : Opc.ofCode n = some op) : n = op.code := by
  by_cases hn : n < 65
  · have key : ∀ n : Fin 65, ((Opc.ofCode n.1).map Opc.code).getD n.1 = n.1 := by decide
    have := key ⟨n, hn⟩
    rw [h] at this; exact this.symm
  · have : Opc.ofCode n = none := by
      unfold Opc.ofCode; repeat rw [if_neg (by omega)]
    rw [this] at h; cases h

theorem toNat_unsignedPort {n : Nat} (h : unsignedOperand n = true) : (unsignedPort n).toNat = n := by
  simp [unsignedOperand] at h; simp [unsignedPort]; omega

theorem toInt_signedPort {n : Int} (h : signedOperand n = true) : (signedPort n).toInt = n := by
  simp [signedOperand] at h
  rw [signedPort, BitVec.toInt_ofInt, Int.bmod_eq_of_le] <;> omega

theorem unsignedOperand_toNat (x : Word) : unsignedOperand x.toNat = true := by
  have := x.isLt; simp [unsignedOperand]; omega

theorem signedOperand_toInt (x : Word) : signedOperand x.toInt = true := by
  have := x.toInt_lt; have := x.le_toInt; simp [signedOperand]; omega

/-- A command that decodes: its reserved bits are 0, its code is an operation code, its alignment and select bits stand
only where that code has them, and the instruction is built from them and the ports (30_encoding R91, R93, R97). -/
theorem decode_ok {c : Command} {i : Instr} (h : decode c = .ok i) :
    ∃ op : Opc, c.cmd.toNat < 1024 ∧ c.cmd.toNat % 256 = op.code ∧ (c.alField = true → op.hasAlign = true) ∧
      (c.selField = true → op.hasSelect = true) ∧ i = op.build c.alField (Sel.ofBit c.selField) c := by
  unfold decode at h
  split at h
  · cases h
  · rename_i hr
    split at h
    · cases h
    · rename_i op ho
      split at h
      · cases h
      · split at h
        · cases h
        · rename_i h1 h2
          refine ⟨op, ?_, Opc.ofCode_some ho, ?_, ?_, by cases h; rfl⟩
          · simp [Command.rsvField] at hr; omega
          · simpa using h1
          · simpa using h2

end Sys2Proof
end

