-- ==== Sys2Proof/Laws/Fields.lean ====
section
/-!
SUPPORT. The field functions bit by bit (41_bitfield R120 to R124; 42_packed_container R143).
-/
namespace Sys2Proof.Machine

theorem fieldOK_iff (o w : Nat) : fieldOK o w = true ↔ 1 ≤ w ∧ w ≤ 8 ∧ o + w ≤ 8 := by
  simp [fieldOK, and_assoc]

theorem chanOK_iff (e off w : Nat) :
    chanOK e off w = true ↔ 1 ≤ w ∧ w ≤ 8 ∧ off + w ≤ e ∧ (8 ≤ e → off % 8 + w ≤ 8) := by
  simp only [chanOK, Bool.and_eq_true, decide_eq_true_eq]
  tauto

theorem testBit_mask (w j : Nat) : (mask w).testBit j = decide (j < w) := Nat.testBit_two_pow_sub_one w j

theorem and_mask (v w : Nat) : v &&& mask w = v % 2 ^ w := Nat.and_two_pow_sub_one_eq_mod v w

/-- A right-aligned read, bit by bit. -/
theorem testBit_readR (b o w j : Nat) : (readR b o w).testBit j = (decide (j < w) && b.testBit (o + j)) := by
  simp [readR, Nat.testBit_and, Nat.testBit_shiftRight, testBit_mask, Bool.and_comm]

theorem readR_lt (b o w : Nat) : readR b o w < 2 ^ w := by
  rw [readR, and_mask]; exact Nat.mod_lt _ (Nat.two_pow_pos w)

/-- A left-aligned read, bit by bit. -/
theorem testBit_readL (b o w j : Nat) (hw : w ≤ 8) :
    (readL b o w).testBit j = (decide (8 - w ≤ j) && (decide (j < 8) && b.testBit (o + (j - (8 - w))))) := by
  rw [readL, Nat.testBit_shiftLeft, testBit_readR]
  by_cases h : 8 - w ≤ j
  · simp only [ge_iff_le, h, decide_true, Bool.true_and]
    congr 1
    exact decide_eq_decide.2 (by omega)
  · simp [h]

theorem testBit_notAt (n x j : Nat) : (notAt n x).testBit j = (decide (j < n) ^^ x.testBit j) := by
  simp [notAt, Nat.testBit_xor, testBit_mask]

theorem testBit_fieldMask (o w j : Nat) : (mask w <<< o).testBit j = (decide (o ≤ j) && decide (j < o + w)) := by
  rw [Nat.testBit_shiftLeft, testBit_mask]
  by_cases h : o ≤ j
  · simp only [ge_iff_le, h, decide_true, Bool.true_and]
    exact decide_eq_decide.2 (by omega)
  · simp [h]

/-- A right-aligned write, bit by bit: the field's bits are the value's, every other bit of the word stays. -/
theorem testBit_writeR (n b o w v j : Nat) (hb : b < 2 ^ n) :
    (writeR n b o w v).testBit j = if o ≤ j ∧ j < o + w then v.testBit (j - o) else b.testBit j := by
  have hj : ¬ j < n → b.testBit j = false := fun h =>
    Nat.testBit_lt_two_pow (Nat.lt_of_lt_of_le hb (Nat.pow_le_pow_right (by decide) (by omega)))
  rw [writeR, Nat.testBit_or, Nat.testBit_and, testBit_notAt, testBit_fieldMask, Nat.testBit_shiftLeft,
    Nat.testBit_and, testBit_mask]
  by_cases h1 : o ≤ j
  · by_cases h2 : j < o + w
    · have h3 : j - o < w := by omega
      by_cases hn : j < n
      · simp [h1, h2, h3, hn]
      · simp [h1, h2, h3, hj hn]
    · have h3 : ¬ j - o < w := by omega
      by_cases hn : j < n
      · simp [h2, h3, hn]
      · simp [h2, h3, hj hn]
  · by_cases hn : j < n
    · simp [h1, hn]
    · simp [h1, hj hn]

theorem writeR_lt (n b o w v : Nat) (hb : b < 2 ^ n) (hw : o + w ≤ n) : writeR n b o w v < 2 ^ n := by
  refine Nat.lt_pow_two_of_testBit _ fun j hj => ?_
  rw [testBit_writeR _ _ _ _ _ _ hb, if_neg (by omega)]
  exact Nat.testBit_lt_two_pow (Nat.lt_of_lt_of_le hb (Nat.pow_le_pow_right (by decide) hj))

/-- A left-aligned write, bit by bit. -/
theorem testBit_writeL (n b o w v j : Nat) (hb : b < 2 ^ n) :
    (writeL n b o w v).testBit j = if o ≤ j ∧ j < o + w then v.testBit (8 - w + (j - o)) else b.testBit j := by
  rw [writeL, testBit_writeR _ _ _ _ _ _ hb]
  split
  · rw [Nat.testBit_shiftRight]
  · rfl

end Sys2Proof.Machine
end

