-- ==== Sys2Proof/Laws/Geometry.lean ====
section
/-!
SUPPORT. What a well-formed configuration gives (00_scope R10, R11): bounds on the derived constants, and that an
element inside the count lies inside the bytes of its store.
-/
namespace Sys2Proof

/-- The checks of 00_scope R11 as propositions. -/
theorem Config.wf_iff (c : Config) :
    c.wf = true ↔
      (1 ≤ c.width ∧ 1 ≤ c.height) ∧ 1 ≤ c.pageCount ∧ c.height % c.pageCount = 0 ∧ 1 ≤ c.maxChunk ∧
        (c.ef ∈ Config.legalWidths ∧ c.eb ∈ Config.legalWidths) ∧ (c.bridge = .identity → c.ef = c.eb) ∧
        (c.mapping = .banked → c.height / c.pageCount % 8 = 0) ∧
        (c.width * c.height ≤ 2147483647 ∧ c.maxChunk ≤ 2147483647) ∧ c.cfg9 = true := by
  simp only [Config.wf, Config.cfg1, Config.cfg2, Config.cfg3, Config.cfg4, Config.cfg5, Config.cfg6, Config.cfg7,
    Config.cfg8, Bool.and_eq_true, decide_eq_true_eq, List.contains_iff_mem, and_assoc]

theorem Config.width_pos {c : Config} (h : c.wf = true) : 1 ≤ c.width := (c.wf_iff.1 h).1.1

theorem Config.height_pos {c : Config} (h : c.wf = true) : 1 ≤ c.height := (c.wf_iff.1 h).1.2

theorem Config.pageCount_pos {c : Config} (h : c.wf = true) : 1 ≤ c.pageCount := (c.wf_iff.1 h).2.1

theorem Config.maxChunk_pos {c : Config} (h : c.wf = true) : 1 ≤ c.maxChunk := (c.wf_iff.1 h).2.2.2.1

theorem Config.maxChunk_le {c : Config} (h : c.wf = true) : c.maxChunk ≤ 2147483647 := (c.wf_iff.1 h).2.2.2.2.2.2.2.1.2

theorem Config.frame_le {c : Config} (h : c.wf = true) : c.width * c.height ≤ 2147483647 :=
  (c.wf_iff.1 h).2.2.2.2.2.2.2.1.1

theorem Config.ef_eq_eb {c : Config} (h : c.wf = true) (hb : c.bridge = .identity) : c.ef = c.eb :=
  (c.wf_iff.1 h).2.2.2.2.2.1 hb

theorem Config.pageHeight_mod {c : Config} (h : c.wf = true) (hb : c.mapping = .banked) : c.pageHeight % 8 = 0 :=
  (c.wf_iff.1 h).2.2.2.2.2.2.1 hb

theorem legalWidths_bounds {n : Nat} (h : n ∈ Config.legalWidths) : 1 ≤ n ∧ n ≤ 32 := by
  revert n; decide

theorem Config.ef_bounds {c : Config} (h : c.wf = true) : 1 ≤ c.ef ∧ c.ef ≤ 32 :=
  legalWidths_bounds (c.wf_iff.1 h).2.2.2.2.1.1

theorem Config.eb_bounds {c : Config} (h : c.wf = true) : 1 ≤ c.eb ∧ c.eb ≤ 32 :=
  legalWidths_bounds (c.wf_iff.1 h).2.2.2.2.1.2

/-- The bands tile the frame exactly (00_scope R10). -/
theorem Config.pageHeight_mul {c : Config} (h : c.wf = true) : c.pageCount * c.pageHeight = c.height :=
  Nat.mul_div_cancel' (Nat.dvd_of_mod_eq_zero (c.wf_iff.1 h).2.2.1)

theorem Config.pageHeight_pos {c : Config} (h : c.wf = true) : 1 ≤ c.pageHeight := by
  have h1 := Config.pageHeight_mul h
  have h2 := Config.height_pos h
  rcases Nat.eq_zero_or_pos c.pageHeight with e | e
  · rw [e] at h1; omega
  · exact e

theorem Config.pageHeight_le {c : Config} (_h : c.wf = true) : c.pageHeight ≤ c.height := Nat.div_le_self _ _

theorem Config.height_le {c : Config} (h : c.wf = true) : c.height ≤ 2147483647 :=
  Nat.le_trans (Nat.le_mul_of_pos_left _ (Config.width_pos h)) (Config.frame_le h)

theorem Config.width_le {c : Config} (h : c.wf = true) : c.width ≤ 2147483647 :=
  Nat.le_trans (Nat.le_mul_of_pos_right _ (Config.height_pos h)) (Config.frame_le h)

theorem Config.ppp_pos {c : Config} (h : c.wf = true) : 1 ≤ c.ppp :=
  Nat.mul_pos (Config.width_pos h) (Config.pageHeight_pos h)

/-- The pages hold the pixels of the frame. -/
theorem Config.ppp_mul {c : Config} (h : c.wf = true) : c.pageCount * c.ppp = c.width * c.height := by
  rw [Config.ppp, Nat.mul_left_comm, Config.pageHeight_mul h]

theorem Config.ppp_le {c : Config} (h : c.wf = true) : c.ppp ≤ 2147483647 :=
  Nat.le_trans (Nat.mul_le_mul_left _ (Config.pageHeight_le h)) (Config.frame_le h)

theorem Config.count_le {c : Config} (h : c.wf = true) (sel : Sel) : c.count sel ≤ 2147483647 := by
  unfold Config.count
  cases c.storeOf sel
  · exact Config.ppp_le h
  · exact Config.maxChunk_le h

theorem Config.elemBits_bounds {c : Config} (h : c.wf = true) (sel : Sel) : 1 ≤ c.elemBits sel ∧ c.elemBits sel ≤ 32 := by
  unfold Config.elemBits
  cases c.storeOf sel
  · exact Config.ef_bounds h
  · exact Config.eb_bounds h

/-- `ceil(n / 8)` bytes hold `n` bits, and no fewer do. -/
theorem ceilDiv_eight (n : Nat) : n ≤ 8 * ceilDiv n 8 ∧ 8 * ceilDiv n 8 < n + 8 := by
  unfold ceilDiv; omega

@[simp] theorem Config.storeOf_front (c : Config) : c.storeOf .front = .fs := rfl

theorem Config.storeOf_eq_bs {c : Config} {sel : Sel} (h : c.storeOf sel = .bs) : c.bridge = .converting := by
  unfold Config.storeOf at h
  split at h <;> simp_all

theorem Config.nb_converting {c : Config} (h : c.bridge = .converting) : c.nb = ceilDiv (c.maxChunk * c.eb) 8 := by
  simp [Config.nb, h]

/-- The elements of a store lie inside its bytes (20_memory R67). -/
theorem Config.count_mul_le (c : Config) (sel : Sel) : c.count sel * c.elemBits sel ≤ 8 * c.nbytes sel := by
  unfold Config.count Config.elemBits Config.nbytes
  cases h : c.storeOf sel
  · exact (ceilDiv_eight _).1
  · simp only [Config.countOf, Config.widthOf, Config.bytesOf, Config.nb_converting (Config.storeOf_eq_bs h)]
    exact (ceilDiv_eight _).1

theorem Config.elem_inside (c : Config) (sel : Sel) (i : Nat) (h : i < c.count sel) :
    (i + 1) * c.elemBits sel ≤ 8 * c.nbytes sel :=
  Nat.le_trans (Nat.mul_le_mul_right _ h) (c.count_mul_le sel)

/-- The result of `CONVERT` is a backend value (00_scope R9). -/
theorem Config.convertOf_lt {c : Config} (h : c.wf = true) (hb : c.bridge = .converting) (v : Nat) :
    c.convertOf v < 2 ^ c.eb := by
  have h9 := (c.wf_iff.1 h).2.2.2.2.2.2.2.2
  simp only [Config.cfg9, hb, Bool.and_eq_true, List.all_eq_true, decide_eq_true_eq] at h9
  unfold Config.convertOf
  split
  · rename_i p e
    exact (h9.2 p (List.mem_of_find?_eq_some e)).2.2
  · exact Nat.two_pow_pos _

/-- Every total function on the source values is some table (log entry 2). -/
theorem exists_convert_table (ef eb : Nat) (f : Nat → Nat) (hf : ∀ v < 2 ^ ef, f v < 2 ^ eb) (c : Config) :
    ∃ t : List (Nat × Nat),
      ({ c with ef := ef, eb := eb, convert := t } : Config).cfg9 = true ∧
        ∀ v < 2 ^ ef, ({ c with ef := ef, eb := eb, convert := t } : Config).convertOf v = f v := by
  let pick : Nat → Option (Nat × Nat) := fun v => if f v = 0 then none else some (v, f v)
  have hpick : ∀ v p, pick v = some p → p = (v, f v) ∧ f v ≠ 0 := fun v p hp => by
    simp only [pick] at hp; split at hp <;> simp_all
  refine ⟨(List.range (2 ^ ef)).filterMap pick, ?_, fun v hv => ?_⟩
  · unfold Config.cfg9
    cases c.bridge
    · rfl
    simp only [Bool.and_eq_true, List.all_eq_true, decide_eq_true_eq]
    constructor
    · refine List.Pairwise.filterMap pick (fun a b hab p hp q hq => ?_) (List.pairwise_lt_range)
      rw [(hpick a p hp).1, (hpick b q hq).1]; exact hab
    · intro p hp
      obtain ⟨v, hv, e⟩ := List.mem_filterMap.1 hp
      have := List.mem_range.1 hv
      rw [(hpick v p e).1]
      exact ⟨this, Nat.pos_of_ne_zero (hpick v p e).2, hf v this⟩
  · simp only [Config.convertOf]
    split
    · rename_i p e
      obtain ⟨u, -, eu⟩ := List.mem_filterMap.1 (List.mem_of_find?_eq_some e)
      have h1 := List.find?_some e
      simp only [beq_iff_eq] at h1
      have := (hpick u p eu).1
      subst this
      simp only at h1
      rw [h1]
    · rename_i e
      by_contra hne
      have hm : (v, f v) ∈ (List.range (2 ^ ef)).filterMap pick :=
        List.mem_filterMap.2 ⟨v, List.mem_range.2 hv, by simp only [pick]; rw [if_neg (fun h => hne h.symm)]⟩
      have := List.find?_eq_none.1 e _ hm
      simp at this

end Sys2Proof
end

