-- ==== Sys2Proof/Laws/Memory.lean ====
section
/-!
SUPPORT. The laws of a byte store: a read after a write, what clearing does, and that every operation keeps the
canonical form and the store's bounds.
-/
namespace Sys2Proof.Machine

theorem Memory.wf_iff (m : Memory) :
    Memory.wf m = true ↔ (m.Pairwise fun c d => c.1 < d.1) ∧ ∀ c ∈ m, c.2 ≠ Memory.unlisted := by
  simp [Memory.wf]

theorem Memory.wf_nil : Memory.wf [] = true := by decide

theorem Memory.wf_cons (c : Host.Cell) (m : Memory) :
    Memory.wf (c :: m) = true ↔ (∀ d ∈ m, c.1 < d.1) ∧ c.2 ≠ Memory.unlisted ∧ Memory.wf m = true := by
  simp only [Memory.wf_iff, List.pairwise_cons, List.forall_mem_cons]
  tauto

theorem Memory.within_iff (n : Nat) (m : Memory) : Memory.within n m = true ↔ ∀ c ∈ m, c.1 < n := by
  simp [Memory.within]

@[simp] theorem Memory.get_nil (a : Nat) : Memory.get [] a = Memory.unlisted := rfl

theorem Memory.get_cons (c : Host.Cell) (m : Memory) (a : Nat) :
    Memory.get (c :: m) a = if a = c.1 then c.2 else Memory.get m a := rfl

/-- An address that no pair lists reads as unlisted. -/
theorem Memory.get_of_not_listed (m : Memory) (a : Nat) (h : ∀ c ∈ m, c.1 ≠ a) :
    Memory.get m a = Memory.unlisted := by
  induction m with
  | nil => rfl
  | cons c m ih =>
    rw [Memory.get_cons, if_neg (fun e => h c (by simp) e.symm)]
    exact ih fun d hd => h d (by simp [hd])

theorem Memory.get_of_lt_all (m : Memory) (a : Nat) (h : ∀ c ∈ m, a < c.1) : Memory.get m a = Memory.unlisted :=
  Memory.get_of_not_listed m a fun c hc => Nat.ne_of_gt (h c hc)

/-- Beyond its bounds a store reads as unlisted. -/
theorem Memory.get_of_within (n : Nat) (m : Memory) (a : Nat) (h : Memory.within n m = true) (ha : n ≤ a) :
    Memory.get m a = Memory.unlisted :=
  Memory.get_of_not_listed m a fun c hc => by have := (Memory.within_iff n m).1 h c hc; omega

/-- What a listed pair says after a write: it is the written one, or it stood there before. -/
theorem Memory.mem_set (m : Memory) (a : Nat) (v : Byte) (c : Host.Cell) (h : c ∈ Memory.set m a v) :
    c = (a, v) ∨ c ∈ m := by
  induction m with
  | nil => simp only [Memory.set] at h; split at h <;> simp_all
  | cons d m ih =>
    simp only [Memory.set] at h
    split at h
    · split at h <;> simp_all
    · split at h
      · split at h
        · exact .inr (by simp [h])
        · rcases List.mem_cons.1 h with h | h
          · exact .inl h
          · exact .inr (by simp [h])
      · rcases List.mem_cons.1 h with h | h
        · exact .inr (by simp [h])
        · exact (ih h).imp_right fun h => by simp [h]

/-- A write keeps the canonical form. -/
theorem Memory.wf_set (m : Memory) (a : Nat) (v : Byte) (h : Memory.wf m = true) :
    Memory.wf (Memory.set m a v) = true := by
  induction m with
  | nil => simp only [Memory.set]; split <;> simp_all [Memory.wf]
  | cons d m ih =>
    obtain ⟨hd, hv, hm⟩ := (Memory.wf_cons d m).1 h
    simp only [Memory.set]
    split
    · split
      · exact h
      · refine (Memory.wf_cons _ _).2 ⟨fun c hc => ?_, by assumption, h⟩
        rcases List.mem_cons.1 hc with rfl | hc
        · assumption
        · have := hd c hc; simp only; omega
    · split
      · split
        · exact hm
        · refine (Memory.wf_cons _ _).2 ⟨fun c hc => ?_, by assumption, hm⟩
          have := hd c hc; simp only; omega
      · refine (Memory.wf_cons _ _).2 ⟨fun c hc => ?_, hv, ih hm⟩
        rcases Memory.mem_set m a v c hc with rfl | hc
        · simp only; omega
        · exact hd c hc

/-- A write inside the bounds keeps the bounds. -/
theorem Memory.within_set (n : Nat) (m : Memory) (a : Nat) (v : Byte) (h : Memory.within n m = true) (ha : a < n) :
    Memory.within n (Memory.set m a v) = true :=
  (Memory.within_iff _ _).2 fun c hc => by
    rcases Memory.mem_set m a v c hc with rfl | hc
    · exact ha
    · exact (Memory.within_iff _ _).1 h c hc

/-- A read after a write: the written byte at its address, every other byte as before. -/
theorem Memory.get_set (m : Memory) (a : Nat) (v : Byte) (b : Nat) (h : Memory.wf m = true) :
    Memory.get (Memory.set m a v) b = if b = a then v else Memory.get m b := by
  induction m with
  | nil =>
    simp only [Memory.set]
    split
    · simp_all
    · simp [Memory.get_cons]
  | cons d m ih =>
    obtain ⟨hd, hv, hm⟩ := (Memory.wf_cons d m).1 h
    simp only [Memory.set]
    split
    · have hb : Memory.get (d :: m) a = Memory.unlisted :=
        Memory.get_of_lt_all _ _ fun c hc => by
          rcases List.mem_cons.1 hc with rfl | hc
          · assumption
          · have := hd c hc; omega
      split
      · by_cases e : b = a <;> simp_all
      · rw [Memory.get_cons]
    · split
      · have hb : Memory.get m a = Memory.unlisted :=
          Memory.get_of_lt_all _ _ fun c hc => by have := hd c hc; omega
        split
        · by_cases e : b = a <;> simp_all [Memory.get_cons]
        · by_cases e : b = a <;> simp_all [Memory.get_cons]
      · rw [Memory.get_cons, ih hm, Memory.get_cons]
        by_cases e : b = d.1
        · have : b ≠ a := by omega
          simp_all
        · simp_all

/-- Clearing zeroes the addresses below the bound and leaves the rest. -/
theorem Memory.get_clear (n : Nat) (m : Memory) (a : Nat) :
    Memory.get (Memory.clear n m) a = if a < n then Memory.unlisted else Memory.get m a := by
  unfold Memory.clear
  induction m with
  | nil => simp
  | cons c m ih =>
    by_cases hc : n ≤ c.1
    · rw [List.filter_cons_of_pos (by simpa using hc), Memory.get_cons, ih, Memory.get_cons]
      split
      · rw [if_neg (by omega)]
      · rfl
    · rw [List.filter_cons_of_neg (by simpa using hc), ih, Memory.get_cons]
      split
      · rfl
      · rw [if_neg (by omega)]

/-- Clearing keeps the canonical form. -/
theorem Memory.wf_clear (n : Nat) (m : Memory) (h : Memory.wf m = true) : Memory.wf (Memory.clear n m) = true := by
  rw [Memory.wf_iff] at *
  exact ⟨h.1.filter _, fun c hc => h.2 c (List.mem_filter.1 hc).1⟩

/-- Clearing keeps the bounds. -/
theorem Memory.within_clear (k n : Nat) (m : Memory) (h : Memory.within n m = true) :
    Memory.within n (Memory.clear k m) = true :=
  (Memory.within_iff _ _).2 fun c hc => (Memory.within_iff _ _).1 h c (List.mem_filter.1 hc).1

/-- A store within its bounds is empty once cleared. -/
theorem Memory.clear_of_within (n : Nat) (m : Memory) (h : Memory.within n m = true) : Memory.clear n m = [] :=
  List.filter_eq_nil_iff.2 fun c hc => by have := (Memory.within_iff _ _).1 h c hc; simpa using this

theorem Memory.mem_ofBytesFrom (a : Nat) (vs : List Byte) (c : Host.Cell) (h : c ∈ Memory.ofBytesFrom a vs) :
    a ≤ c.1 ∧ c.1 < a + vs.length ∧ c.2 ≠ Memory.unlisted := by
  induction vs generalizing a with
  | nil => simp [Memory.ofBytesFrom] at h
  | cons v vs ih =>
    simp only [Memory.ofBytesFrom] at h
    split at h
    · have := ih _ h
      exact ⟨by omega, by simp only [List.length_cons]; omega, this.2.2⟩
    · rcases List.mem_cons.1 h with rfl | h
      · simp_all
      · have := ih _ h
        exact ⟨by omega, by simp only [List.length_cons]; omega, this.2.2⟩

/-- Initial contents are in canonical form. -/
theorem Memory.wf_ofBytesFrom (a : Nat) (vs : List Byte) : Memory.wf (Memory.ofBytesFrom a vs) = true := by
  induction vs generalizing a with
  | nil => rfl
  | cons v vs ih =>
    simp only [Memory.ofBytesFrom]
    split
    · exact ih _
    · refine (Memory.wf_cons _ _).2 ⟨fun d hd => ?_, by assumption, ih _⟩
      have := Memory.mem_ofBytesFrom _ _ _ hd
      simp only; omega

/-- Initial contents read as they were given. -/
theorem Memory.get_ofBytesFrom (a : Nat) (vs : List Byte) (b : Nat) (hb : a ≤ b) :
    Memory.get (Memory.ofBytesFrom a vs) b = vs.getD (b - a) Memory.unlisted := by
  induction vs generalizing a with
  | nil => simp [Memory.ofBytesFrom]
  | cons v vs ih =>
    have rest : ∀ x, Memory.get (Memory.ofBytesFrom (a + 1) vs) b = x ↔
        (if b = a then Memory.unlisted else vs.getD (b - (a + 1)) Memory.unlisted) = x := fun x => by
      by_cases e : b = a
      · rw [if_pos e, Memory.get_of_lt_all _ _ fun c hc => by
          have := Memory.mem_ofBytesFrom _ _ _ hc; omega]
      · rw [if_neg e, ih (a + 1) (by omega)]
    simp only [Memory.ofBytesFrom]
    by_cases e : b = a
    · subst e
      split
      · rw [(rest _).2 rfl]; simp_all
      · simp [Memory.get_cons]
    · have : b - a = (b - (a + 1)) + 1 := by omega
      rw [this, List.getD_cons_succ]
      split
      · rw [(rest _).2 rfl, if_neg e]
      · rw [Memory.get_cons, if_neg e, (rest _).2 rfl, if_neg e]

theorem Memory.wf_ofBytes (n : Nat) (vs : List Byte) : Memory.wf (Memory.ofBytes n vs) = true :=
  Memory.wf_ofBytesFrom _ _

theorem Memory.within_ofBytes (n : Nat) (vs : List Byte) : Memory.within n (Memory.ofBytes n vs) = true :=
  (Memory.within_iff _ _).2 fun c hc => by
    have := Memory.mem_ofBytesFrom _ _ _ hc
    simp only [List.length_take] at this; omega

theorem Memory.get_ofBytes (n : Nat) (vs : List Byte) (b : Nat) :
    Memory.get (Memory.ofBytes n vs) b = (vs.take n).getD b Memory.unlisted := by
  simpa [Memory.ofBytes] using Memory.get_ofBytesFrom 0 (vs.take n) b (Nat.zero_le _)

/-- Two stores in canonical form that read alike everywhere are equal. -/
theorem Memory.ext_of_wf (m m' : Memory) (h : Memory.wf m = true) (h' : Memory.wf m' = true)
    (e : ∀ a, Memory.get m a = Memory.get m' a) : m = m' := by
  induction m generalizing m' with
  | nil =>
    cases m' with
    | nil => rfl
    | cons d m' =>
      have hd := ((Memory.wf_cons _ _).1 h').2.1
      have := e d.1
      rw [Memory.get_cons, if_pos rfl, Memory.get_nil] at this
      exact absurd this.symm hd
  | cons c m ih =>
    obtain ⟨hc, hv, hm⟩ := (Memory.wf_cons _ _).1 h
    cases m' with
    | nil =>
      have := e c.1
      rw [Memory.get_cons, if_pos rfl, Memory.get_nil] at this
      exact absurd this hv
    | cons d m' =>
      obtain ⟨hd, hw, hm'⟩ := (Memory.wf_cons _ _).1 h'
      have e1 : c.1 = d.1 := by
        rcases Nat.lt_trichotomy c.1 d.1 with lt | eq | lt
        · have := e c.1
          rw [Memory.get_cons, if_pos rfl, Memory.get_of_lt_all (d :: m') c.1 fun x hx => by
            rcases List.mem_cons.1 hx with rfl | hx
            · exact lt
            · have := hd x hx; omega] at this
          exact absurd this hv
        · exact eq
        · have := e d.1
          rw [Memory.get_cons d, if_pos rfl, Memory.get_of_lt_all (c :: m) d.1 fun x hx => by
            rcases List.mem_cons.1 hx with rfl | hx
            · exact lt
            · have := hc x hx; omega] at this
          exact absurd this.symm hw
      have e2 : c.2 = d.2 := by
        have := e c.1
        rwa [Memory.get_cons, if_pos rfl, Memory.get_cons, if_pos e1] at this
      have e3 : m = m' := ih m' hm hm' fun a => by
        by_cases ha : a = c.1
        · rw [Memory.get_of_lt_all m a fun x hx => by have := hc x hx; omega,
            Memory.get_of_lt_all m' a fun x hx => by have := hd x hx; omega]
        · have := e a
          rwa [Memory.get_cons, if_neg ha, Memory.get_cons, if_neg (by omega)] at this
      exact congrArg₂ List.cons (Prod.ext e1 e2) e3

theorem Memory.length_bytes (m : Memory) (a n : Nat) : (Memory.bytes m a n).length = n := by simp [Memory.bytes]

theorem Memory.getD_bytes (m : Memory) (a n i : Nat) (h : i < n) :
    (Memory.bytes m a n).getD i 0 = Memory.get m (a + i) := by
  simp [Memory.bytes, List.getD_eq_getElem?_getD, List.getElem?_map, List.getElem?_range h]

end Sys2Proof.Machine
end

