-- ==== Sys2Proof/Laws/State.lean ====
section
/-!
SUPPORT. One lemma for each field of the state under each named update, so that no proof unfolds a record update.
-/
namespace Sys2Proof.Machine

/-! ### `emit` -/

@[simp] theorem State.emit_cfg (s : State) (e : Event) : (s.emit e).cfg = s.cfg := rfl

@[simp] theorem State.emit_fs (s : State) (e : Event) : (s.emit e).fs = s.fs := rfl

@[simp] theorem State.emit_bs (s : State) (e : Event) : (s.emit e).bs = s.bs := rfl

@[simp] theorem State.emit_p0x (s : State) (e : Event) : (s.emit e).p0x = s.p0x := rfl

@[simp] theorem State.emit_p0y (s : State) (e : Event) : (s.emit e).p0y = s.p0y := rfl

@[simp] theorem State.emit_p1x (s : State) (e : Event) : (s.emit e).p1x = s.p1x := rfl

@[simp] theorem State.emit_p1y (s : State) (e : Event) : (s.emit e).p1y = s.p1y := rfl

@[simp] theorem State.emit_rem (s : State) (e : Event) : (s.emit e).rem = s.rem := rfl

@[simp] theorem State.emit_fault (s : State) (e : Event) : (s.emit e).fault = s.fault := rfl

@[simp] theorem State.emit_trace (s : State) (e : Event) : (s.emit e).trace = s.trace ++ [e] := rfl

@[simp] theorem State.emit_resp (s : State) (e : Event) : (s.emit e).resp = s.resp := rfl

@[simp] theorem State.emit_host (s : State) (e : Event) : (s.emit e).host = s.host := rfl

@[simp] theorem State.emit_pc (s : State) (e : Event) : (s.emit e).pc = s.pc := rfl

@[simp] theorem State.emit_ready (s : State) (e : Event) : (s.emit e).ready = s.ready := rfl

@[simp] theorem State.emit_permit (s : State) (e : Event) : (s.emit e).permit = s.permit := rfl

@[simp] theorem State.emit_draws (s : State) (e : Event) : (s.emit e).draws = s.draws := rfl

/-! ### `beginFrame` -/

@[simp] theorem State.beginFrame_cfg (s : State) : (s.beginFrame).cfg = s.cfg := rfl

@[simp] theorem State.beginFrame_fs (s : State) : (s.beginFrame).fs = Memory.clear s.cfg.nf s.fs := rfl

@[simp] theorem State.beginFrame_bs (s : State) : (s.beginFrame).bs = s.bs := rfl

@[simp] theorem State.beginFrame_p0x (s : State) : (s.beginFrame).p0x = 0 := rfl

@[simp] theorem State.beginFrame_p0y (s : State) : (s.beginFrame).p0y = 0 := rfl

@[simp] theorem State.beginFrame_p1x (s : State) : (s.beginFrame).p1x = BitVec.ofNat 32 (s.cfg.width - 1) := rfl

@[simp] theorem State.beginFrame_p1y (s : State) : (s.beginFrame).p1y = BitVec.ofNat 32 (s.cfg.pageHeight - 1) := rfl

@[simp] theorem State.beginFrame_rem (s : State) : (s.beginFrame).rem = s.rem := rfl

@[simp] theorem State.beginFrame_fault (s : State) : (s.beginFrame).fault = s.fault := rfl

@[simp] theorem State.beginFrame_trace (s : State) : (s.beginFrame).trace = s.trace := rfl

@[simp] theorem State.beginFrame_resp (s : State) : (s.beginFrame).resp = s.resp := rfl

@[simp] theorem State.beginFrame_host (s : State) : (s.beginFrame).host = s.host := rfl

@[simp] theorem State.beginFrame_pc (s : State) : (s.beginFrame).pc = s.pc := rfl

@[simp] theorem State.beginFrame_ready (s : State) : (s.beginFrame).ready = s.ready := rfl

@[simp] theorem State.beginFrame_permit (s : State) : (s.beginFrame).permit = s.permit := rfl

@[simp] theorem State.beginFrame_draws (s : State) : (s.beginFrame).draws = s.draws := rfl

/-! ### `advanceBand` -/

@[simp] theorem State.advanceBand_cfg (s : State) : (s.advanceBand).cfg = s.cfg := rfl

@[simp] theorem State.advanceBand_fs (s : State) : (s.advanceBand).fs = s.fs := rfl

@[simp] theorem State.advanceBand_bs (s : State) : (s.advanceBand).bs = s.bs := rfl

@[simp] theorem State.advanceBand_p0x (s : State) : (s.advanceBand).p0x = s.p0x := rfl

@[simp] theorem State.advanceBand_p0y (s : State) : (s.advanceBand).p0y = s.p0y + BitVec.ofNat 32 s.cfg.pageHeight := rfl

@[simp] theorem State.advanceBand_p1x (s : State) : (s.advanceBand).p1x = s.p1x := rfl

@[simp] theorem State.advanceBand_p1y (s : State) : (s.advanceBand).p1y = s.p1y + BitVec.ofNat 32 s.cfg.pageHeight := rfl

@[simp] theorem State.advanceBand_rem (s : State) : (s.advanceBand).rem = s.rem := rfl

@[simp] theorem State.advanceBand_fault (s : State) : (s.advanceBand).fault = s.fault := rfl

@[simp] theorem State.advanceBand_trace (s : State) : (s.advanceBand).trace = s.trace := rfl

@[simp] theorem State.advanceBand_resp (s : State) : (s.advanceBand).resp = s.resp := rfl

@[simp] theorem State.advanceBand_host (s : State) : (s.advanceBand).host = s.host := rfl

@[simp] theorem State.advanceBand_pc (s : State) : (s.advanceBand).pc = s.pc := rfl

@[simp] theorem State.advanceBand_ready (s : State) : (s.advanceBand).ready = s.ready := rfl

@[simp] theorem State.advanceBand_permit (s : State) : (s.advanceBand).permit = s.permit := rfl

@[simp] theorem State.advanceBand_draws (s : State) : (s.advanceBand).draws = s.draws := rfl

/-! ### `startPage` -/

@[simp] theorem State.startPage_cfg (s : State) : (s.startPage).cfg = s.cfg := rfl

@[simp] theorem State.startPage_fs (s : State) : (s.startPage).fs = s.fs := rfl

@[simp] theorem State.startPage_bs (s : State) : (s.startPage).bs = s.bs := rfl

@[simp] theorem State.startPage_p0x (s : State) : (s.startPage).p0x = s.p0x := rfl

@[simp] theorem State.startPage_p0y (s : State) : (s.startPage).p0y = s.p0y := rfl

@[simp] theorem State.startPage_p1x (s : State) : (s.startPage).p1x = s.p1x := rfl

@[simp] theorem State.startPage_p1y (s : State) : (s.startPage).p1y = s.p1y := rfl

@[simp] theorem State.startPage_rem (s : State) : (s.startPage).rem = BitVec.ofNat 32 s.cfg.ppp := rfl

@[simp] theorem State.startPage_fault (s : State) : (s.startPage).fault = s.fault := rfl

@[simp] theorem State.startPage_trace (s : State) : (s.startPage).trace = s.trace := rfl

@[simp] theorem State.startPage_resp (s : State) : (s.startPage).resp = s.resp := rfl

@[simp] theorem State.startPage_host (s : State) : (s.startPage).host = s.host := rfl

@[simp] theorem State.startPage_pc (s : State) : (s.startPage).pc = s.pc := rfl

@[simp] theorem State.startPage_ready (s : State) : (s.startPage).ready = s.ready := rfl

@[simp] theorem State.startPage_permit (s : State) : (s.startPage).permit = s.permit := rfl

@[simp] theorem State.startPage_draws (s : State) : (s.startPage).draws = s.draws := rfl

/-! ### `startFrame` -/

@[simp] theorem State.startFrame_cfg (s : State) : (s.startFrame).cfg = s.cfg := rfl

@[simp] theorem State.startFrame_fs (s : State) : (s.startFrame).fs = Memory.clear s.cfg.nf s.fs := rfl

@[simp] theorem State.startFrame_bs (s : State) : (s.startFrame).bs = s.bs := rfl

@[simp] theorem State.startFrame_p0x (s : State) : (s.startFrame).p0x = 0 := rfl

@[simp] theorem State.startFrame_p0y (s : State) : (s.startFrame).p0y = 0 := rfl

@[simp] theorem State.startFrame_p1x (s : State) : (s.startFrame).p1x = BitVec.ofNat 32 (s.cfg.width - 1) := rfl

@[simp] theorem State.startFrame_p1y (s : State) : (s.startFrame).p1y = BitVec.ofNat 32 (s.cfg.pageHeight - 1) := rfl

@[simp] theorem State.startFrame_rem (s : State) : (s.startFrame).rem = s.rem := rfl

@[simp] theorem State.startFrame_fault (s : State) : (s.startFrame).fault = s.fault := rfl

@[simp] theorem State.startFrame_trace (s : State) : (s.startFrame).trace = s.trace ++ [.devBeginFrame] := rfl

@[simp] theorem State.startFrame_resp (s : State) : (s.startFrame).resp = s.resp := rfl

@[simp] theorem State.startFrame_host (s : State) : (s.startFrame).host = s.host := rfl

@[simp] theorem State.startFrame_pc (s : State) : (s.startFrame).pc = s.pc := rfl

@[simp] theorem State.startFrame_ready (s : State) : (s.startFrame).ready = s.ready := rfl

@[simp] theorem State.startFrame_permit (s : State) : (s.startFrame).permit = s.permit := rfl

@[simp] theorem State.startFrame_draws (s : State) : (s.startFrame).draws = s.draws := rfl

/-! ### `accept` -/

@[simp] theorem State.accept_cfg (s : State) (r p : Bool) : (s.accept r p).cfg = s.cfg := rfl

@[simp] theorem State.accept_fs (s : State) (r p : Bool) : (s.accept r p).fs = s.fs := rfl

@[simp] theorem State.accept_bs (s : State) (r p : Bool) : (s.accept r p).bs = s.bs := rfl

@[simp] theorem State.accept_p0x (s : State) (r p : Bool) : (s.accept r p).p0x = s.p0x := rfl

@[simp] theorem State.accept_p0y (s : State) (r p : Bool) : (s.accept r p).p0y = s.p0y := rfl

@[simp] theorem State.accept_p1x (s : State) (r p : Bool) : (s.accept r p).p1x = s.p1x := rfl

@[simp] theorem State.accept_p1y (s : State) (r p : Bool) : (s.accept r p).p1y = s.p1y := rfl

@[simp] theorem State.accept_rem (s : State) (r p : Bool) : (s.accept r p).rem = s.rem := rfl

@[simp] theorem State.accept_fault (s : State) (r p : Bool) : (s.accept r p).fault = s.fault := rfl

@[simp] theorem State.accept_trace (s : State) (r p : Bool) : (s.accept r p).trace = s.trace := rfl

@[simp] theorem State.accept_resp (s : State) (r p : Bool) : (s.accept r p).resp = s.resp := rfl

@[simp] theorem State.accept_host (s : State) (r p : Bool) : (s.accept r p).host = s.host := rfl

@[simp] theorem State.accept_pc (s : State) (r p : Bool) : (s.accept r p).pc = s.pc + 1 := rfl

@[simp] theorem State.accept_ready (s : State) (r p : Bool) : (s.accept r p).ready = r := rfl

@[simp] theorem State.accept_permit (s : State) (r p : Bool) : (s.accept r p).permit = p := rfl

@[simp] theorem State.accept_draws (s : State) (r p : Bool) : (s.accept r p).draws = s.draws := rfl

/-! ### `withNextEvent` -/

@[simp] theorem State.withNextEvent_cfg (s : State) (e : HostEvent) : (s.withNextEvent e).cfg = s.cfg := rfl

@[simp] theorem State.withNextEvent_fs (s : State) (e : HostEvent) : (s.withNextEvent e).fs = s.fs := rfl

@[simp] theorem State.withNextEvent_bs (s : State) (e : HostEvent) : (s.withNextEvent e).bs = s.bs := rfl

@[simp] theorem State.withNextEvent_p0x (s : State) (e : HostEvent) : (s.withNextEvent e).p0x = s.p0x := rfl

@[simp] theorem State.withNextEvent_p0y (s : State) (e : HostEvent) : (s.withNextEvent e).p0y = s.p0y := rfl

@[simp] theorem State.withNextEvent_p1x (s : State) (e : HostEvent) : (s.withNextEvent e).p1x = s.p1x := rfl

@[simp] theorem State.withNextEvent_p1y (s : State) (e : HostEvent) : (s.withNextEvent e).p1y = s.p1y := rfl

@[simp] theorem State.withNextEvent_rem (s : State) (e : HostEvent) : (s.withNextEvent e).rem = s.rem := rfl

@[simp] theorem State.withNextEvent_fault (s : State) (e : HostEvent) : (s.withNextEvent e).fault = s.fault := rfl

@[simp] theorem State.withNextEvent_trace (s : State) (e : HostEvent) : (s.withNextEvent e).trace = s.trace := rfl

@[simp] theorem State.withNextEvent_resp (s : State) (e : HostEvent) : (s.withNextEvent e).resp = s.resp := rfl

@[simp] theorem State.withNextEvent_pc (s : State) (e : HostEvent) : (s.withNextEvent e).pc = s.pc := rfl

@[simp] theorem State.withNextEvent_ready (s : State) (e : HostEvent) : (s.withNextEvent e).ready = s.ready := rfl

@[simp] theorem State.withNextEvent_permit (s : State) (e : HostEvent) : (s.withNextEvent e).permit = s.permit := rfl

@[simp] theorem State.withNextEvent_draws (s : State) (e : HostEvent) : (s.withNextEvent e).draws = s.draws := rfl

/-! ### `setStoreBytes` -/

@[simp] theorem State.setStoreBytes_cfg (s : State) (d : StoreId) (m : Memory) : (s.setStoreBytes d m).cfg = s.cfg := by cases d <;> rfl

@[simp] theorem State.setStoreBytes_p0x (s : State) (d : StoreId) (m : Memory) : (s.setStoreBytes d m).p0x = s.p0x := by cases d <;> rfl

@[simp] theorem State.setStoreBytes_p0y (s : State) (d : StoreId) (m : Memory) : (s.setStoreBytes d m).p0y = s.p0y := by cases d <;> rfl

@[simp] theorem State.setStoreBytes_p1x (s : State) (d : StoreId) (m : Memory) : (s.setStoreBytes d m).p1x = s.p1x := by cases d <;> rfl

@[simp] theorem State.setStoreBytes_p1y (s : State) (d : StoreId) (m : Memory) : (s.setStoreBytes d m).p1y = s.p1y := by cases d <;> rfl

@[simp] theorem State.setStoreBytes_rem (s : State) (d : StoreId) (m : Memory) : (s.setStoreBytes d m).rem = s.rem := by cases d <;> rfl

@[simp] theorem State.setStoreBytes_fault (s : State) (d : StoreId) (m : Memory) : (s.setStoreBytes d m).fault = s.fault := by cases d <;> rfl

@[simp] theorem State.setStoreBytes_trace (s : State) (d : StoreId) (m : Memory) : (s.setStoreBytes d m).trace = s.trace := by cases d <;> rfl

@[simp] theorem State.setStoreBytes_resp (s : State) (d : StoreId) (m : Memory) : (s.setStoreBytes d m).resp = s.resp := by cases d <;> rfl

@[simp] theorem State.setStoreBytes_host (s : State) (d : StoreId) (m : Memory) : (s.setStoreBytes d m).host = s.host := by cases d <;> rfl

@[simp] theorem State.setStoreBytes_pc (s : State) (d : StoreId) (m : Memory) : (s.setStoreBytes d m).pc = s.pc := by cases d <;> rfl

@[simp] theorem State.setStoreBytes_ready (s : State) (d : StoreId) (m : Memory) : (s.setStoreBytes d m).ready = s.ready := by cases d <;> rfl

@[simp] theorem State.setStoreBytes_permit (s : State) (d : StoreId) (m : Memory) : (s.setStoreBytes d m).permit = s.permit := by cases d <;> rfl

@[simp] theorem State.setStoreBytes_draws (s : State) (d : StoreId) (m : Memory) : (s.setStoreBytes d m).draws = s.draws := by cases d <;> rfl

@[simp] theorem State.setStoreBytes_fs_of_fs (s : State) (m : Memory) : (s.setStoreBytes .fs m).fs = m := rfl

@[simp] theorem State.setStoreBytes_fs_of_bs (s : State) (m : Memory) : (s.setStoreBytes .bs m).fs = s.fs := rfl

@[simp] theorem State.setStoreBytes_bs_of_fs (s : State) (m : Memory) : (s.setStoreBytes .fs m).bs = s.bs := rfl

@[simp] theorem State.setStoreBytes_bs_of_bs (s : State) (m : Memory) : (s.setStoreBytes .bs m).bs = m := rfl

@[simp] theorem State.storeBytes_setStoreBytes (s : State) (d : StoreId) (m : Memory) :
    (s.setStoreBytes d m).storeBytes d = m := by cases d <;> rfl

theorem State.storeBytes_setStoreBytes_of_ne (s : State) (d d' : StoreId) (m : Memory) (h : d' ≠ d) :
    (s.setStoreBytes d m).storeBytes d' = s.storeBytes d' := by cases d <;> cases d' <;> first | rfl | exact absurd rfl h

/-! ### `setStore` -/

@[simp] theorem State.setStore_cfg (s : State) (sel : Sel) (m : Memory) : (s.setStore sel m).cfg = s.cfg := State.setStoreBytes_cfg s (s.cfg.storeOf sel) m

@[simp] theorem State.setStore_p0x (s : State) (sel : Sel) (m : Memory) : (s.setStore sel m).p0x = s.p0x := State.setStoreBytes_p0x s (s.cfg.storeOf sel) m

@[simp] theorem State.setStore_p0y (s : State) (sel : Sel) (m : Memory) : (s.setStore sel m).p0y = s.p0y := State.setStoreBytes_p0y s (s.cfg.storeOf sel) m

@[simp] theorem State.setStore_p1x (s : State) (sel : Sel) (m : Memory) : (s.setStore sel m).p1x = s.p1x := State.setStoreBytes_p1x s (s.cfg.storeOf sel) m

@[simp] theorem State.setStore_p1y (s : State) (sel : Sel) (m : Memory) : (s.setStore sel m).p1y = s.p1y := State.setStoreBytes_p1y s (s.cfg.storeOf sel) m

@[simp] theorem State.setStore_rem (s : State) (sel : Sel) (m : Memory) : (s.setStore sel m).rem = s.rem := State.setStoreBytes_rem s (s.cfg.storeOf sel) m

@[simp] theorem State.setStore_fault (s : State) (sel : Sel) (m : Memory) : (s.setStore sel m).fault = s.fault := State.setStoreBytes_fault s (s.cfg.storeOf sel) m

@[simp] theorem State.setStore_trace (s : State) (sel : Sel) (m : Memory) : (s.setStore sel m).trace = s.trace := State.setStoreBytes_trace s (s.cfg.storeOf sel) m

@[simp] theorem State.setStore_resp (s : State) (sel : Sel) (m : Memory) : (s.setStore sel m).resp = s.resp := State.setStoreBytes_resp s (s.cfg.storeOf sel) m

@[simp] theorem State.setStore_host (s : State) (sel : Sel) (m : Memory) : (s.setStore sel m).host = s.host := State.setStoreBytes_host s (s.cfg.storeOf sel) m

@[simp] theorem State.setStore_pc (s : State) (sel : Sel) (m : Memory) : (s.setStore sel m).pc = s.pc := State.setStoreBytes_pc s (s.cfg.storeOf sel) m

@[simp] theorem State.setStore_ready (s : State) (sel : Sel) (m : Memory) : (s.setStore sel m).ready = s.ready := State.setStoreBytes_ready s (s.cfg.storeOf sel) m

@[simp] theorem State.setStore_permit (s : State) (sel : Sel) (m : Memory) : (s.setStore sel m).permit = s.permit := State.setStoreBytes_permit s (s.cfg.storeOf sel) m

@[simp] theorem State.setStore_draws (s : State) (sel : Sel) (m : Memory) : (s.setStore sel m).draws = s.draws := State.setStoreBytes_draws s (s.cfg.storeOf sel) m

/-! ### `elemWrite` -/

@[simp] theorem State.elemWrite_cfg (s : State) (sel : Sel) (i v : Nat) : (s.elemWrite sel i v).cfg = s.cfg := State.setStore_cfg s sel _

@[simp] theorem State.elemWrite_p0x (s : State) (sel : Sel) (i v : Nat) : (s.elemWrite sel i v).p0x = s.p0x := State.setStore_p0x s sel _

@[simp] theorem State.elemWrite_p0y (s : State) (sel : Sel) (i v : Nat) : (s.elemWrite sel i v).p0y = s.p0y := State.setStore_p0y s sel _

@[simp] theorem State.elemWrite_p1x (s : State) (sel : Sel) (i v : Nat) : (s.elemWrite sel i v).p1x = s.p1x := State.setStore_p1x s sel _

@[simp] theorem State.elemWrite_p1y (s : State) (sel : Sel) (i v : Nat) : (s.elemWrite sel i v).p1y = s.p1y := State.setStore_p1y s sel _

@[simp] theorem State.elemWrite_rem (s : State) (sel : Sel) (i v : Nat) : (s.elemWrite sel i v).rem = s.rem := State.setStore_rem s sel _

@[simp] theorem State.elemWrite_fault (s : State) (sel : Sel) (i v : Nat) : (s.elemWrite sel i v).fault = s.fault := State.setStore_fault s sel _

@[simp] theorem State.elemWrite_trace (s : State) (sel : Sel) (i v : Nat) : (s.elemWrite sel i v).trace = s.trace := State.setStore_trace s sel _

@[simp] theorem State.elemWrite_resp (s : State) (sel : Sel) (i v : Nat) : (s.elemWrite sel i v).resp = s.resp := State.setStore_resp s sel _

@[simp] theorem State.elemWrite_host (s : State) (sel : Sel) (i v : Nat) : (s.elemWrite sel i v).host = s.host := State.setStore_host s sel _

@[simp] theorem State.elemWrite_pc (s : State) (sel : Sel) (i v : Nat) : (s.elemWrite sel i v).pc = s.pc := State.setStore_pc s sel _

@[simp] theorem State.elemWrite_ready (s : State) (sel : Sel) (i v : Nat) : (s.elemWrite sel i v).ready = s.ready := State.setStore_ready s sel _

@[simp] theorem State.elemWrite_permit (s : State) (sel : Sel) (i v : Nat) : (s.elemWrite sel i v).permit = s.permit := State.setStore_permit s sel _

@[simp] theorem State.elemWrite_draws (s : State) (sel : Sel) (i v : Nat) : (s.elemWrite sel i v).draws = s.draws := State.setStore_draws s sel _

/-! ### `setStoreByte` -/

@[simp] theorem State.setStoreByte_cfg (s : State) (sel : Sel) (a v : Nat) : (s.setStoreByte sel a v).cfg = s.cfg := State.setStore_cfg s sel _

@[simp] theorem State.setStoreByte_p0x (s : State) (sel : Sel) (a v : Nat) : (s.setStoreByte sel a v).p0x = s.p0x := State.setStore_p0x s sel _

@[simp] theorem State.setStoreByte_p0y (s : State) (sel : Sel) (a v : Nat) : (s.setStoreByte sel a v).p0y = s.p0y := State.setStore_p0y s sel _

@[simp] theorem State.setStoreByte_p1x (s : State) (sel : Sel) (a v : Nat) : (s.setStoreByte sel a v).p1x = s.p1x := State.setStore_p1x s sel _

@[simp] theorem State.setStoreByte_p1y (s : State) (sel : Sel) (a v : Nat) : (s.setStoreByte sel a v).p1y = s.p1y := State.setStore_p1y s sel _

@[simp] theorem State.setStoreByte_rem (s : State) (sel : Sel) (a v : Nat) : (s.setStoreByte sel a v).rem = s.rem := State.setStore_rem s sel _

@[simp] theorem State.setStoreByte_fault (s : State) (sel : Sel) (a v : Nat) : (s.setStoreByte sel a v).fault = s.fault := State.setStore_fault s sel _

@[simp] theorem State.setStoreByte_trace (s : State) (sel : Sel) (a v : Nat) : (s.setStoreByte sel a v).trace = s.trace := State.setStore_trace s sel _

@[simp] theorem State.setStoreByte_resp (s : State) (sel : Sel) (a v : Nat) : (s.setStoreByte sel a v).resp = s.resp := State.setStore_resp s sel _

@[simp] theorem State.setStoreByte_host (s : State) (sel : Sel) (a v : Nat) : (s.setStoreByte sel a v).host = s.host := State.setStore_host s sel _

@[simp] theorem State.setStoreByte_pc (s : State) (sel : Sel) (a v : Nat) : (s.setStoreByte sel a v).pc = s.pc := State.setStore_pc s sel _

@[simp] theorem State.setStoreByte_ready (s : State) (sel : Sel) (a v : Nat) : (s.setStoreByte sel a v).ready = s.ready := State.setStore_ready s sel _

@[simp] theorem State.setStoreByte_permit (s : State) (sel : Sel) (a v : Nat) : (s.setStoreByte sel a v).permit = s.permit := State.setStore_permit s sel _

@[simp] theorem State.setStoreByte_draws (s : State) (sel : Sel) (a v : Nat) : (s.setStoreByte sel a v).draws = s.draws := State.setStore_draws s sel _

/-! ### `afterExtract` -/

@[simp] theorem State.afterExtract_cfg (s : State) (off size : Nat) : (s.afterExtract off size).cfg = s.cfg := by
  unfold State.afterExtract; split
  · split <;> rfl
  · rfl

@[simp] theorem State.afterExtract_fs (s : State) (off size : Nat) : (s.afterExtract off size).fs = s.fs := by
  unfold State.afterExtract; split
  · split <;> rfl
  · rfl

@[simp] theorem State.afterExtract_p0x (s : State) (off size : Nat) : (s.afterExtract off size).p0x = s.p0x := by
  unfold State.afterExtract; split
  · split <;> rfl
  · rfl

@[simp] theorem State.afterExtract_p0y (s : State) (off size : Nat) : (s.afterExtract off size).p0y = s.p0y := by
  unfold State.afterExtract; split
  · split <;> rfl
  · rfl

@[simp] theorem State.afterExtract_p1x (s : State) (off size : Nat) : (s.afterExtract off size).p1x = s.p1x := by
  unfold State.afterExtract; split
  · split <;> rfl
  · rfl

@[simp] theorem State.afterExtract_p1y (s : State) (off size : Nat) : (s.afterExtract off size).p1y = s.p1y := by
  unfold State.afterExtract; split
  · split <;> rfl
  · rfl

@[simp] theorem State.afterExtract_rem (s : State) (off size : Nat) : (s.afterExtract off size).rem = s.rem := by
  unfold State.afterExtract; split
  · split <;> rfl
  · rfl

@[simp] theorem State.afterExtract_fault (s : State) (off size : Nat) : (s.afterExtract off size).fault = s.fault := by
  unfold State.afterExtract; split
  · split <;> rfl
  · rfl

@[simp] theorem State.afterExtract_trace (s : State) (off size : Nat) : (s.afterExtract off size).trace = s.trace := by
  unfold State.afterExtract; split
  · split <;> rfl
  · rfl

@[simp] theorem State.afterExtract_resp (s : State) (off size : Nat) : (s.afterExtract off size).resp = s.resp := by
  unfold State.afterExtract; split
  · split <;> rfl
  · rfl

@[simp] theorem State.afterExtract_host (s : State) (off size : Nat) : (s.afterExtract off size).host = s.host := by
  unfold State.afterExtract; split
  · split <;> rfl
  · rfl

@[simp] theorem State.afterExtract_pc (s : State) (off size : Nat) : (s.afterExtract off size).pc = s.pc := by
  unfold State.afterExtract; split
  · split <;> rfl
  · rfl

@[simp] theorem State.afterExtract_ready (s : State) (off size : Nat) : (s.afterExtract off size).ready = s.ready := by
  unfold State.afterExtract; split
  · split <;> rfl
  · rfl

@[simp] theorem State.afterExtract_permit (s : State) (off size : Nat) : (s.afterExtract off size).permit = s.permit := by
  unfold State.afterExtract; split
  · split <;> rfl
  · rfl

/-! ### `writeChunk` -/

@[simp] theorem State.writeChunk_cfg (s : State) : (s.writeChunk).cfg = s.cfg := by simp [State.writeChunk]

@[simp] theorem State.writeChunk_fs (s : State) : (s.writeChunk).fs = s.fs := by simp [State.writeChunk]

@[simp] theorem State.writeChunk_bs (s : State) : (s.writeChunk).bs = (s.afterExtract s.chunkOff s.chunkSize).bs := by simp [State.writeChunk]

@[simp] theorem State.writeChunk_p0x (s : State) : (s.writeChunk).p0x = s.p0x := by simp [State.writeChunk]

@[simp] theorem State.writeChunk_p0y (s : State) : (s.writeChunk).p0y = s.p0y := by simp [State.writeChunk]

@[simp] theorem State.writeChunk_p1x (s : State) : (s.writeChunk).p1x = s.p1x := by simp [State.writeChunk]

@[simp] theorem State.writeChunk_p1y (s : State) : (s.writeChunk).p1y = s.p1y := by simp [State.writeChunk]

@[simp] theorem State.writeChunk_rem (s : State) : (s.writeChunk).rem = s.rem - BitVec.ofNat 32 s.chunkSize := by simp [State.writeChunk]

@[simp] theorem State.writeChunk_fault (s : State) : (s.writeChunk).fault = s.fault := by simp [State.writeChunk]

@[simp] theorem State.writeChunk_trace (s : State) : (s.writeChunk).trace = s.trace ++ [.devWrite (s.chunkBytes s.chunkOff s.chunkSize) s.chunkOff s.chunkSize] := by simp [State.writeChunk]

@[simp] theorem State.writeChunk_resp (s : State) : (s.writeChunk).resp = s.resp := by simp [State.writeChunk]

@[simp] theorem State.writeChunk_host (s : State) : (s.writeChunk).host = s.host := by simp [State.writeChunk]

@[simp] theorem State.writeChunk_pc (s : State) : (s.writeChunk).pc = s.pc := by simp [State.writeChunk]

@[simp] theorem State.writeChunk_ready (s : State) : (s.writeChunk).ready = s.ready := by simp [State.writeChunk]

@[simp] theorem State.writeChunk_permit (s : State) : (s.writeChunk).permit = s.permit := by simp [State.writeChunk]

@[simp] theorem State.writeChunk_draws (s : State) : (s.writeChunk).draws = (s.afterExtract s.chunkOff s.chunkSize).draws := by simp [State.writeChunk]

end Sys2Proof.Machine
end

