-- ==== Sys2Proof/Laws/Stream.lean ====
section
/-!
SUPPORT. The laws of the bit stream (20_memory R61, R62): what a stream read gives bit by bit, what a stream write
changes, and that writes keep the canonical form and the bounds.
-/
namespace Sys2Proof.Machine

/-- One bit of a byte after one bit of it is set. -/
theorem getLsbD_setByteBit (v : Byte) (j : Nat) (b : Bool) (i : Nat) (hj : j < 8) :
    (setByteBit v j b).getLsbD i = if i = j then b else v.getLsbD i := by
  have key : ∀ (v : Byte) (b : Bool) (j i : Fin 8),
      (setByteBit v j.1 b).getLsbD i.1 = if i.1 = j.1 then b else v.getLsbD i.1 := by decide
  by_cases hi : i < 8
  · exact key v b ⟨j, hj⟩ ⟨i, hi⟩
  · rw [BitVec.getLsbD_of_ge _ _ (by omega), if_neg (by omega), BitVec.getLsbD_of_ge _ _ (by omega)]

theorem Memory.wf_setBit (m : Memory) (k : Nat) (b : Bool) (h : Memory.wf m = true) :
    Memory.wf (Memory.setBit m k b) = true := Memory.wf_set _ _ _ h

theorem Memory.within_setBit (n : Nat) (m : Memory) (k : Nat) (b : Bool) (h : Memory.within n m = true)
    (hk : k < 8 * n) : Memory.within n (Memory.setBit m k b) = true :=
  Memory.within_set _ _ _ _ h (by omega)

/-- Setting one stream bit changes that bit alone. -/
theorem Memory.bit_setBit (m : Memory) (k : Nat) (b : Bool) (l : Nat) (h : Memory.wf m = true) :
    Memory.bit (Memory.setBit m k b) l = if l = k then b else Memory.bit m l := by
  unfold Memory.bit Memory.setBit
  rw [Memory.get_set _ _ _ _ h]
  by_cases e : l / 8 = k / 8
  · rw [if_pos e, getLsbD_setByteBit _ _ _ _ (Nat.mod_lt _ (by decide)), e]
    by_cases e' : l % 8 = k % 8
    · rw [if_pos e', if_pos (by omega)]
    · rw [if_neg e', if_neg (by omega)]
  · rw [if_neg e, if_neg (by rintro rfl; exact e rfl)]

theorem Memory.wf_streamWrite (m : Memory) (k v n : Nat) (h : Memory.wf m = true) :
    Memory.wf (Memory.streamWrite m k v n) = true := by
  induction n with
  | zero => exact h
  | succ n ih => exact Memory.wf_setBit _ _ _ ih

theorem Memory.within_streamWrite (N : Nat) (m : Memory) (k v n : Nat) (h : Memory.within N m = true)
    (hk : k + n ≤ 8 * N) : Memory.within N (Memory.streamWrite m k v n) = true := by
  induction n with
  | zero => exact h
  | succ n ih => exact Memory.within_setBit _ _ _ _ (ih (by omega)) (by omega)

/-- A stream write sets its own bits to the value's and changes no other bit (00_scope R17). -/
theorem Memory.bit_streamWrite (m : Memory) (k v n l : Nat) (h : Memory.wf m = true) :
    Memory.bit (Memory.streamWrite m k v n) l =
      if k ≤ l ∧ l < k + n then v.testBit (l - k) else Memory.bit m l := by
  induction n with
  | zero => rw [if_neg (by omega)]; rfl
  | succ n ih =>
    simp only [Memory.streamWrite]
    rw [Memory.bit_setBit _ _ _ _ (Memory.wf_streamWrite _ _ _ _ h), ih]
    by_cases e : l = k + n
    · rw [if_pos e, if_pos (by omega), e, Nat.add_sub_cancel_left]
    · rw [if_neg e]
      by_cases e' : k ≤ l ∧ l < k + n
      · rw [if_pos e', if_pos (by omega)]
      · rw [if_neg e', if_neg (by omega)]

theorem Memory.streamRead_lt (m : Memory) (k n : Nat) : Memory.streamRead m k n < 2 ^ n := by
  induction n with
  | zero => simp [Memory.streamRead]
  | succ n ih =>
    simp only [Memory.streamRead, Nat.pow_succ]
    have : (Memory.bit m (k + n)).toNat ≤ 1 := by cases Memory.bit m (k + n) <;> simp
    have := Nat.mul_le_mul_right (2 ^ n) this
    omega

/-- A stream read gives the stream's bits, the first one least significant (00_scope R17). -/
theorem Memory.testBit_streamRead (m : Memory) (k n j : Nat) :
    (Memory.streamRead m k n).testBit j = (decide (j < n) && Memory.bit m (k + j)) := by
  induction n with
  | zero => simp [Memory.streamRead]
  | succ n ih =>
    have lt := Memory.streamRead_lt m k n
    rw [Memory.streamRead, Nat.add_comm, Nat.mul_comm, Nat.testBit_two_pow_mul_add _ lt, ih]
    by_cases h : j < n
    · simp [h, Nat.lt_succ_of_lt h]
    · rw [if_neg h]
      by_cases e : j = n
      · subst e; cases Memory.bit m (k + j) <;> simp
      · have e1 : ¬ j < n + 1 := by omega
        have : (Memory.bit m (k + n)).toNat.testBit (j - n) = false := by
          have : j - n ≠ 0 := by omega
          cases Memory.bit m (k + n)
          · simp
          · obtain ⟨d, hd⟩ := Nat.exists_eq_succ_of_ne_zero this
            rw [hd]; simp [Nat.testBit_succ]
        simp [this, e1]

/-- A stream read depends only on the bits it covers. -/
theorem Memory.streamRead_congr (m m' : Memory) (k n : Nat)
    (h : ∀ j, j < n → Memory.bit m (k + j) = Memory.bit m' (k + j)) :
    Memory.streamRead m k n = Memory.streamRead m' k n := by
  refine Nat.eq_of_testBit_eq fun j => ?_
  rw [Memory.testBit_streamRead, Memory.testBit_streamRead]
  by_cases hj : j < n
  · rw [h j hj]
  · simp [hj]

/-- A stream read after a stream write of the same bits gives the value, reduced to the width. -/
theorem Memory.streamRead_streamWrite (m : Memory) (k v n : Nat) (h : Memory.wf m = true) :
    Memory.streamRead (Memory.streamWrite m k v n) k n = v % 2 ^ n := by
  refine Nat.eq_of_testBit_eq fun j => ?_
  rw [Memory.testBit_streamRead, Memory.bit_streamWrite _ _ _ _ _ h, Nat.testBit_mod_two_pow]
  by_cases hj : j < n
  · rw [if_pos (by omega), Nat.add_sub_cancel_left]
  · simp [hj]

/-! ### Elements (20_memory R62; 42_packed_container R140, R141) -/

theorem Memory.elem_lt (m : Memory) (e i : Nat) : Memory.elem m e i < 2 ^ e := Memory.streamRead_lt _ _ _

theorem Memory.testBit_elem (m : Memory) (e i j : Nat) :
    (Memory.elem m e i).testBit j = (decide (j < e) && Memory.bit m (i * e + j)) := Memory.testBit_streamRead _ _ _ _

theorem Memory.wf_setElem (m : Memory) (e i v : Nat) (h : Memory.wf m = true) :
    Memory.wf (Memory.setElem m e i v) = true := Memory.wf_streamWrite _ _ _ _ h

/-- Writing an element inside the store keeps the bounds. -/
theorem Memory.within_setElem (N : Nat) (m : Memory) (e i v : Nat) (h : Memory.within N m = true)
    (hi : (i + 1) * e ≤ 8 * N) : Memory.within N (Memory.setElem m e i v) = true :=
  Memory.within_streamWrite _ _ _ _ _ h (by rw [Nat.succ_mul] at hi; exact hi)

/-- Writing an element sets its bits to the value's and changes no other bit. -/
theorem Memory.bit_setElem (m : Memory) (e i v l : Nat) (h : Memory.wf m = true) :
    Memory.bit (Memory.setElem m e i v) l =
      if i * e ≤ l ∧ l < i * e + e then v.testBit (l - i * e) else Memory.bit m l := by
  unfold Memory.setElem
  rw [Memory.bit_streamWrite _ _ _ _ _ h]
  split
  · rw [Nat.testBit_and, mask, Nat.testBit_two_pow_sub_one]
    have : l - i * e < e := by omega
    simp [this]
  · rfl

/-- The element just written reads back as the value, reduced to the element's width; every other one as before. -/
theorem Memory.elem_setElem (m : Memory) (e i v j : Nat) (h : Memory.wf m = true) :
    Memory.elem (Memory.setElem m e i v) e j = if j = i then v % 2 ^ e else Memory.elem m e j := by
  refine Nat.eq_of_testBit_eq fun b => ?_
  rw [Memory.testBit_elem, Memory.bit_setElem _ _ _ _ _ h]
  by_cases hb : b < e
  · by_cases hj : j = i
    · subst hj
      rw [if_pos (by omega), if_pos rfl, Nat.testBit_mod_two_pow, Nat.add_sub_cancel_left]
    · have hn : ¬ (i * e ≤ j * e + b ∧ j * e + b < i * e + e) := by
        rcases Nat.lt_or_gt_of_ne hj with lt | gt
        · have := Nat.mul_le_mul_right e (Nat.succ_le_of_lt lt); rw [Nat.succ_mul] at this; omega
        · have := Nat.mul_le_mul_right e (Nat.succ_le_of_lt gt); rw [Nat.succ_mul] at this; omega
      rw [if_neg hn, if_neg hj, Memory.testBit_elem]
  · by_cases hj : j = i <;> simp [hb, hj, Memory.testBit_elem, Nat.testBit_mod_two_pow]

/-- A byte's bits are its stream bits (20_memory R61). -/
theorem Memory.getLsbD_get (m : Memory) (a j : Nat) (h : j < 8) :
    (Memory.get m a).getLsbD j = Memory.bit m (8 * a + j) := by
  unfold Memory.bit
  rw [show (8 * a + j) / 8 = a by omega, show (8 * a + j) % 8 = j by omega]

/-- Two stores that agree on all stream bits read alike everywhere. -/
theorem Memory.get_congr_of_bits (m m' : Memory) (a : Nat)
    (h : ∀ j, j < 8 → Memory.bit m (8 * a + j) = Memory.bit m' (8 * a + j)) : Memory.get m a = Memory.get m' a :=
  BitVec.eq_of_getLsbD_eq fun j hj => by rw [Memory.getLsbD_get _ _ _ hj, Memory.getLsbD_get _ _ _ hj, h j hj]

/-- Writing one byte sets its eight stream bits and changes no other bit. -/
theorem Memory.bit_set (m : Memory) (a : Nat) (v : Byte) (l : Nat) (h : Memory.wf m = true) :
    Memory.bit (Memory.set m a v) l = if l / 8 = a then v.getLsbD (l % 8) else Memory.bit m l := by
  unfold Memory.bit
  rw [Memory.get_set _ _ _ _ h]
  split <;> rfl

/-- A cleared store's bits. -/
theorem Memory.bit_clear (n : Nat) (m : Memory) (l : Nat) :
    Memory.bit (Memory.clear n m) l = if l / 8 < n then false else Memory.bit m l := by
  unfold Memory.bit
  rw [Memory.get_clear]
  split
  · simp [Memory.unlisted]
  · rfl

end Sys2Proof.Machine
end

