-- ==== Sys2Proof/Laws/Ops.lean ====
section
/-!
SUPPORT. What each shared operation can do, said once, and the inversion of `exec`: if it answers a next state, that
state is the halted answer, a taken fault, or the command's effect with its response.
-/
namespace Sys2Proof.Machine

theorem Outcome_next_inj {s t : State} (h : (Host.Outcome.next s : Result) = .next t) : s = t := by
  cases h; rfl

theorem running_of_Running {s : State} (h : Running s) (b : Result) : running s b = b := by
  rw [running, if_pos h.1, if_pos h.2]

theorem running_of_illFormed {s : State} (h : ¬ s.cfg.wf = true) (b : Result) :
    running s b = .refused .illFormedConfiguration := by
  rw [running, if_neg h]

theorem running_of_halted {s : State} (hw : s.cfg.wf = true) (h : s.fault ≠ 0) (b : Result) :
    running s b = haltedAnswer s := by
  rw [running, if_pos hw, if_neg h]

/-- What `running` can answer. -/
theorem running_next {s t : State} {b : Result} (h : running s b = .next t) :
    s.cfg.wf = true ∧
      ((s.fault = 0 ∧ b = .next t) ∨ (s.fault ≠ 0 ∧ t = { s with resp := faultResponse s.fault })) := by
  unfold running at h
  split at h
  · rename_i hw
    split at h
    · exact ⟨hw, .inl ⟨by assumption, h⟩⟩
    · exact ⟨hw, .inr ⟨by assumption, (Outcome_next_inj h).symm⟩⟩
  · cases h

theorem done_next {s t : State} {res : Word} {flag : Bool} (h : done res flag s = .next t) :
    t = { s with resp := doneResponse res flag } := (Outcome_next_inj h).symm

theorem takeFault_next {s t : State} {c : Cause} (h : takeFault c s = .next t) :
    t = { s with fault := c.code, resp := faultResponse c.code } := (Outcome_next_inj h).symm

theorem checkedField_of_ok {s : State} {sel : Sel} {a o w : Nat} (hr : Running s) (hf : fieldOK o w = true)
    (ha : a < s.cfg.nbytes sel) (b : Result) : checkedField s sel a o w b = b := by
  rw [checkedField, running_of_Running hr, if_pos hf, if_pos ha]

theorem checkedElem_of_ok {s : State} {sel : Sel} {i : Nat} (hr : Running s) (hi : i < s.cfg.count sel) (b : Result) :
    checkedElem s sel i b = b := by
  rw [checkedElem, running_of_Running hr, if_pos hi]

theorem checkedChannel_of_ok {s : State} {sel : Sel} {i off w : Nat} (hr : Running s)
    (hc : chanOK (s.cfg.elemBits sel) off w = true) (hi : i < s.cfg.count sel) (b : Result) :
    checkedChannel s sel i off w b = b := by
  rw [checkedChannel, running_of_Running hr, if_pos hc, if_pos hi]

/-- The effect a command can have on the state, before its response is set. -/
inductive Effect (s : State) : Instr → State → Prop where
  | same (i : Instr) : Effect s i s
  | bfwrR (sel : Sel) (a o w v : Nat) (h : a < s.cfg.nbytes sel) :
      Effect s (.bfwrR sel a o w v) (s.setStoreByte sel a (writeR 8 (s.storeByte sel a) o w v))
  | bfwrL (sel : Sel) (a o w v : Nat) (h : a < s.cfg.nbytes sel) :
      Effect s (.bfwrL sel a o w v) (s.setStoreByte sel a (writeL 8 (s.storeByte sel a) o w v))
  | elwr (sel : Sel) (k v : Nat) (h : k < s.cfg.count sel) : Effect s (.elwr sel k v) (s.elemWrite sel k v)
  | chwrR (sel : Sel) (k off w v : Nat) (h : k < s.cfg.count sel) :
      Effect s (.chwrR sel k off w v)
        (s.elemWrite sel k (writeR (s.cfg.elemBits sel) (s.elemRead sel k) off w v))
  | chwrL (sel : Sel) (k off w v : Nat) (h : k < s.cfg.count sel) :
      Effect s (.chwrL sel k off w v)
        (s.elemWrite sel k (writeL (s.cfg.elemBits sel) (s.elemRead sel k) off w v))
  | clr (sel : Sel) : Effect s (.clr sel) (s.setStore sel (Memory.clear (s.cfg.nbytes sel) (s.store sel)))
  | pwbegin : Effect s .pwbegin s.beginFrame
  | pwdraw (x y : Int) (c : Nat) (h : s.pixelIndex x y < s.cfg.ppp) :
      Effect s (.pwdraw x y c) (s.elemWrite .front (s.pixelIndex x y) c)
  | pwadv (h : s.lastBand = false) : Effect s .pwadv s.advanceBand
  | chunk (hr : s.ready = true) (h : s.rem ≠ 0) (hp : s.rem.toNat ≤ s.cfg.ppp) : Effect s .tdupdate s.writeChunk
  | nextPage (hr : s.ready = true) (h : s.rem = 0) (hl : s.lastBand = false) :
      Effect s .tdupdate s.advanceBand.startPage.writeChunk
  | nextFrame (hr : s.ready = true) (h : s.rem = 0) (hl : s.lastBand = true) (hp : s.permit = true) :
      Effect s .tdupdate s.startFrame.startPage.writeChunk

/-- The states a command can lead to, under a legal configuration. -/
inductive ExecCase (s : State) (i : Instr) : State → Prop where
  | halted (h : s.fault ≠ 0) : ExecCase s i { s with resp := faultResponse s.fault }
  | fault (h : s.fault = 0) (c : Cause) : ExecCase s i { s with fault := c.code, resp := faultResponse c.code }
  | effect (h : s.fault = 0) (u : State) (res : Word) (flag : Bool) (e : Effect s i u) :
      ExecCase s i { u with resp := doneResponse res flag }

theorem ExecCase.of_running {s t : State} {i : Instr} {b : Result} (h : running s b = .next t)
    (hb : s.fault = 0 → b = .next t → ExecCase s i t) : s.cfg.wf = true ∧ ExecCase s i t := by
  obtain ⟨hw, ⟨hf, e⟩ | ⟨hf, rfl⟩⟩ := running_next h
  · exact ⟨hw, hb hf e⟩
  · exact ⟨hw, .halted hf⟩

theorem ExecCase.of_done {s t u : State} {i : Instr} {res : Word} {flag : Bool} (hf : s.fault = 0) (e : Effect s i u)
    (h : done res flag u = .next t) : ExecCase s i t := done_next h ▸ .effect hf u res flag e

theorem ExecCase.of_fault {s t : State} {i : Instr} {c : Cause} (hf : s.fault = 0) (h : takeFault c s = .next t) :
    ExecCase s i t := takeFault_next h ▸ .fault hf c

theorem ExecCase.of_checkedField {s t : State} {i : Instr} {sel : Sel} {a o w : Nat} {b : Result}
    (h : checkedField s sel a o w b = .next t)
    (hb : s.fault = 0 → a < s.cfg.nbytes sel → b = .next t → ExecCase s i t) : s.cfg.wf = true ∧ ExecCase s i t :=
  ExecCase.of_running h fun hf e => by
    split at e
    · split at e
      · exact hb hf (by assumption) e
      · exact .of_fault hf e
    · exact .of_fault hf e

theorem ExecCase.of_checkedElem {s t : State} {i : Instr} {sel : Sel} {k : Nat} {b : Result}
    (h : checkedElem s sel k b = .next t)
    (hb : s.fault = 0 → k < s.cfg.count sel → b = .next t → ExecCase s i t) : s.cfg.wf = true ∧ ExecCase s i t :=
  ExecCase.of_running h fun hf e => by
    split at e
    · exact hb hf (by assumption) e
    · exact .of_fault hf e

theorem ExecCase.of_checkedChannel {s t : State} {i : Instr} {sel : Sel} {k off w : Nat} {b : Result}
    (h : checkedChannel s sel k off w b = .next t)
    (hb : s.fault = 0 → k < s.cfg.count sel → b = .next t → ExecCase s i t) : s.cfg.wf = true ∧ ExecCase s i t :=
  ExecCase.of_running h fun hf e => by
    split at e
    · split at e
      · exact hb hf (by assumption) e
      · exact .of_fault hf e
    · exact .of_fault hf e

/-- `sendChunk` answers the state after `WRITE_CHUNK`, with its size. -/
theorem sendChunk_next {s t : State} (h : sendChunk s = .next t) :
    s.rem.toNat ≤ s.cfg.ppp ∧ t = { s.writeChunk with resp := doneResponse (unsignedResult s.chunkSize) true } := by
  unfold sendChunk at h
  split at h
  · exact ⟨by assumption, done_next h⟩
  · cases h

/-- The inversion of `exec`: everything a command can do when it answers a next state. -/
theorem exec_cases {s t : State} {i : Instr} (h : exec i s = .next t) : s.cfg.wf = true ∧ ExecCase s i t := by
  cases i with
  | bfrdR sel a o w => exact ExecCase.of_checkedField h fun hf _ e => .of_done hf (.same _) e
  | bfrdL sel a o w => exact ExecCase.of_checkedField h fun hf _ e => .of_done hf (.same _) e
  | bfwrR sel a o w v => exact ExecCase.of_checkedField h fun hf ha e => .of_done hf (.bfwrR _ _ _ _ _ ha) e
  | bfwrL sel a o w v => exact ExecCase.of_checkedField h fun hf ha e => .of_done hf (.bfwrL _ _ _ _ _ ha) e
  | elrd sel k => exact ExecCase.of_checkedElem h fun hf _ e => .of_done hf (.same _) e
  | elwr sel k v => exact ExecCase.of_checkedElem h fun hf hk e => .of_done hf (.elwr _ _ _ hk) e
  | chrdR sel k off w => exact ExecCase.of_checkedChannel h fun hf _ e => .of_done hf (.same _) e
  | chrdL sel k off w => exact ExecCase.of_checkedChannel h fun hf _ e => .of_done hf (.same _) e
  | chwrR sel k off w v => exact ExecCase.of_checkedChannel h fun hf hk e => .of_done hf (.chwrR _ _ _ _ _ hk) e
  | chwrL sel k off w v => exact ExecCase.of_checkedChannel h fun hf hk e => .of_done hf (.chwrL _ _ _ _ _ hk) e
  | clr sel => exact ExecCase.of_running h fun hf e => .of_done hf (.clr _) e
  | itbeg sel => exact ExecCase.of_running h fun hf e => .of_done hf (.same _) e
  | itend sel => exact ExecCase.of_running h fun hf e => .of_done hf (.same _) e
  | itadd sel pos n =>
    refine ExecCase.of_running h fun hf e => ?_
    split at e
    · exact .of_fault hf e
    · split at e
      · exact .of_fault hf e
      · exact .of_done hf (.same _) e
  | itdiff sel pos2 pos1 =>
    refine ExecCase.of_running h fun hf e => ?_
    split at e
    · exact .of_fault hf e
    · exact .of_done hf (.same _) e
  | iteq sel pos1 pos2 =>
    refine ExecCase.of_running h fun hf e => ?_
    split at e
    · exact .of_fault hf e
    · exact .of_done hf (.same _) e
  | pwbegin => exact ExecCase.of_running h fun hf e => .of_done hf .pwbegin e
  | pwdraw x y c =>
    refine ExecCase.of_running h fun hf e => ?_
    split at e
    · split at e
      · exact .of_done hf (.pwdraw _ _ _ (by assumption)) e
      · cases e
    · exact .of_done hf (.same _) e
  | pwread x y =>
    refine ExecCase.of_running h fun hf e => ?_
    split at e
    · split at e
      · exact .of_done hf (.same _) e
      · cases e
    · exact .of_done hf (.same _) e
  | pwadv =>
    refine ExecCase.of_running h fun hf e => ?_
    split at e
    · exact .of_done hf (.same _) e
    · exact .of_done hf (.pwadv (by simpa using ‹¬s.lastBand = true›)) e
  | tdupdate =>
    refine ExecCase.of_running h fun hf e => ?_
    split at e
    · rename_i hr
      split at e
      · rename_i h0
        obtain ⟨hp, rfl⟩ := sendChunk_next e
        exact .effect hf _ _ _ (.chunk hr h0 hp)
      · rename_i h0
        have h0 : s.rem = 0 := by simpa using h0
        split at e
        · rename_i hl
          split at e
          · obtain ⟨-, rfl⟩ := sendChunk_next e
            exact .effect hf _ _ _ (.nextFrame hr h0 hl (by assumption))
          · exact .of_done hf (.same _) e
        · rename_i hl
          obtain ⟨-, rfl⟩ := sendChunk_next e
          exact .effect hf _ _ _ (.nextPage hr h0 (by simpa using hl))
    · exact .of_done hf (.same _) e

/-! ### Reading and writing a selected store -/

theorem store_setStore (s : State) (sel : Sel) (m : Memory) : (s.setStore sel m).store sel = m := by
  simp [State.setStore, State.store]

theorem wf_store {s : State} (h : StoresOK s) (sel : Sel) : Memory.wf (s.store sel) = true := by
  unfold State.store
  cases s.cfg.storeOf sel
  · exact h.1
  · exact h.2.2.1

theorem within_store {s : State} (h : StoresOK s) (sel : Sel) :
    Memory.within (s.cfg.nbytes sel) (s.store sel) = true := by
  unfold State.store Config.nbytes
  cases s.cfg.storeOf sel
  · exact h.2.1
  · exact h.2.2.2

theorem storesOK_setStore {s : State} (h : StoresOK s) (sel : Sel) (m : Memory) (hm : Memory.wf m = true)
    (hi : Memory.within (s.cfg.nbytes sel) m = true) : StoresOK (s.setStore sel m) := by
  unfold State.setStore
  unfold Config.nbytes at hi
  cases hs : s.cfg.storeOf sel <;> rw [hs] at hi
  · exact ⟨hm, hi, h.2.2.1, h.2.2.2⟩
  · exact ⟨h.1, h.2.1, hm, hi⟩

theorem storeByte_lt (s : State) (sel : Sel) (a : Nat) : s.storeByte sel a < 2 ^ 8 :=
  (Memory.get (s.store sel) a).isLt

theorem testBit_storeByte (s : State) (sel : Sel) (a j : Nat) :
    (s.storeByte sel a).testBit j = (decide (j < 8) && Memory.bit (s.store sel) (8 * a + j)) := by
  unfold State.storeByte
  rw [BitVec.testBit_toNat]
  by_cases h : j < 8
  · rw [Memory.getLsbD_get _ _ _ h]; simp [h]
  · rw [BitVec.getLsbD_of_ge _ _ (by omega)]; simp [h]

theorem testBit_elemRead (s : State) (sel : Sel) (i j : Nat) :
    (s.elemRead sel i).testBit j =
      (decide (j < s.cfg.elemBits sel) && Memory.bit (s.store sel) (i * s.cfg.elemBits sel + j)) :=
  Memory.testBit_elem _ _ _ _

/-- An element read after an element write (42_packed_container R161). -/
theorem elemRead_elemWrite {s : State} (hs : StoresOK s) (sel : Sel) (i v j : Nat) :
    (s.elemWrite sel i v).elemRead sel j =
      if j = i then v % 2 ^ s.cfg.elemBits sel else s.elemRead sel j := by
  unfold State.elemRead
  rw [State.elemWrite_cfg, State.elemWrite, store_setStore, Memory.elem_setElem _ _ _ _ _ (wf_store hs sel)]

theorem getLsbD_unsignedResult (n j : Nat) (h : n < 2 ^ 32) : (unsignedResult n).getLsbD j = n.testBit j := by
  rw [unsignedResult, BitVec.getLsbD_ofNat]
  by_cases hj : j < 32
  · simp [hj]
  · have : n.testBit j = false :=
      Nat.testBit_lt_two_pow (Nat.lt_of_lt_of_le h (Nat.pow_le_pow_right (by decide) (by omega)))
    simp [this]

end Sys2Proof.Machine
end

