-- ==== Sys2Proof/Laws/PerInstr.lean ====
section
/-!
SUPPORT. Facts about commands as syntax, one lemma for each constructor of `Instr`.
-/

/-! ### The encoded word belongs to the command's own row of the opcode map (30_encoding R96) -/
namespace Sys2Proof.Laws.EncodedWord

/-- The command word of the encoding agrees with `match` on `mask` for the row that carries the command's mnemonic. -/
def Statement (i : Instr) : Prop :=
  ∃ r ∈ opcodeRows, r.mnemonic = i.mnemonic ∧ (encode i).cmd &&& r.mask = r.pattern

theorem bfrdR (sel : Sel) (a o w : Nat) : Statement (.bfrdR sel a o w) := by
  cases sel <;> exact ⟨opcodeRows[0], List.getElem_mem _, rfl, by simp only [encode, Sel.bit]; decide⟩

theorem bfrdL (sel : Sel) (a o w : Nat) : Statement (.bfrdL sel a o w) := by
  cases sel <;> exact ⟨opcodeRows[1], List.getElem_mem _, rfl, by simp only [encode, Sel.bit]; decide⟩

theorem bfwrR (sel : Sel) (a o w v : Nat) : Statement (.bfwrR sel a o w v) := by
  cases sel <;> exact ⟨opcodeRows[2], List.getElem_mem _, rfl, by simp only [encode, Sel.bit]; decide⟩

theorem bfwrL (sel : Sel) (a o w v : Nat) : Statement (.bfwrL sel a o w v) := by
  cases sel <;> exact ⟨opcodeRows[3], List.getElem_mem _, rfl, by simp only [encode, Sel.bit]; decide⟩

theorem elrd (sel : Sel) (i : Nat) : Statement (.elrd sel i) := by
  cases sel <;> exact ⟨opcodeRows[4], List.getElem_mem _, rfl, by simp only [encode, Sel.bit]; decide⟩

theorem elwr (sel : Sel) (i v : Nat) : Statement (.elwr sel i v) := by
  cases sel <;> exact ⟨opcodeRows[5], List.getElem_mem _, rfl, by simp only [encode, Sel.bit]; decide⟩

theorem chrdR (sel : Sel) (i off w : Nat) : Statement (.chrdR sel i off w) := by
  cases sel <;> exact ⟨opcodeRows[6], List.getElem_mem _, rfl, by simp only [encode, Sel.bit]; decide⟩

theorem chrdL (sel : Sel) (i off w : Nat) : Statement (.chrdL sel i off w) := by
  cases sel <;> exact ⟨opcodeRows[7], List.getElem_mem _, rfl, by simp only [encode, Sel.bit]; decide⟩

theorem chwrR (sel : Sel) (i off w v : Nat) : Statement (.chwrR sel i off w v) := by
  cases sel <;> exact ⟨opcodeRows[8], List.getElem_mem _, rfl, by simp only [encode, Sel.bit]; decide⟩

theorem chwrL (sel : Sel) (i off w v : Nat) : Statement (.chwrL sel i off w v) := by
  cases sel <;> exact ⟨opcodeRows[9], List.getElem_mem _, rfl, by simp only [encode, Sel.bit]; decide⟩

theorem clr (sel : Sel) : Statement (.clr sel) := by
  cases sel <;> exact ⟨opcodeRows[10], List.getElem_mem _, rfl, by simp only [encode, Sel.bit]; decide⟩

theorem itbeg (sel : Sel) : Statement (.itbeg sel) := by
  cases sel <;> exact ⟨opcodeRows[11], List.getElem_mem _, rfl, by simp only [encode, Sel.bit]; decide⟩

theorem itend (sel : Sel) : Statement (.itend sel) := by
  cases sel <;> exact ⟨opcodeRows[12], List.getElem_mem _, rfl, by simp only [encode, Sel.bit]; decide⟩

theorem itadd (sel : Sel) (pos : Nat) (n : Int) : Statement (.itadd sel pos n) := by
  cases sel <;> exact ⟨opcodeRows[13], List.getElem_mem _, rfl, by simp only [encode, Sel.bit]; decide⟩

theorem itdiff (sel : Sel) (pos2 pos1 : Nat) : Statement (.itdiff sel pos2 pos1) := by
  cases sel <;> exact ⟨opcodeRows[14], List.getElem_mem _, rfl, by simp only [encode, Sel.bit]; decide⟩

theorem iteq (sel : Sel) (pos1 pos2 : Nat) : Statement (.iteq sel pos1 pos2) := by
  cases sel <;> exact ⟨opcodeRows[15], List.getElem_mem _, rfl, by simp only [encode, Sel.bit]; decide⟩

theorem pwbegin : Statement .pwbegin :=
  ⟨opcodeRows[16], List.getElem_mem _, rfl, by simp only [encode]; decide⟩

theorem pwdraw (x y : Int) (c : Nat) : Statement (.pwdraw x y c) :=
  ⟨opcodeRows[17], List.getElem_mem _, rfl, by simp only [encode]; decide⟩

theorem pwread (x y : Int) : Statement (.pwread x y) :=
  ⟨opcodeRows[18], List.getElem_mem _, rfl, by simp only [encode]; decide⟩

theorem pwadv : Statement .pwadv :=
  ⟨opcodeRows[19], List.getElem_mem _, rfl, by simp only [encode]; decide⟩

theorem tdupdate : Statement .tdupdate :=
  ⟨opcodeRows[20], List.getElem_mem _, rfl, by simp only [encode]; decide⟩

/-- Every command's word belongs to its own row. -/
theorem all (i : Instr) : Statement i := by
  cases i with
  | bfrdR sel a o w => exact bfrdR sel a o w
  | bfrdL sel a o w => exact bfrdL sel a o w
  | bfwrR sel a o w v => exact bfwrR sel a o w v
  | bfwrL sel a o w v => exact bfwrL sel a o w v
  | elrd sel i => exact elrd sel i
  | elwr sel i v => exact elwr sel i v
  | chrdR sel i off w => exact chrdR sel i off w
  | chrdL sel i off w => exact chrdL sel i off w
  | chwrR sel i off w v => exact chwrR sel i off w v
  | chwrL sel i off w v => exact chwrL sel i off w v
  | clr sel => exact clr sel
  | itbeg sel => exact itbeg sel
  | itend sel => exact itend sel
  | itadd sel pos n => exact itadd sel pos n
  | itdiff sel pos2 pos1 => exact itdiff sel pos2 pos1
  | iteq sel pos1 pos2 => exact iteq sel pos1 pos2
  | pwbegin => exact pwbegin
  | pwdraw x y c => exact pwdraw x y c
  | pwread x y => exact pwread x y
  | pwadv => exact pwadv
  | tdupdate => exact tdupdate

end Sys2Proof.Laws.EncodedWord
end

