-- ==== Sys2Proof/Laws/Window.lean ====
section
/-!
SUPPORT. Band arithmetic: under a well-formed configuration no band field wraps (00_scope R11 CFG-8, R16), and what the
frame start and the advance make of the band (43_page_window R185, R186).
-/
namespace Sys2Proof.Machine

theorem toInt_ofNat_small {n : Nat} (h : n ≤ 2147483647) : (BitVec.ofNat 32 n).toInt = n := by
  rw [BitVec.toInt_eq_toNat_of_lt] <;> simp only [BitVec.toNat_ofNat] <;> omega

theorem toNat_ofNat_small {n : Nat} (h : n ≤ 2147483647) : (BitVec.ofNat 32 n).toNat = n := by
  rw [BitVec.toNat_ofNat]; omega

/-- Moving a band field down does not wrap while the sum stays in the frame. -/
theorem toInt_add_small {x : Word} {n : Nat} (h0 : 0 ≤ x.toInt) (h : x.toInt + n ≤ 2147483647) :
    (x + BitVec.ofNat 32 n).toInt = x.toInt + n := by
  rw [BitVec.toInt_add, toInt_ofNat_small (by omega), Int.bmod_eq_of_le] <;> omega

theorem lastBand_iff (s : State) : s.lastBand = true ↔ (s.cfg.height : Int) - 1 ≤ s.p1y.toInt := by
  simp [State.lastBand]

theorem lastBand_eq_false_iff (s : State) : s.lastBand = false ↔ s.p1y.toInt < (s.cfg.height : Int) - 1 := by
  rw [← Bool.not_eq_true, lastBand_iff]; omega

/-- The band's bottom row in terms of its index among the bands. -/
theorem band_bottom {c : Config} (h : c.wf = true) {k : Nat} (hk : k < c.pageCount) :
    (k + 1) * c.pageHeight ≤ c.height ∧ ((k + 1) * c.pageHeight = c.height ↔ k + 1 = c.pageCount) := by
  have h1 := Config.pageHeight_mul h
  have h2 := Config.pageHeight_pos h
  refine ⟨h1 ▸ Nat.mul_le_mul_right _ hk, ⟨fun e => ?_, fun e => by rw [e, h1]⟩⟩
  exact Nat.eq_of_mul_eq_mul_right h2 (e.trans h1.symm)

/-- The frame start sets the band invariant, at band 0. -/
theorem beginFrame_band {s : State} (h : s.cfg.wf = true) :
    s.beginFrame.p0x.toInt = 0 ∧ s.beginFrame.p0y.toInt = 0 ∧ s.beginFrame.p1x.toInt = (s.cfg.width : Int) - 1 ∧
      s.beginFrame.p1y.toInt = (s.cfg.pageHeight : Int) - 1 := by
  have h1 := Config.width_pos h
  have h2 := Config.width_le h
  have h3 := Config.pageHeight_pos h
  have h4 := Nat.le_trans (Config.pageHeight_le h) (Config.height_le h)
  refine ⟨rfl, rfl, ?_, ?_⟩
  · rw [State.beginFrame_p1x, toInt_ofNat_small (by omega)]; omega
  · rw [State.beginFrame_p1y, toInt_ofNat_small (by omega)]; omega

/-- The advance moves the band to the next one and keeps the band invariant. -/
theorem advanceBand_band {s : State} {k : Nat} (h : s.cfg.wf = true) (hk : k < s.cfg.pageCount)
    (h0 : s.p0y.toInt = (k : Int) * s.cfg.pageHeight) (h1 : s.p1y.toInt = s.p0y.toInt + s.cfg.pageHeight - 1)
    (hl : s.lastBand = false) :
    k + 1 < s.cfg.pageCount ∧ s.advanceBand.p0y.toInt = s.p0y.toInt + s.cfg.pageHeight ∧
      s.advanceBand.p1y.toInt = s.p1y.toInt + s.cfg.pageHeight := by
  have hb := band_bottom h hk
  have hp := Config.pageHeight_pos h
  have hh := Config.height_le h
  rw [lastBand_eq_false_iff] at hl
  have e : ((k + 1 : Nat) * s.cfg.pageHeight : Int) = (k : Int) * s.cfg.pageHeight + s.cfg.pageHeight := by
    push_cast; ring
  have h5 : ((k + 1) * s.cfg.pageHeight : Nat) < s.cfg.height := by
    zify; push_cast at e; omega
  have h6 : k + 1 < s.cfg.pageCount := by
    rcases Nat.lt_or_ge (k + 1) s.cfg.pageCount with x | x
    · exact x
    · have := hb.2.2 (by omega); omega
  have h7 := (band_bottom h h6).1
  have e2 : ((k + 1 + 1 : Nat) * s.cfg.pageHeight : Int) =
      (k : Int) * s.cfg.pageHeight + s.cfg.pageHeight + s.cfg.pageHeight := by push_cast; ring
  have h8 : (k : Int) * s.cfg.pageHeight + s.cfg.pageHeight + s.cfg.pageHeight ≤ s.cfg.height := by
    rw [← e2]; exact_mod_cast h7
  have h9 : (0 : Int) ≤ (k : Int) * s.cfg.pageHeight := by positivity
  refine ⟨h6, ?_, ?_⟩
  · exact toInt_add_small (by omega) (by omega)
  · exact toInt_add_small (by omega) (by omega)

/-- A pixel of the resident band has page-relative coordinates inside the page. -/
theorem inBand_relative {s : State} {x y : Int} (hb : BandOK s) (h : s.inBand x y = true) :
    (x - s.p0x.toInt).toNat < s.cfg.width ∧ (y - s.p0y.toInt).toNat < s.cfg.pageHeight ∧
      0 ≤ x - s.p0x.toInt ∧ 0 ≤ y - s.p0y.toInt := by
  obtain ⟨h1, h2, k, -, h4, h5⟩ := hb
  simp only [State.inBand, Bool.and_eq_true, decide_eq_true_eq] at h
  omega

/-- The mapping stays inside the page (43_page_window R180, R181). -/
theorem Config.mapIndex_lt {c : Config} (h : c.wf = true) {x y : Nat} (hx : x < c.width) (hy : y < c.pageHeight) :
    c.mapIndex x y < c.ppp := by
  unfold Config.mapIndex Config.ppp
  cases hm : c.mapping with
  | rowMajor =>
    have := Nat.mul_le_mul_right c.width (Nat.succ_le_of_lt hy)
    rw [Nat.succ_mul] at this
    rw [Nat.mul_comm c.width]; simp only; omega
  | banked =>
    have h8 := Config.pageHeight_mod h hm
    obtain ⟨q, hq⟩ : ∃ q, c.pageHeight = 8 * q := ⟨c.pageHeight / 8, by omega⟩
    have hy8 : y / 8 + 1 ≤ q := by omega
    have := Nat.mul_le_mul_right (8 * c.width) hy8
    rw [hq]
    have e1 : c.width * (8 * q) = q * (8 * c.width) := by ring
    have e2 : 8 * (y / 8) * c.width = y / 8 * (8 * c.width) := by ring
    rw [Nat.add_mul, Nat.one_mul] at this
    simp only; rw [e1, e2]
    have : y % 8 < 8 := Nat.mod_lt _ (by decide)
    omega

/-- Two pixels of a page with one index are one pixel, for both mappings. -/
theorem Config.mapIndex_inj {c : Config} (h : c.wf = true) {x y x' y' : Nat} (hx : x < c.width) (hx' : x' < c.width)
    (he : c.mapIndex x y = c.mapIndex x' y') : x = x' ∧ y = y' := by
  have hw := Config.width_pos h
  have row : ∀ {q r : Nat}, r < c.width → (q * c.width + r) / c.width = q := fun hr => by
    rw [Nat.add_comm, Nat.add_mul_div_right _ _ hw, Nat.div_eq_of_lt hr, Nat.zero_add]
  unfold Config.mapIndex at he
  cases hm : c.mapping with
  | rowMajor =>
    simp only [hm] at he
    have : y = y' := by rw [← row (q := y) hx, he, row hx']
    subst this; omega
  | banked =>
    simp only [hm, Nat.mul_assoc] at he
    have m1 := Nat.mod_lt y (show 0 < 8 by decide)
    have m2 := Nat.mod_lt y' (show 0 < 8 by decide)
    have a2 : y / 8 * c.width + x = y' / 8 * c.width + x' := by omega
    have : y / 8 = y' / 8 := by rw [← row (q := y / 8) hx, a2, row hx']
    rw [this] at a2
    constructor <;> omega

/-- The bottom and the top row of the resident band lie in the frame. -/
theorem band_in_frame {s : State} (hw : s.cfg.wf = true) (hb : BandOK s) :
    0 ≤ s.p0y.toInt ∧ s.p0y.toInt ≤ s.p1y.toInt ∧ s.p1y.toInt ≤ (s.cfg.height : Int) - 1 := by
  obtain ⟨-, -, n, hn, b4, b5⟩ := hb
  have h1 := (band_bottom hw hn).1
  have h2 := Config.pageHeight_pos hw
  have e : ((n + 1 : Nat) * s.cfg.pageHeight : Int) = (n : Int) * s.cfg.pageHeight + s.cfg.pageHeight := by
    push_cast; ring
  have h3 : ((n + 1 : Nat) * s.cfg.pageHeight : Int) ≤ s.cfg.height := by exact_mod_cast h1
  have h9 : (0 : Int) ≤ (n : Int) * s.cfg.pageHeight := by positivity
  omega

end Sys2Proof.Machine
end

