-- ==== Sys2Proof/Laws/Transfer.lean ====
section
/-!
SUPPORT. The chunk procedures: what a conversion leaves in the scratch store (44_transfer R216), the lengths of the
chunk bytes (R217), and the counter after a chunk (R214).
-/
namespace Sys2Proof.Machine

theorem wf_convertChunk (c : Config) (fs : Memory) (off size : Nat) (bs : Memory) (h : Memory.wf bs = true) :
    Memory.wf (convertChunk c fs off size bs) = true := by
  induction size with
  | zero => exact h
  | succ n ih => exact Memory.wf_setElem _ _ _ _ ih

/-- A conversion of at most as many elements as the scratch store holds stays inside it (44_transfer R226). -/
theorem within_convertChunk (N : Nat) (c : Config) (fs : Memory) (off size : Nat) (bs : Memory)
    (h : Memory.within N bs = true) (hs : size * c.eb ≤ 8 * N) :
    Memory.within N (convertChunk c fs off size bs) = true := by
  induction size with
  | zero => exact h
  | succ n ih =>
    refine Memory.within_setElem _ _ _ _ _ (ih ?_) hs
    rw [Nat.succ_mul] at hs; omega

/-- The elements of the chunk are the conversions of the frontend elements (44_transfer R216). -/
theorem elem_convertChunk {c : Config} (hw : c.wf = true) (hb : c.bridge = .converting) (fs : Memory)
    (off size : Nat) (bs : Memory) (h : Memory.wf bs = true) (j : Nat) :
    Memory.elem (convertChunk c fs off size bs) c.eb j =
      if j < size then c.convertOf (Memory.elem fs c.ef (off + j)) else Memory.elem bs c.eb j := by
  induction size with
  | zero => rw [if_neg (Nat.not_lt_zero _)]; rfl
  | succ n ih =>
    rw [convertChunk, Memory.elem_setElem _ _ _ _ _ (wf_convertChunk _ _ _ _ _ h), ih]
    by_cases e : j = n
    · subst e
      rw [if_pos rfl, if_pos (Nat.lt_succ_self _), Nat.mod_eq_of_lt (Config.convertOf_lt hw hb _)]
    · rw [if_neg e]
      by_cases e' : j < n
      · rw [if_pos e', if_pos (by omega)]
      · rw [if_neg e', if_neg (by omega)]

/-- The stream bits of the scratch store from element `size` on keep their values (44_transfer R216). -/
theorem bit_convertChunk_ge (c : Config) (fs : Memory) (off size : Nat) (bs : Memory) (h : Memory.wf bs = true)
    (l : Nat) (hl : size * c.eb ≤ l) : Memory.bit (convertChunk c fs off size bs) l = Memory.bit bs l := by
  induction size with
  | zero => rfl
  | succ n ih =>
    rw [Nat.succ_mul] at hl
    rw [convertChunk, Memory.bit_setElem _ _ _ _ _ (wf_convertChunk _ _ _ _ _ h), if_neg (by omega), ih (by omega)]

theorem length_chunkDraw (d n : Nat) : (chunkDraw d n).length = n := by simp [chunkDraw]

/-- A chunk carries `ceil(size * EB / 8)` bytes (44_transfer R217). -/
theorem length_chunkBytes {s : State} (h : s.cfg.wf = true) (off size : Nat) :
    (s.chunkBytes off size).length = ceilDiv (size * s.cfg.eb) 8 := by
  unfold State.chunkBytes
  cases hb : s.cfg.bridge with
  | identity =>
    simp only
    split
    · rw [Memory.length_bytes, Config.ef_eq_eb h hb]
    · rw [length_chunkDraw, Config.ef_eq_eb h hb]
  | converting => exact Memory.length_bytes _ _ _

theorem chunkSize_le (s : State) : s.chunkSize ≤ s.rem.toNat ∧ s.chunkSize ≤ s.cfg.maxChunk :=
  ⟨Nat.min_le_right _ _, Nat.min_le_left _ _⟩

/-- A chunk is not empty (44_transfer R214). -/
theorem chunkSize_pos {s : State} (h : s.cfg.wf = true) (hr : s.rem ≠ 0) : 1 ≤ s.chunkSize := by
  have h1 := Config.maxChunk_pos h
  have h2 : s.rem.toNat ≠ 0 := fun e => hr (BitVec.eq_of_toNat_eq e)
  unfold State.chunkSize; omega

/-- A chunk decreases the counter by its size (44_transfer R214). -/
theorem writeChunk_rem_toNat (s : State) : s.writeChunk.rem.toNat = s.rem.toNat - s.chunkSize := by
  have h1 := (chunkSize_le s).1
  have h2 := s.rem.isLt
  rw [State.writeChunk_rem, BitVec.toNat_sub, BitVec.toNat_ofNat]
  omega

theorem startPage_rem_toNat {s : State} (h : s.cfg.wf = true) : s.startPage.rem.toNat = s.cfg.ppp :=
  toNat_ofNat_small (Config.ppp_le h)

@[simp] theorem afterExtract_bs_of_identity (s : State) (off size : Nat) (h : s.cfg.bridge = .identity) :
    (s.afterExtract off size).bs = s.bs := by
  unfold State.afterExtract; rw [h]; simp only; split <;> rfl

@[simp] theorem afterExtract_bs_of_converting (s : State) (off size : Nat) (h : s.cfg.bridge = .converting) :
    (s.afterExtract off size).bs = convertChunk s.cfg s.fs off size s.bs := by
  unfold State.afterExtract; rw [h]

/-- All that `WRITE_CHUNK` changes. -/
theorem writeChunk_shape (s : State) :
    s.writeChunk =
      { s with
        bs := s.writeChunk.bs
        draws := s.writeChunk.draws
        rem := s.writeChunk.rem
        trace := s.trace ++ [.devWrite (s.chunkBytes s.chunkOff s.chunkSize) s.chunkOff s.chunkSize] } := by
  unfold State.writeChunk State.afterExtract State.emit
  cases s.cfg.bridge <;> simp only
  split <;> rfl

/-- An identity chunk on a byte boundary is read from the store and is no draw (44_transfer R215). -/
theorem chunk_of_aligned {s : State} {off size : Nat} (hb : s.cfg.bridge = .identity) (h : off * s.cfg.ef % 8 = 0) :
    s.chunkBytes off size = Memory.bytes s.fs (off * s.cfg.ef / 8) (ceilDiv (size * s.cfg.ef) 8) ∧
      (s.afterExtract off size).draws = s.draws := by
  unfold State.chunkBytes State.afterExtract
  rw [hb]; simp only [if_pos h, and_self]

/-- Any other identity chunk is the next draw (44_transfer R218). -/
theorem chunk_of_unaligned {s : State} {off size : Nat} (hb : s.cfg.bridge = .identity) (h : off * s.cfg.ef % 8 ≠ 0) :
    s.chunkBytes off size = chunkDraw s.draws (ceilDiv (size * s.cfg.ef) 8) ∧
      (s.afterExtract off size).draws = s.draws + 1 := by
  unfold State.chunkBytes State.afterExtract
  rw [hb]; simp only [if_neg h, and_self]

/-- A converting chunk is read from the scratch store as the conversions left it (44_transfer R216). -/
theorem chunkBytes_of_converting {s : State} (off size : Nat) (hb : s.cfg.bridge = .converting) :
    s.chunkBytes off size = Memory.bytes (s.afterExtract off size).bs 0 (ceilDiv (size * s.cfg.eb) 8) := by
  rw [afterExtract_bs_of_converting _ _ _ hb, State.chunkBytes, hb]

/-- The state whose chunk a ready update sends: the one it is issued in, or the one that begins the next page or the
next frame (44_transfer R220). -/
def State.beforeChunk (s : State) : State :=
  if s.rem ≠ 0 then s else if s.lastBand then s.startFrame.startPage else s.advanceBand.startPage

/-- Which of its three branches an update that sends a chunk takes (44_transfer R220), with the state it sends from. -/
theorem beforeChunk_cases (s : State) :
    (s.rem ≠ 0 ∧ s.beforeChunk = s) ∨ (Idle s ∧ s.beforeChunk = s.startFrame.startPage) ∨
      (PageExhausted s ∧ s.beforeChunk = s.advanceBand.startPage) := by
  unfold State.beforeChunk Idle PageExhausted
  by_cases h : s.rem = 0
  · cases hl : s.lastBand <;> simp [h]
  · exact .inl ⟨h, if_pos h⟩

@[simp] theorem State.beforeChunk_cfg (s : State) : s.beforeChunk.cfg = s.cfg := by
  unfold State.beforeChunk; split_ifs <;> rfl

@[simp] theorem State.beforeChunk_bs (s : State) : s.beforeChunk.bs = s.bs := by
  unfold State.beforeChunk; split_ifs <;> rfl

@[simp] theorem State.beforeChunk_draws (s : State) : s.beforeChunk.draws = s.draws := by
  unfold State.beforeChunk; split_ifs <;> rfl

/-- The pixels left when the chunk is sent: a page just begun has all of them (44_transfer R213). -/
theorem beforeChunk_rem_toNat {s : State} (h : s.cfg.wf = true) :
    s.beforeChunk.rem.toNat = if s.rem = 0 then s.cfg.ppp else s.rem.toNat := by
  unfold State.beforeChunk
  by_cases hr : s.rem = 0
  · rw [if_neg (fun e => e hr), if_pos hr]
    split
    · exact startPage_rem_toNat (s := s.startFrame) h
    · exact startPage_rem_toNat (s := s.advanceBand) h
  · rw [if_pos hr, if_neg hr]

/-- A ready update in which a chunk is due sends it, and answers its size (44_transfer R220). -/
theorem exec_tdupdate_of_sends {s : State} (hr : Running s) (h1 : s.ready = true) (hs : Sends s)
    (hp : s.rem.toNat ≤ s.cfg.ppp) :
    exec .tdupdate s =
      .next { s.beforeChunk.writeChunk with resp := doneResponse (unsignedResult s.beforeChunk.chunkSize) true } := by
  have send : ∀ u : State, u.rem.toNat ≤ u.cfg.ppp →
      sendChunk u = .next { u.writeChunk with resp := doneResponse (unsignedResult u.chunkSize) true } :=
    fun u h => if_pos h
  simp only [exec, execTdupdate]
  rw [running_of_Running hr, if_pos h1]
  rcases beforeChunk_cases s with ⟨h, e⟩ | ⟨⟨h, hl⟩, e⟩ | ⟨⟨h, hl⟩, e⟩ <;> rw [e]
  · rw [if_pos h, send s hp]
  · have h4 : s.permit = true := (hs.resolve_left fun x => x h).resolve_left (by rw [hl]; decide)
    rw [if_neg fun x => x h, if_pos hl, if_pos h4]
    exact send _ (Nat.le_of_eq (startPage_rem_toNat (s := s.startFrame) hr.1))
  · rw [if_neg fun x => x h, if_neg (by rw [hl]; decide)]
    exact send _ (Nat.le_of_eq (startPage_rem_toNat (s := s.advanceBand) hr.1))

end Sys2Proof.Machine
end

