-- ==== Sys2Proof/Machine/Assembler.lean ====
section
/-!
DEFINITION. The assembler syntax of 30_encoding R100 and the pseudo-instructions of R101, as functions from text to the
commands of the host's sequence. Nothing here is part of the block. Log entry 18 names the lexical choices.
-/
namespace Sys2Proof.Machine

/-- An operand as written (30_encoding R100): a store name, or an integer with its sign. -/
inductive AsmOperand where
  | store (sel : Sel)
  | number (negative : Bool) (magnitude : Nat)
  deriving DecidableEq, Repr

/-- The value of a decimal or hexadecimal digit. -/
def digitValue (c : Char) : Option Nat :=
  if '0' ≤ c ∧ c ≤ '9' then some (c.toNat - 48)
  else if 'a' ≤ c ∧ c ≤ 'f' then some (c.toNat - 87)
  else if 'A' ≤ c ∧ c ≤ 'F' then some (c.toNat - 55)
  else none

/-- Digits to the right of a number already read. -/
def digitsFrom (base : Nat) : Nat → List Char → Option Nat
  | n, [] => some n
  | n, c :: cs =>
    match digitValue c with
    | some d => if d < base then digitsFrom base (base * n + d) cs else none
    | none => none

/-- An unsigned integer: decimal, or hexadecimal with the start `0x` (30_encoding R100). -/
def parseMagnitude : List Char → Option Nat
  | [] => none
  | '0' :: 'x' :: c :: cs => digitsFrom 16 0 (c :: cs)
  | c :: cs => digitsFrom 10 0 (c :: cs)

/-- One operand (30_encoding R100). -/
def parseOperand (t : List Char) : Option AsmOperand :=
  if t = ['f', 's'] then some (.store .front)
  else if t = ['b', 's'] then some (.store .back)
  else
    match t with
    | '-' :: cs => (parseMagnitude cs).map (.number true)
    | cs => (parseMagnitude cs).map (.number false)

/-- The integer an operand with a sign stands for. -/
def signedValue (negative : Bool) (magnitude : Nat) : Int := if negative then -(magnitude : Int) else magnitude

/-- The operand shapes of 30_encoding R100. -/
def asmPlain (i : Instr) : List AsmOperand → Option Instr
  | [] => some i
  | _ => none
def asmS (f : Sel → Instr) : List AsmOperand → Option Instr
  | [.store s] => some (f s)
  | _ => none
def asmS1 (f : Sel → Nat → Instr) : List AsmOperand → Option Instr
  | [.store s, .number false a] => some (f s a)
  | _ => none
def asmS2 (f : Sel → Nat → Nat → Instr) : List AsmOperand → Option Instr
  | [.store s, .number false a, .number false b] => some (f s a b)
  | _ => none
def asmS3 (f : Sel → Nat → Nat → Nat → Instr) : List AsmOperand → Option Instr
  | [.store s, .number false a, .number false b, .number false c] => some (f s a b c)
  | _ => none
def asmS4 (f : Sel → Nat → Nat → Nat → Nat → Instr) : List AsmOperand → Option Instr
  | [.store s, .number false a, .number false b, .number false c, .number false d] => some (f s a b c d)
  | _ => none
def asmStep (f : Sel → Nat → Int → Instr) : List AsmOperand → Option Instr
  | [.store s, .number false a, .number neg n] => some (f s a (signedValue neg n))
  | _ => none
def asmPoint (f : Int → Int → Instr) : List AsmOperand → Option Instr
  | [.number nx x, .number ny y] => some (f (signedValue nx x) (signedValue ny y))
  | _ => none
def asmPixel (f : Int → Int → Nat → Instr) : List AsmOperand → Option Instr
  | [.number nx x, .number ny y, .number false c] => some (f (signedValue nx x) (signedValue ny y) c)
  | _ => none

/-- The 21 mnemonics of 30_encoding R100. -/
def coreForms : List (String × (List AsmOperand → Option Instr)) :=
  [("bfrd.r", asmS3 .bfrdR), ("bfrd.l", asmS3 .bfrdL), ("bfwr.r", asmS4 .bfwrR), ("bfwr.l", asmS4 .bfwrL),
   ("elrd", asmS1 .elrd), ("elwr", asmS2 .elwr), ("chrd.r", asmS3 .chrdR), ("chrd.l", asmS3 .chrdL),
   ("chwr.r", asmS4 .chwrR), ("chwr.l", asmS4 .chwrL), ("clr", asmS .clr), ("itbeg", asmS .itbeg),
   ("itend", asmS .itend), ("itadd", asmStep .itadd), ("itdiff", asmS2 .itdiff), ("iteq", asmS2 .iteq),
   ("pwbegin", asmPlain .pwbegin), ("pwdraw", asmPixel .pwdraw), ("pwread", asmPoint .pwread),
   ("pwadv", asmPlain .pwadv), ("tdupdate", asmPlain .tdupdate)]

/-- The ten pseudo-instructions of 30_encoding R101, each by its expansion. -/
def pseudoForms : List (String × (List AsmOperand → Option Instr)) :=
  [("bfrd", asmS3 .bfrdR), ("bfwr", asmS4 .bfwrR), ("chrd", asmS3 .chrdR), ("chwr", asmS4 .chwrR),
   ("itsub", asmStep fun s pos n => .itadd s pos (-n)), ("itld", asmS1 .elrd), ("itst", asmS2 .elwr),
   ("drawpixel", asmPixel .pwdraw), ("readpixel", asmPoint .pwread), ("update", asmPlain .tdupdate)]

/-- The command a mnemonic and its operands stand for, if they have one of the forms and every operand fits its port. -/
def buildForm (mnemonic : List Char) (ops : List AsmOperand) : Option Instr :=
  match (coreForms ++ pseudoForms).find? fun f => f.1.toList == mnemonic with
  | some f =>
    (match f.2 ops with
     | some i => if i.wf then some i else none
     | none => none)
  | none => none

/-- A space between tokens. -/
def isBlank (c : Char) : Bool := c == ' ' || c == '\t' || c == '\r'

/-- Text without blanks at its ends. -/
def trimBlanks (t : List Char) : List Char := ((t.dropWhile isBlank).reverse.dropWhile isBlank).reverse

/-- Text cut at every separator. -/
def cutAt (sep : Char) : List Char → List (List Char)
  | [] => [[]]
  | c :: cs =>
    if c = sep then [] :: cutAt sep cs
    else
      match cutAt sep cs with
      | [] => [[c]]
      | p :: ps => (c :: p) :: ps

/-- The line up to its comment, and the comment (30_encoding R100: `;` starts one). -/
def cutComment : List Char → List Char × List Char
  | [] => ([], [])
  | c :: cs => if c = ';' then ([], cs) else ((c :: (cutComment cs).1), (cutComment cs).2)

/-- Every operand of a line, or none if one is not an operand. -/
def parseOperands : List (List Char) → Option (List AsmOperand)
  | [] => some []
  | t :: ts =>
    match parseOperand (trimBlanks t), parseOperands ts with
    | some o, some os => some (o :: os)
    | _, _ => none

/-- The command of a line without its comment; a blank line has none. -/
def assembleText (line : List Char) : Option (Option Instr) :=
  let text := trimBlanks line
  let mnemonic := text.takeWhile fun c => !isBlank c
  let rest := trimBlanks (text.dropWhile fun c => !isBlank c)
  if text = [] then some none
  else
    match (if rest = [] then some [] else parseOperands (cutAt ',' rest)) with
    | some ops => (buildForm mnemonic ops).map some
    | none => none

/-- Whether the comment carries this note, as one of its words. -/
def commentHas (comment : List Char) (note : String) : Bool :=
  (cutAt ' ' comment).any fun t => trimBlanks t == note.toList

/-- One line as an event of the host. The inputs `READY` and `PERMIT` come from the comment (30_encoding R100), and are
1 where it does not say 0, the convention of 95_test_vectors (log entry 18). -/
def assembleLine (line : List Char) : Option (List HostEvent) :=
  match assembleText (cutComment line).1 with
  | some (some i) =>
    some [.issue (encode i) (!commentHas (cutComment line).2 "READY=0") (!commentHas (cutComment line).2 "PERMIT=0")]
  | some none => some []
  | none => none

/-- The lines of a program, joined. -/
def assembleLines : List (List Char) → Option (List HostEvent)
  | [] => some []
  | l :: ls =>
    match assembleLine l, assembleLines ls with
    | some e, some es => some (e ++ es)
    | _, _ => none

/-- A program: one command per line (30_encoding R100). -/
def assemble (program : String) : Option (List HostEvent) := assembleLines (cutAt '\n' program.toList)

/-- The block with a program loaded: the host's sequence from its start (10_state R31; log entry 4). -/
def State.withProgram (s : State) (program : List HostEvent) : State := { s with host := program, pc := 0 }

end Sys2Proof.Machine
end

