-- ==== Sys2Proof/Tests/Slice0.lean ====
section
/-!
SUPPORT. Tests of one command or one check each, the expected results taken from the vectors of 95_test_vectors or from
the encoding tables of 30_encoding by hand, and for every obligation with hypotheses a state and operands that meet them.
-/
namespace Sys2Proof.Tests

open Sys2Proof.Machine

/-! ### The configurations of 95_test_vectors -/

def identityConfig (width height pages chunk e : Nat) : Config :=
  ⟨width, height, pages, chunk, e, e, .identity, .rowMajor, []⟩
def K1 : Config := identityConfig 8 1 1 8 3
def K2 : Config := identityConfig 3 1 1 3 3
def K3 : Config := identityConfig 4 1 1 4 5
def K5 : Config := identityConfig 2 1 1 2 16
def K6 : Config := identityConfig 2 1 1 2 24
def K7 : Config := identityConfig 1 1 1 1 32
def K8 : Config := ⟨2, 32, 2, 4, 1, 1, .identity, .banked, []⟩
def K9 : Config := identityConfig 4 4 2 3 8
def K10 : Config := identityConfig 4 4 2 4 1
/-- `K11` and `K12` with `CONVERT` listed only where the vectors use it (elsewhere 0: the table stays small). -/
def K11 : Config := ⟨8, 2, 2, 8, 8, 1, .converting, .rowMajor, [(0x80, 1), (0x90, 1), (0xC0, 1), (0xFF, 1)]⟩
def K12 : Config :=
  ⟨5, 1, 1, 2, 8, 4, .converting, .rowMajor, [(0x12, 1), (0x34, 3), (0x56, 5), (0x78, 7), (0x9A, 9)]⟩
def K14 : Config := identityConfig 4 4 2 8 8

/-- The block after reset with these contents of `FS`. -/
def fresh (c : Config) (fs : List Byte) : State := State.resetWith c fs []

/-- The block after reset and `PWBEGIN`, with these contents drawn and this many pixels left to send. -/
def atTop (c : Config) (fs : List Byte) (rem : Nat) : State :=
  { (State.resetWith c [] []).beginFrame with fs := Memory.ofBytes c.nf fs, rem := BitVec.ofNat 32 rem }

/-- The input lines. -/
def lines (ready permit : Bool) (s : State) : State := { s with ready := ready, permit := permit }

/-- The block with one command pending. -/
def pending (c : Command) (s : State) : State := { s with host := [.issue c true true] }

/-! ### What a test looks at -/

def response : Result → Option Response
  | .next t => some t.resp
  | _ => none
def front (n : Nat) : Result → Option (List Byte)
  | .next t => some (Memory.bytes t.fs 0 n)
  | _ => none
def back (n : Nat) : Result → Option (List Byte)
  | .next t => some (Memory.bytes t.bs 0 n)
  | _ => none
def sent : Result → Option (List Event)
  | .next t => some t.trace
  | _ => none
def left : Result → Option Nat
  | .next t => some t.rem.toNat
  | _ => none
def rows : Result → Option (Int × Int)
  | .next t => some (t.p0y.toInt, t.p1y.toInt)
  | _ => none
def faultCode : Result → Option (BitVec 2)
  | .next t => some t.fault
  | _ => none

/-! ### Decoding: one word for each constructor, written out from 30_encoding R91, R96 (and R102, 95 P1, P2) -/

theorem test_decode_bfrdR : decode ⟨0x00000010, 0, 2, 3, 9⟩ = .ok (.bfrdR .front 0 2 3) := by decide
theorem test_decode_bfrdL : decode ⟨0x00000310, 3, 2, 3, 9⟩ = .ok (.bfrdL .back 3 2 3) := by decide
theorem test_decode_bfwrR : decode ⟨0x00000211, 2, 0, 1, 0⟩ = .ok (.bfwrR .back 2 0 1 0) := by decide
theorem test_decode_bfwrL : decode ⟨0x00000111, 1, 4, 4, 0xA0⟩ = .ok (.bfwrL .front 1 4 4 0xA0) := by decide
theorem test_decode_elrd : decode ⟨0x00000220, 0xFFFFFFFF, 7, 7, 7⟩ = .ok (.elrd .back 4294967295) := by decide
theorem test_decode_elwr : decode ⟨0x00000021, 2, 5, 7, 7⟩ = .ok (.elwr .front 2 5) := by decide
theorem test_decode_chrdR : decode ⟨0x00000022, 2, 1, 3, 7⟩ = .ok (.chrdR .front 2 1 3) := by decide
theorem test_decode_chrdL : decode ⟨0x00000322, 2, 1, 3, 7⟩ = .ok (.chrdL .back 2 1 3) := by decide
theorem test_decode_chwrR : decode ⟨0x00000023, 2, 1, 4, 3⟩ = .ok (.chwrR .front 2 1 4 3) := by decide
theorem test_decode_chwrL : decode ⟨0x00000123, 2, 1, 4, 3⟩ = .ok (.chwrL .front 2 1 4 3) := by decide
theorem test_decode_clr : decode ⟨0x00000224, 1, 2, 3, 4⟩ = .ok (.clr .back) := by decide
theorem test_decode_itbeg : decode ⟨0x00000028, 1, 2, 3, 4⟩ = .ok (.itbeg .front) := by decide
theorem test_decode_itend : decode ⟨0x00000229, 1, 2, 3, 4⟩ = .ok (.itend .back) := by decide
theorem test_decode_itadd : decode ⟨0x0000002A, 5, 0xFFFFFFFB, 3, 4⟩ = .ok (.itadd .front 5 (-5)) := by decide
theorem test_decode_itdiff : decode ⟨0x0000002B, 5, 2, 3, 4⟩ = .ok (.itdiff .front 5 2) := by decide
theorem test_decode_iteq : decode ⟨0x0000022C, 5, 4, 3, 4⟩ = .ok (.iteq .back 5 4) := by decide
theorem test_decode_pwbegin : decode ⟨0x00000030, 1, 2, 3, 4⟩ = .ok .pwbegin := by decide
theorem test_decode_pwdraw : decode ⟨0x00000031, 1, 0x80000000, 0xFFFFFFFF, 4⟩ =
    .ok (.pwdraw 1 (-2147483648) 4294967295) := by decide
theorem test_decode_pwread : decode ⟨0x00000032, 0xFFFFFFFF, 3, 3, 4⟩ = .ok (.pwread (-1) 3) := by decide
theorem test_decode_pwadv : decode ⟨0x00000033, 1, 2, 3, 4⟩ = .ok .pwadv := by decide
theorem test_decode_tdupdate : decode ⟨0x00000040, 1, 2, 3, 4⟩ = .ok .tdupdate := by decide

/-- 95 section 2.5: the rejected words, each by the reason the table gives. -/
theorem test_decode_rejects :
    ([0x00000000, 0x00000012, 0x00000025, 0x00000034, 0x0000003F, 0x00000041, 0x00000130, 0x00000320, 0x00000240,
        0x00000430, 0x00000400, 0x80000010].map fun w => decode ⟨w, 0, 0, 0, 0⟩) =
      [.error .unassignedOpc, .error .unassignedOpc, .error .unassignedOpc, .error .unassignedOpc,
        .error .unassignedOpc, .error .unassignedOpc, .error .alignmentUndefined, .error .alignmentUndefined,
        .error .selectUndefined, .error .reservedBits, .error .reservedBits, .error .reservedBits] := by decide

/-- The host's numbering: bit 0 is the low bit of `CMD`, the ports follow it (log entry 12). -/
theorem test_decodeTableWord :
    decodeTableWord 32 0x00000310 = some (.bfrdL .back 0 0 0) ∧
      decodeTableWord 160 0x00000000_00000003_00000002_00000001_00000010 = some (.bfrdR .front 1 2 3) ∧
      decodeTableWord 32 0x00000130 = none := by decide

/-- 30_encoding R100 to R102: text to command words. -/
theorem test_assemble :
    assembleLine "bfrd.l bs, 3, 2, 0x3 ; a note".toList = some [.issue ⟨0x00000310, 3, 2, 3, 0⟩ true true] ∧
      assembleLine "itsub fs, 5, 5".toList = some [.issue ⟨0x0000002A, 5, 0xFFFFFFFB, 0, 0⟩ true true] ∧
      assembleLine " tdupdate ; READY=0 PERMIT=1".toList = some [.issue ⟨0x00000040, 0, 0, 0, 0⟩ false true] := by
  decide
theorem test_assemble_rejects :
    assembleLine "elrd fs, -1".toList = none ∧ assembleLine "elrd 0".toList = none ∧
      assembleLine "pwdraw 1, 0x80000000, 0".toList = none := by decide

/-! ### WellFormed: an ill-formed term for each check -/

theorem smoke_wf : K1.wf = true ∧ K8.wf = true ∧ K10.wf = true ∧ K11.wf = true ∧ K12.wf = true := by decide
theorem smoke_cfg1 : (⟨0, 1, 1, 8, 3, 3, .identity, .rowMajor, []⟩ : Config).wf = false ∧
    (⟨0, 1, 1, 8, 3, 3, .identity, .rowMajor, []⟩ : Config).cfg1 = false := by decide
theorem smoke_cfg2 : (⟨8, 1, 0, 8, 3, 3, .identity, .rowMajor, []⟩ : Config).wf = false ∧
    (⟨8, 1, 0, 8, 3, 3, .identity, .rowMajor, []⟩ : Config).cfg2 = false := by decide
theorem smoke_cfg3 : (⟨8, 3, 2, 8, 3, 3, .identity, .rowMajor, []⟩ : Config).wf = false ∧
    (⟨8, 3, 2, 8, 3, 3, .identity, .rowMajor, []⟩ : Config).cfg3 = false := by decide
theorem smoke_cfg4 : (⟨8, 1, 1, 0, 3, 3, .identity, .rowMajor, []⟩ : Config).wf = false ∧
    (⟨8, 1, 1, 0, 3, 3, .identity, .rowMajor, []⟩ : Config).cfg4 = false := by decide
theorem smoke_cfg5 : (⟨8, 1, 1, 8, 9, 9, .identity, .rowMajor, []⟩ : Config).wf = false ∧
    (⟨8, 1, 1, 8, 9, 9, .identity, .rowMajor, []⟩ : Config).cfg5 = false := by decide
theorem smoke_cfg6 : (⟨8, 1, 1, 8, 3, 4, .identity, .rowMajor, []⟩ : Config).wf = false ∧
    (⟨8, 1, 1, 8, 3, 4, .identity, .rowMajor, []⟩ : Config).cfg6 = false := by decide
theorem smoke_cfg7 : (⟨8, 12, 1, 8, 3, 3, .identity, .banked, []⟩ : Config).wf = false ∧
    (⟨8, 12, 1, 8, 3, 3, .identity, .banked, []⟩ : Config).cfg7 = false := by decide
theorem smoke_cfg8 : (⟨65536, 32768, 1, 8, 3, 3, .identity, .rowMajor, []⟩ : Config).wf = false ∧
    (⟨65536, 32768, 1, 8, 3, 3, .identity, .rowMajor, []⟩ : Config).cfg8 = false := by decide
theorem smoke_cfg9 : (⟨8, 1, 1, 8, 3, 3, .converting, .rowMajor, [(1, 8)]⟩ : Config).wf = false ∧
    (⟨8, 1, 1, 8, 3, 3, .converting, .rowMajor, [(1, 8)]⟩ : Config).cfg9 = false ∧
    (⟨8, 1, 1, 8, 3, 3, .converting, .rowMajor, [(8, 1)]⟩ : Config).cfg9 = false ∧
    (⟨8, 1, 1, 8, 3, 3, .converting, .rowMajor, [(1, 1), (1, 2)]⟩ : Config).cfg9 = false := by decide
/-- CFG-9 asks something only when converting (00_scope R11): the same tables pass under identity. -/
theorem smoke_cfg9_identity :
    (⟨8, 1, 1, 8, 3, 3, .identity, .rowMajor, [(1, 8), (1, 2), (9, 0)]⟩ : Config).wf = true := by decide
theorem smoke_unsigned : unsignedOperand 4294967296 = false ∧ unsignedOperand 4294967295 = true := by decide
theorem smoke_signed : signedOperand 2147483648 = false ∧ signedOperand (-2147483649) = false ∧
    signedOperand (-2147483648) = true := by decide
theorem smoke_operands :
    ([Instr.bfrdR .front 4294967296 0 1, .bfrdL .front 0 4294967296 1, .bfwrR .front 0 0 4294967296 1,
        .bfwrL .front 0 0 1 4294967296, .elrd .front 4294967296, .elwr .front 0 4294967296,
        .chrdR .front 4294967296 0 1, .chrdL .front 0 4294967296 1, .chwrR .front 0 0 4294967296 1,
        .chwrL .front 0 0 1 4294967296, .itadd .front 0 2147483648, .itdiff .front 4294967296 0,
        .iteq .front 0 4294967296, .pwdraw 0 2147483648 0, .pwread (-2147483649) 0].map Instr.wf) =
      List.replicate 15 false := by decide

/-! ### One command on a small state: the vectors of 95_test_vectors sections 2.1 to 2.5 -/

theorem test_bfrdR : response (exec (.bfrdR .front 0 2 3) (fresh K1 [0xAC])) = some ⟨0, 0x03, false⟩ := by decide
theorem test_bfrdR_faults :
    response (exec (.bfrdR .front 3 0 9) (fresh K1 [0xAC])) = some ⟨2, 0, false⟩ ∧
      response (exec (.bfrdR .front 3 0 1) (fresh K1 [0xAC])) = some ⟨3, 0, false⟩ := by decide
theorem test_bfrdL : response (exec (.bfrdL .front 0 2 3) (fresh K1 [0xAC])) = some ⟨0, 0x60, false⟩ ∧
    response (exec (.bfrdL .front 0 7 1) (fresh K1 [0xFF])) = some ⟨0, 0x80, false⟩ := by decide
theorem test_bfwrR : front 3 (exec (.bfwrR .front 0 2 3 5) (fresh K1 [0xAC, 0x00, 0xFF])) = some [0xB4, 0x00, 0xFF] ∧
    front 3 (exec (.bfwrR .front 0 1 6 0xFFFFFFFF) (fresh K1 [0x81])) = some [0xFF, 0x00, 0x00] := by decide
theorem test_bfwrR_identity :
    front 3 (exec (.bfwrR .back 2 0 1 0) (fresh K1 [0xB4, 0xA0, 0xFF])) = some [0xB4, 0xA0, 0xFE] := by decide
theorem test_bfwrL : front 1 (exec (.bfwrL .front 0 2 3 0xA0) (fresh K1 [0xAC])) = some [0xB4] ∧
    front 1 (exec (.bfwrL .front 0 4 4 0x1F) (fresh K1 [0x0F])) = some [0x1F] := by decide
theorem test_elrd : response (exec (.elrd .front 2) (fresh K1 [0x47, 0x01, 0x63])) = some ⟨0, 5, false⟩ ∧
    response (exec (.elrd .front 7) (fresh K1 [0x47, 0x01, 0x63])) = some ⟨0, 3, false⟩ := by decide
theorem test_elrd_fault : response (exec (.elrd .front 8) (fresh K1 [0x47, 0x01, 0x63])) = some ⟨3, 0, false⟩ := by
  decide
theorem test_elwr : front 3 (exec (.elwr .front 3 0xFF) (fresh K1 [0x47, 0x01, 0x63])) = some [0x47, 0x0F, 0x63] ∧
    front 4 (exec (.elwr .front 1 0xBEEF) (fresh K5 [])) = some [0x00, 0x00, 0xEF, 0xBE] := by decide
theorem test_elwr_pad : front 2 (exec (.elwr .front 2 0) (fresh K2 [0xFF, 0xFF])) = some [0x3F, 0xFE] := by decide
theorem test_chrdR : response (exec (.chrdR .front 2 1 2) (fresh K1 [0x47, 0x01, 0x63])) = some ⟨0, 2, false⟩ ∧
    response (exec (.chrdR .front 1 16 8) (fresh K6 [0, 0, 0, 0xC3, 0xB2, 0xA1])) = some ⟨0, 0xA1, false⟩ := by decide
theorem test_chrdR_faults :
    response (exec (.chrdR .front 0 2 2) (fresh K1 [])) = some ⟨2, 0, false⟩ ∧
      response (exec (.chrdR .front 1 4 8) (fresh K5 [])) = some ⟨2, 0, false⟩ := by decide
theorem test_chrdL : response (exec (.chrdL .front 2 1 2) (fresh K1 [0x47, 0x01, 0x63])) = some ⟨0, 0x80, false⟩ ∧
    response (exec (.chrdL .front 5 0 3) (fresh K1 [0x47, 0x01, 0x63])) = some ⟨0, 0xC0, false⟩ := by decide
theorem test_chwrR :
    front 3 (exec (.chwrR .front 2 2 1 0) (fresh K1 [0x47, 0x01, 0x63])) = some [0x47, 0x00, 0x63] ∧
      front 3 (exec (.chwrR .front 1 1 4 0xF) (fresh K3 [0x5F, 0xD5, 0x08])) = some [0xDF, 0xD7, 0x08] := by decide
theorem test_chwrR_priority : response (exec (.chwrR .front 9 3 1 0) (fresh K1 [])) = some ⟨2, 0, false⟩ := by decide
theorem test_chwrL :
    front 3 (exec (.chwrL .front 5 1 2 0x40) (fresh K1 [0x47, 0x00, 0x63])) = some [0x47, 0x00, 0x61] := by decide
theorem test_clr : front 2 (exec (.clr .front) (fresh K2 [0x3F, 0xFE])) = some [0x00, 0x00] := by decide
theorem test_itbeg : response (exec (.itbeg .front) (fresh K1 [])) = some ⟨0, 0, false⟩ := by decide
theorem test_itend : response (exec (.itend .back) (fresh K1 [])) = some ⟨0, 8, false⟩ := by decide
theorem test_itend_converting : response (exec (.itend .back) (fresh K12 [])) = some ⟨0, 2, false⟩ := by decide
theorem test_itadd : response (exec (.itadd .front 8 (-8)) (fresh K1 [])) = some ⟨0, 0, false⟩ ∧
    response (exec (.itadd .front 0 8) (fresh K1 [])) = some ⟨0, 8, false⟩ := by decide
theorem test_itadd_faults : response (exec (.itadd .front 8 1) (fresh K1 [])) = some ⟨3, 0, false⟩ ∧
    response (exec (.itadd .front 0 (-1)) (fresh K1 [])) = some ⟨3, 0, false⟩ ∧
    response (exec (.itadd .front 9 0) (fresh K1 [])) = some ⟨3, 0, false⟩ := by decide
theorem test_itdiff : response (exec (.itdiff .front 0 8) (fresh K1 [])) = some ⟨0, 0xFFFFFFF8, false⟩ ∧
    response (exec (.itdiff .front 5 2) (fresh K1 [])) = some ⟨0, 3, false⟩ := by decide
theorem test_itdiff_fault : response (exec (.itdiff .front 9 0) (fresh K1 [])) = some ⟨3, 0, false⟩ := by decide
theorem test_iteq : response (exec (.iteq .front 8 8) (fresh K1 [])) = some ⟨0, 0, true⟩ ∧
    response (exec (.iteq .front 0 8) (fresh K1 [])) = some ⟨0, 0, false⟩ := by decide
theorem test_iteq_fault : response (exec (.iteq .front 0 9) (fresh K1 [])) = some ⟨3, 0, false⟩ := by decide
theorem test_pwbegin :
    front 8 (exec .pwbegin (fresh K9 (List.replicate 8 0xEE))) = some (List.replicate 8 0x00) ∧
      rows (exec .pwbegin (fresh K9 [])) = some (0, 1) := by decide
theorem test_pwdraw :
    front 8 (exec (.pwdraw 3 1 0x1AB) (atTop K9 [] 0)) = some [0, 0, 0, 0, 0, 0, 0, 0xAB] ∧
      front 4 (exec (.pwdraw 1 3 1) (atTop K8 [] 0)) = some [0x00, 0x08, 0x00, 0x00] := by decide
theorem test_pwdraw_clipped :
    ([Instr.pwdraw (-1) 0 9, .pwdraw 0 (-1) 9, .pwdraw 4 0 9, .pwdraw 0 2 9].map fun i =>
        (response (exec i (atTop K9 [] 0)), front 8 (exec i (atTop K9 [] 0)))) =
      List.replicate 4 (some ⟨0, 0, false⟩, some (List.replicate 8 0x00)) := by decide
theorem test_pwread : response (exec (.pwread 3 3) (fresh K9 [0, 0, 0, 0, 0, 0, 0, 0xAB])) = some ⟨0, 0xAB, true⟩ ∧
    response (exec (.pwread 3 1) (fresh K9 [0, 0, 0, 0, 0, 0, 0, 0xAB])) = some ⟨0, 0, false⟩ := by decide
theorem test_pwread_banked : response (exec (.pwread 1 26) (fresh K8 [0x00, 0x08, 0x02, 0x04])) = some ⟨0, 1, true⟩ := by
  decide
theorem test_pwadv : rows (exec .pwadv (atTop K9 [] 0)) = some (2, 3) ∧
    response (exec .pwadv (atTop K9 [] 0)) = some ⟨0, 0, true⟩ := by decide
theorem test_pwadv_last : rows (exec .pwadv (fresh K9 [])) = some (2, 3) ∧
    response (exec .pwadv (fresh K9 [])) = some ⟨0, 0, false⟩ := by decide
theorem test_tdupdate_frame_start :
    (sent (exec .tdupdate (lines true true (fresh K9 (List.replicate 8 0xEE)))),
        left (exec .tdupdate (lines true true (fresh K9 []))),
        response (exec .tdupdate (lines true true (fresh K9 [])))) =
      (some [.devBeginFrame, .devWrite [0, 0, 0] 0 3], some 5, some ⟨0, 3, true⟩) := by decide
theorem test_tdupdate_converting :
    let s := lines true true { atTop K12 [0x12, 0x34, 0x56, 0x78, 0x9A] 1 with bs := [(0, 0x75)] }
    (sent (exec .tdupdate s), back 1 (exec .tdupdate s)) = (some [.devWrite [0x79] 4 1], some [0x79]) := by decide

/-! ### Faults, the step and the fixed names -/

theorem test_illegal_word : response (step (pending ⟨0x00000099, 0, 0, 0, 0⟩ (fresh K1 []))) = some ⟨1, 0, false⟩ ∧
    faultCode (step (pending ⟨0x00000099, 0, 0, 0, 0⟩ (fresh K1 []))) = some 1 := by decide
theorem test_halted :
    let s : State := { fresh K1 [0x00, 0x00, 0x60] with fault := 2 }
    ([0x00000020, 0x00000099, 0x00000040].map fun w => response (step (pending ⟨w, 7, 0, 0, 0⟩ s))) =
      List.replicate 3 (some ⟨2, 0, false⟩) := by decide
theorem test_reset_event :
    faultCode (step { fresh K1 [] with fault := 2, host := [.reset [1, 2, 3] []] }) = some 0 ∧
      front 3 (step { fresh K1 [] with fault := 2, host := [.reset [1, 2, 3] []] }) = some [1, 2, 3] := by decide
theorem test_withFetchWord : rows (step (State.reset.withFetchWord 32 0x00000030)) = some (0, 1) ∧
    response (step (State.reset.withFetchWord 160 0x00000003_00000008_00000021)) = some ⟨3, 0, false⟩ := by
  decide

/-! ### States and operands that meet the hypotheses of each obligation -/

/-- The invariant, checked by computation for a band index. -/
def invCheck (k : Nat) (s : State) : Bool :=
  s.cfg.wf && Memory.wf s.fs && Memory.within s.cfg.nf s.fs && Memory.wf s.bs && Memory.within s.cfg.nb s.bs &&
    decide (s.p0x.toInt = 0) && decide (s.p1x.toInt = (s.cfg.width : Int) - 1) && decide (k < s.cfg.pageCount) &&
    decide (s.p0y.toInt = (k : Int) * s.cfg.pageHeight) && decide (s.p1y.toInt = s.p0y.toInt + s.cfg.pageHeight - 1) &&
    decide (s.rem.toNat ≤ s.cfg.ppp) && decide (s.pc ≤ s.host.length)

theorem inv_of_check {k : Nat} {s : State} (h : invCheck k s = true) : Inv s := by
  simp only [invCheck, Bool.and_eq_true, decide_eq_true_eq] at h
  obtain ⟨⟨⟨⟨⟨⟨⟨⟨⟨⟨⟨a, b⟩, c⟩, d⟩, e⟩, f⟩, g⟩, i⟩, j⟩, l⟩, m⟩, n⟩ := h
  exact ⟨a, ⟨b, c, d, e⟩, ⟨f, g, k, i, j, l⟩, m, n⟩

/-- A block in `Idle`, one in the middle of a page, one with the page sent, one with one pixel left. -/
def idle : State := lines true true (fresh K9 [1, 2, 3])
def paging : State := lines true true (atTop K9 [1, 2, 3] 5)
def exhausted : State := lines true true (atTop K9 [1, 2, 3] 0)
def ending : State := lines true true (atTop K9 [1, 2, 3] 1)
def unaligned : State := lines true true (atTop K10 [0xFF] 4)
def converting : State := lines true true { atTop K12 [0x12, 0x34, 0x56, 0x78, 0x9A] 1 with bs := [(0, 0x75)] }
def halted : State := { fresh K1 [0xAC] with fault := 2 }

theorem inv_idle : Inv idle := inv_of_check (k := 1) (by decide)
theorem inv_paging : Inv paging := inv_of_check (k := 0) (by decide)
theorem inv_exhausted : Inv exhausted := inv_of_check (k := 0) (by decide)
theorem inv_ending : Inv ending := inv_of_check (k := 0) (by decide)
theorem inv_unaligned : Inv unaligned := inv_of_check (k := 0) (by decide)
theorem inv_converting : Inv converting := inv_of_check (k := 0) (by decide)
theorem inv_K1 : Inv (fresh K1 [0xAC, 0x00, 0xFF]) := inv_of_check (k := 0) (by decide)
theorem inv_K5 : Inv (fresh K5 [1, 2, 3, 4]) := inv_of_check (k := 0) (by decide)
theorem inv_K8 : Inv (atTop K8 [1, 2, 3] 0) := inv_of_check (k := 0) (by decide)
theorem running_K1 : Running (fresh K1 [0xAC, 0x00, 0xFF]) := ⟨by decide, by decide⟩
theorem running_K5 : Running (fresh K5 [1, 2, 3, 4]) := ⟨by decide, by decide⟩

theorem meets_EncodedCommandsDecodeBack :
    (Instr.bfwrL .back 4294967295 4294967295 4294967295 4294967295).wf = true ∧
      (Instr.pwdraw (-2147483648) 2147483647 0).wf = true := by decide
theorem meets_DecodedCommandsKeepTheirWord : decode ⟨0x00000310, 3, 2, 3, 0⟩ = .ok (.bfrdL .back 3 2 3) := by decide
theorem meets_LegalWordsAreTheRowsOfTheMap :
    (∃ r ∈ opcodeRows, 0x00000310#32 &&& r.mask = r.pattern) ∧ (∃ r ∈ opcodeRows, 0x00000040#32 &&& r.mask = r.pattern) ∧
      ∀ r ∈ opcodeRows, 0x00000240#32 &&& r.mask ≠ r.pattern := by decide
theorem meets_OpcodeRowsDoNotOverlap : ∃ r ∈ opcodeRows, 0x00000222#32 &&& r.mask = r.pattern := by decide
theorem meets_IllegalWordsRaiseIllegalCmd :
    Running (pending ⟨0x00000012, 0, 0, 0, 0⟩ (fresh K1 [])) ∧
      ∀ c : Command, (pending c (fresh K1 [])).nextEvent = some (.issue c true true) ∧
        ((0x00000012#32).toNat % 256 ∉ [0x10, 0x11, 0x20, 0x21, 0x22, 0x23, 0x24, 0x28, 0x29, 0x2A, 0x2B, 0x2C, 0x30,
            0x31, 0x32, 0x33, 0x40] ∧
          (0x80000010#32).toNat / 1024 ≠ 0 ∧ (0x00000410#32).toNat / 1024 ≠ 0 ∧
          ((0x00000130#32).getLsbD 8 = true ∧ (0x00000130#32).toNat % 256 ∉ [0x10, 0x11, 0x22, 0x23]) ∧
          ((0x00000230#32).getLsbD 9 = true ∧ 0x30 ≤ (0x00000230#32).toNat % 256)) :=
  ⟨⟨by decide, by decide⟩, fun _ => ⟨rfl, by decide⟩⟩
theorem meets_StepRunsTheDecodedCommand :
    let s := pending ⟨0x00000030, 0, 0, 0, 0⟩ (fresh K9 [])
    s.cfg.wf = true ∧ s.nextEvent = some (.issue ⟨0x00000030, 0, 0, 0, 0⟩ true true) ∧
      decode ⟨0x00000030, 0, 0, 0, 0⟩ = .ok .pwbegin := by decide
theorem meets_StepWithoutACommandHoldsTheState : State.reset.cfg.wf = true ∧ State.reset.host.length ≤ State.reset.pc := by
  decide
/-- Configurations whose one failing check is CFG-1, CFG-3, CFG-5, CFG-7, CFG-9. -/
theorem meets_IllFormedConfigurationHasNoStep :
    let bad (c : Config) : Prop :=
      ¬((1 ≤ c.width ∧ 1 ≤ c.height) ∧ 1 ≤ c.pageCount ∧ c.height % c.pageCount = 0 ∧ 1 ≤ c.maxChunk ∧
          (c.ef ∈ [1, 2, 3, 4, 5, 6, 7, 8, 16, 24, 32] ∧ c.eb ∈ [1, 2, 3, 4, 5, 6, 7, 8, 16, 24, 32]) ∧
          (c.bridge = .identity → c.ef = c.eb) ∧ (c.mapping = .banked → c.pageHeight % 8 = 0) ∧
          (c.width * c.height ≤ 2 ^ 31 - 1 ∧ c.maxChunk ≤ 2 ^ 31 - 1) ∧
          (c.bridge = .converting → ∀ v < 2 ^ c.ef, c.convertOf v < 2 ^ c.eb))
    bad ⟨0, 1, 1, 8, 3, 3, .identity, .rowMajor, []⟩ ∧ bad ⟨8, 3, 2, 8, 3, 3, .identity, .rowMajor, []⟩ ∧
      bad ⟨8, 1, 1, 8, 9, 9, .identity, .rowMajor, []⟩ ∧ bad ⟨8, 12, 1, 8, 3, 3, .identity, .banked, []⟩ ∧
      bad ⟨8, 1, 1, 8, 3, 3, .converting, .rowMajor, [(1, 8)]⟩ := by
  refine ⟨?_, ?_, ?_, ?_, ?_⟩ <;> decide
theorem meets_HaltedBlockHasNoEffect : halted.cfg.wf = true ∧ halted.fault ≠ 0 := by decide
theorem meets_OnlyResetClearsAFault :
    halted.cfg.wf = true ∧ halted.fault ≠ 0 ∧ faultCode (step (pending ⟨0x00000040, 0, 0, 0, 0⟩ halted)) = some 2 ∧
      ({ halted with host := [.reset [] []] } : State).nextEvent = some (.reset [] []) ∧
      faultCode (step { halted with host := [.reset [] []] }) = some 0 := by decide
theorem meets_FaultsArePrecise :
    Running (fresh K1 [0xAC, 0x00, 0xFF]) ∧ faultCode (exec (.bfrdR .front 0 0 9) (fresh K1 [0xAC])) = some 2 ∧
      faultCode (execCommand ⟨0x00000099, 0, 0, 0, 0⟩ (fresh K1 [0xAC])) = some 1 := ⟨running_K1, by decide, by decide⟩
theorem meets_CausesBelongToTheirCommands :
    Running (fresh K1 [0xAC, 0x00, 0xFF]) ∧ faultCode (exec (.chrdL .front 0 2 2) (fresh K1 [])) = some 2 ∧
      faultCode (exec (.iteq .front 0 9) (fresh K1 [])) = some 3 := ⟨running_K1, by decide, by decide⟩
/-- Both sides of the two checks at their edges: widths 0, 1, 8 and 9, a field that ends at bit 7 and one past it, and a
channel of a 16-bit element that ends at a byte's edge and one that crosses it. -/
theorem meets_FieldRangeIsRaisedExactly :
    Running (fresh K1 [0xAC, 0x00, 0xFF]) ∧ Running (fresh K5 [1, 2, 3, 4]) ∧
      ([(0, 0), (0, 1), (0, 8), (0, 9), (7, 1), (7, 2)].map fun p =>
          faultCode (exec (.bfrdR .front 0 p.1 p.2) (fresh K1 []))) =
        [some 2, some 0, some 0, some 2, some 0, some 2] ∧
      ([(0, 0), (0, 8), (0, 9), (8, 8), (9, 8), (15, 1), (16, 1)].map fun p =>
          faultCode (exec (.chrdR .front 0 p.1 p.2) (fresh K5 []))) =
        [some 2, some 0, some 2, some 0, some 2, some 0, some 2] := ⟨running_K1, running_K5, by decide, by decide⟩
/-- The last legal and the first illegal address, index and position. -/
theorem meets_IndexRangeIsRaisedExactly :
    Running (fresh K1 [0xAC, 0x00, 0xFF]) ∧
      ([Instr.bfrdR .front 2 0 1, .bfrdR .front 3 0 1, .elrd .front 7, .elrd .front 8, .chrdR .front 7 0 3,
          .chrdR .front 8 0 3, .itdiff .front 8 8, .itdiff .front 9 0, .iteq .front 0 9, .itadd .front 8 0,
          .itadd .front 9 0, .itadd .front 8 1, .itadd .front 0 (-1)].map fun i => faultCode (exec i (fresh K1 []))) =
        [some 0, some 3, some 0, some 3, some 0, some 3, some 0, some 3, some 3, some 0, some 3, some 3, some 3] :=
  ⟨running_K1, by decide⟩
/-- A whole byte, the top bit, and the last byte. -/
theorem meets_BfrdReadsTheFieldBits :
    Running (fresh K1 [0xAC, 0x00, 0xFF]) ∧ (1 ≤ 8 ∧ 0 + 8 ≤ 8) ∧ (1 ≤ 1 ∧ 7 + 1 ≤ 8) ∧
      2 < (fresh K1 [0xAC, 0x00, 0xFF]).cfg.nbytes .front := ⟨running_K1, by decide⟩
theorem meets_BfwrWritesTheFieldBitsOnly :
    Running (fresh K1 [0xAC, 0x00, 0xFF]) ∧ StoresOK (fresh K1 [0xAC, 0x00, 0xFF]) ∧ (1 ≤ 8 ∧ 0 + 8 ≤ 8) ∧
      (1 ≤ 1 ∧ 7 + 1 ≤ 8) ∧ 2 < (fresh K1 [0xAC, 0x00, 0xFF]).cfg.nbytes .back := ⟨running_K1, inv_K1.stores, by decide⟩
theorem meets_RightAlignedRoundTrip :
    Running (fresh K1 [0xAC, 0x00, 0xFF]) ∧ StoresOK (fresh K1 [0xAC, 0x00, 0xFF]) ∧ (1 ≤ 3 ∧ 2 + 3 ≤ 8) ∧
      0 < (fresh K1 [0xAC, 0x00, 0xFF]).cfg.nbytes .front := ⟨running_K1, inv_K1.stores, by decide⟩
theorem meets_LeftAlignedRoundTrip :
    Running (fresh K1 [0xAC, 0x00, 0xFF]) ∧ StoresOK (fresh K1 [0xAC, 0x00, 0xFF]) ∧ (1 ≤ 3 ∧ 2 + 3 ≤ 8) ∧
      0 < (fresh K1 [0xAC, 0x00, 0xFF]).cfg.nbytes .front ∧ 0xA0 < 256 ∧ 0xA0 % 2 ^ (8 - 3) = 0 :=
  ⟨running_K1, inv_K1.stores, by decide⟩
theorem meets_ElrdReadsTheElementBits :
    Running (fresh K1 [0xAC, 0x00, 0xFF]) ∧ 7 < (fresh K1 [0xAC, 0x00, 0xFF]).cfg.count .front := ⟨running_K1, by decide⟩
theorem meets_ElwrWritesTheElementBitsOnly :
    Running (fresh K1 [0xAC, 0x00, 0xFF]) ∧ StoresOK (fresh K1 [0xAC, 0x00, 0xFF]) ∧
      7 < (fresh K1 [0xAC, 0x00, 0xFF]).cfg.count .back := ⟨running_K1, inv_K1.stores, by decide⟩
theorem meets_ElementWritesAreVisibleAtOnce :
    Running (fresh K1 [0xAC, 0x00, 0xFF]) ∧ StoresOK (fresh K1 [0xAC, 0x00, 0xFF]) ∧
      2 < (fresh K1 [0xAC, 0x00, 0xFF]).cfg.count .front ∧ 3 < (fresh K1 [0xAC, 0x00, 0xFF]).cfg.count .front :=
  ⟨running_K1, inv_K1.stores, by decide⟩
/-- A channel of a packed element that straddles two bytes, and the last channel of a 16-bit element. -/
theorem meets_ChrdReadsTheChannelBits :
    (Running (fresh K1 [0xAC, 0x00, 0xFF]) ∧ 1 ≤ 3 ∧ 3 ≤ 8 ∧ 0 + 3 ≤ K1.elemBits .front ∧
        (8 ≤ K1.elemBits .front → 0 % 8 + 3 ≤ 8) ∧ 2 < K1.count .front) ∧
      Running (fresh K5 [1, 2, 3, 4]) ∧ 1 ≤ 8 ∧ 8 ≤ 8 ∧ 8 + 8 ≤ K5.elemBits .front ∧
        (8 ≤ K5.elemBits .front → 8 % 8 + 8 ≤ 8) ∧ 1 < K5.count .front :=
  ⟨⟨running_K1, by decide⟩, running_K5, by decide⟩
theorem meets_ChwrWritesTheChannelBitsOnly :
    (Running (fresh K1 [0xAC, 0x00, 0xFF]) ∧ StoresOK (fresh K1 [0xAC, 0x00, 0xFF]) ∧ 1 ≤ 3 ∧ 3 ≤ 8 ∧
        0 + 3 ≤ K1.elemBits .front ∧ (8 ≤ K1.elemBits .front → 0 % 8 + 3 ≤ 8) ∧ 2 < K1.count .front) ∧
      Running (fresh K5 [1, 2, 3, 4]) ∧ StoresOK (fresh K5 [1, 2, 3, 4]) ∧ 1 ≤ 8 ∧ 8 ≤ 8 ∧ 8 + 8 ≤ K5.elemBits .front ∧
        (8 ≤ K5.elemBits .front → 8 % 8 + 8 ≤ 8) ∧ 1 < K5.count .front :=
  ⟨⟨running_K1, inv_K1.stores, by decide⟩, running_K5, inv_K5.stores, by decide⟩
theorem meets_ClrZeroesTheSelectedStore : Running (fresh K1 [0xAC, 0x00, 0xFF]) ∧ 7 < K1.count .front :=
  ⟨running_K1, by decide⟩
/-- Element 1 of 3 bits lies in one byte, element 2 straddles. -/
theorem meets_PackedElementsAreFieldAccesses :
    StoresOK (fresh K1 [0xAC, 0x00, 0xFF]) ∧ K1.elemBits .front < 8 ∧ 1 * K1.elemBits .front % 8 + K1.elemBits .front ≤ 8 ∧
      8 < 2 * K1.elemBits .front % 8 + K1.elemBits .front := ⟨inv_K1.stores, by decide⟩
theorem meets_WideElementsAreLittleEndianBytes : StoresOK (fresh K5 [1, 2, 3, 4]) ∧ K5.elemBits .front = 8 * 2 :=
  ⟨inv_K5.stores, by decide⟩
theorem meets_IdentityBridgeAliasesTheStores : (fresh K1 []).cfg.bridge = .identity := by decide
theorem meets_ItbegAndItendAnswerTheEnds : Running (fresh K1 [0xAC, 0x00, 0xFF]) ∧ Running converting :=
  ⟨running_K1, by decide, by decide⟩
/-- The end position reached, and left again. -/
theorem meets_ItaddAnswersThePosition :
    Running (fresh K1 [0xAC, 0x00, 0xFF]) ∧ (0 ≤ K1.count .front ∧ (0 : Int) ≤ (0 : Nat) + 8 ∧
        (0 : Nat) + (8 : Int) ≤ K1.count .front) ∧
      8 ≤ K1.count .front ∧ (0 : Int) ≤ (8 : Nat) + -8 ∧ (8 : Nat) + (-8 : Int) ≤ K1.count .front :=
  ⟨running_K1, by decide⟩
theorem meets_ItdiffAnswersTheSignedDifference :
    Running (fresh K1 [0xAC, 0x00, 0xFF]) ∧ 0 ≤ K1.count .front ∧ 8 ≤ K1.count .front := ⟨running_K1, by decide⟩
theorem meets_IteqComparesPositions :
    Running (fresh K1 [0xAC, 0x00, 0xFF]) ∧ 8 ≤ K1.count .front ∧ 8 ≤ K1.count .front := ⟨running_K1, by decide⟩
/-- The corners of the band, in both mappings, and in the second band of the banked frame. -/
theorem meets_PixelMapIsABijection :
    (idle.cfg.wf = true ∧ BandOK idle ∧ idle.cfg.mapping = .rowMajor ∧ idle.inBand 0 2 = true ∧
        idle.inBand 3 3 = true ∧ 7 < idle.cfg.ppp) ∧
      (BandOK (atTop K8 [1, 2, 3] 0) ∧ K8.mapping = .banked ∧ (atTop K8 [1, 2, 3] 0).inBand 1 15 = true ∧
        31 < (atTop K8 [1, 2, 3] 0).cfg.ppp) ∧
      BandOK (fresh K8 []) ∧ (fresh K8 []).inBand 1 25 = true ∧ (fresh K8 []).pixelIndex 1 25 = 16 + 8 + 1 :=
  ⟨⟨by decide, inv_idle.band, by decide⟩, ⟨inv_K8.band, by decide⟩,
    (inv_of_check (s := fresh K8 []) (k := 1) (by decide)).band, by decide⟩
/-- The corners are inside, their neighbours outside. -/
theorem meets_InBandIsTheInclusiveBox :
    idle.cfg.wf = true ∧ BandOK idle ∧
      ([(0, 2), (3, 3), (-1, 2), (4, 2), (0, 1), (0, 4)].map fun p : Int × Int => idle.inBand p.1 p.2) =
        [true, true, false, false, false, false] := ⟨by decide, inv_idle.band, by decide⟩
theorem meets_PwbeginSetsTheTopBandAndClears : Running paging := ⟨by decide, by decide⟩
theorem meets_PwdrawWritesItsPixelOnly : Inv paging ∧ Running paging ∧ paging.inBand 3 1 = true ∧
    paging.inBand 3 2 = false := ⟨inv_paging, ⟨by decide, by decide⟩, by decide⟩
theorem meets_PwreadReadsItsPixel : Inv paging ∧ Running paging ∧ paging.inBand 3 1 = true ∧
    paging.inBand (-1) 0 = false := ⟨inv_paging, ⟨by decide, by decide⟩, by decide⟩
theorem meets_ADrawChangesOnePixelOnly : Inv paging ∧ Running paging ∧ paging.inBand 3 1 = true :=
  ⟨inv_paging, ⟨by decide, by decide⟩, by decide⟩
/-- The last band, and the band before it. -/
theorem meets_PwadvMovesTheBandOrStays :
    (Running idle ∧ BandOK idle ∧ (idle.cfg.height : Int) - 1 ≤ idle.p1y.toInt) ∧
      Running paging ∧ BandOK paging ∧ paging.p1y.toInt < (paging.cfg.height : Int) - 1 :=
  ⟨⟨⟨by decide, by decide⟩, inv_idle.band, by decide⟩, ⟨by decide, by decide⟩, inv_paging.band, by decide⟩
theorem meets_AdvanceTerminates :
    Running idle ∧ exec .pwbegin idle = .next { idle.beginFrame with resp := doneResponse 0 false } ∧
      0 + 1 < idle.cfg.pageCount := ⟨⟨by decide, by decide⟩, rfl, by decide⟩
/-- A point of band 0 and one of band 1, with no advance and with one. -/
theorem meets_DrawsWaitForTheirBand :
    Running idle ∧ exec .pwbegin idle = .next { idle.beginFrame with resp := doneResponse 0 false } ∧
      (0 < idle.cfg.pageCount ∧ 1 < idle.cfg.pageCount) ∧ 3 < idle.cfg.width ∧ (1 < idle.cfg.height ∧ 3 < idle.cfg.height) :=
  ⟨⟨by decide, by decide⟩, rfl, by decide⟩
theorem meets_UpdateWithoutProgressChangesNothing :
    Running (lines false true paging) ∧ (lines false true paging).ready = false ∧ Running (lines true false idle) ∧
      Idle (lines true false idle) ∧ (lines true false idle).permit = false :=
  ⟨⟨by decide, by decide⟩, by decide, ⟨by decide, by decide⟩, ⟨by decide, by decide⟩, by decide⟩
/-- More than one chunk left, and less than one. -/
theorem meets_UpdateSendsTheNextChunk :
    (Inv paging ∧ Running paging ∧ paging.ready = true ∧ paging.rem ≠ 0) ∧
      Inv ending ∧ Running ending ∧ ending.ready = true ∧ ending.rem ≠ 0 :=
  ⟨⟨inv_paging, ⟨by decide, by decide⟩, by decide⟩, inv_ending, ⟨by decide, by decide⟩, by decide⟩
theorem meets_UpdateBeginsTheNextPage : Inv exhausted ∧ Running exhausted ∧ exhausted.ready = true ∧
    PageExhausted exhausted := ⟨inv_exhausted, ⟨by decide, by decide⟩, by decide, by decide, by decide⟩
theorem meets_UpdateStartsAFrame : Inv idle ∧ Running idle ∧ idle.ready = true ∧ idle.permit = true ∧ Idle idle :=
  ⟨inv_idle, ⟨by decide, by decide⟩, by decide, by decide, by decide, by decide⟩
/-- A chunk on a byte boundary, one that is not, the first chunk of a page and the first one of a frame. -/
theorem meets_IdentityChunksCarryTheStoreBytes :
    (Inv paging ∧ Running paging ∧ paging.ready = true ∧ Sends paging ∧ paging.cfg.bridge = .identity ∧
        (paging.cfg.ppp - paging.rem.toNat) * paging.cfg.ef % 8 = 0) ∧
      (Inv unaligned ∧ Running unaligned ∧ unaligned.ready = true ∧ Sends unaligned ∧
        unaligned.cfg.bridge = .identity ∧ (unaligned.cfg.ppp - unaligned.rem.toNat) * unaligned.cfg.ef % 8 ≠ 0) ∧
      (Inv exhausted ∧ Running exhausted ∧ exhausted.ready = true ∧ Sends exhausted ∧ ¬ Idle exhausted ∧
        sent (exec .tdupdate exhausted) = some [.devWrite [1, 2, 3] 0 3]) ∧
      Inv idle ∧ Running idle ∧ idle.ready = true ∧ Sends idle ∧ Idle idle ∧
        sent (exec .tdupdate idle) = some [.devBeginFrame, .devWrite [0, 0, 0] 0 3] :=
  ⟨⟨inv_paging, ⟨by decide, by decide⟩, by decide, .inl (by decide), by decide⟩,
    ⟨inv_unaligned, ⟨by decide, by decide⟩, by decide, .inl (by decide), by decide⟩,
    ⟨inv_exhausted, ⟨by decide, by decide⟩, by decide, .inr (.inl (by decide)), by decide⟩,
    inv_idle, ⟨by decide, by decide⟩, by decide, .inr (.inr (by decide)), by decide⟩
/-- A later chunk, whose last byte keeps the scratch store's older bits, the first chunk of a page (a frame of two
pages, its first page sent) and the first one of a frame. -/
theorem meets_ConvertingChunksCarryTheConversions :
    (Inv converting ∧ Running converting ∧ converting.ready = true ∧ Sends converting ∧
        converting.cfg.bridge = .converting ∧ sent (exec .tdupdate converting) = some [.devWrite [0x79] 4 1]) ∧
      (Inv (lines true true (atTop K11 [0x80, 0x90] 0)) ∧ Sends (lines true true (atTop K11 [0x80, 0x90] 0)) ∧
        PageExhausted (lines true true (atTop K11 [0x80, 0x90] 0)) ∧
        sent (exec .tdupdate (lines true true (atTop K11 [0x80, 0x90] 0))) = some [.devWrite [0x03] 0 8]) ∧
      Inv (lines true true (fresh K11 [0x80])) ∧ Sends (lines true true (fresh K11 [0x80])) ∧
        Idle (lines true true (fresh K11 [0x80])) ∧
        sent (exec .tdupdate (lines true true (fresh K11 [0x80]))) = some [.devBeginFrame, .devWrite [0x00] 0 8] :=
  ⟨⟨inv_converting, ⟨by decide, by decide⟩, by decide, .inl (by decide), by decide⟩,
    ⟨inv_of_check (k := 0) (by decide), .inr (.inl (by decide)), ⟨by decide, by decide⟩, by decide⟩,
    inv_of_check (k := 1) (by decide), .inr (.inr (by decide)), by decide⟩
theorem meets_BackpressureHoldsTheBlock :
    Running { paging with host := [.issue ⟨0x40, 0, 0, 0, 0⟩ false true, .issue ⟨0x40, 1, 1, 1, 1⟩ false false] } ∧
      ∀ k, k < 2 → ∃ c p,
        ([.issue ⟨0x40, 0, 0, 0, 0⟩ false true, .issue ⟨0x40, 1, 1, 1, 1⟩ false false] : List HostEvent)[0 + k]? =
          some (.issue c false p) ∧ decode c = .ok .tdupdate := by
  refine ⟨⟨by decide, by decide⟩, fun k hk => ?_⟩
  match k, hk with
  | 0, _ => exact ⟨⟨0x40, 0, 0, 0, 0⟩, true, rfl, by decide⟩
  | 1, _ => exact ⟨⟨0x40, 1, 1, 1, 1⟩, false, rfl, by decide⟩
theorem meets_OneFrameCoversEveryPixel : Inv idle ∧ Running idle ∧ idle.ready = true ∧ idle.permit = true ∧ Idle idle ∧
    (3 < idle.cfg.pageCount * ceilDiv idle.cfg.ppp idle.cfg.maxChunk) ∧ idle.cfg.frameRecords =
      [(0, 3), (3, 3), (6, 2), (0, 3), (3, 3), (6, 2)] :=
  ⟨inv_idle, ⟨by decide, by decide⟩, by decide, by decide, ⟨by decide, by decide⟩, by decide⟩
theorem meets_TheTraceOnlyGrowsByUpdates : sent (exec .tdupdate idle) = some [.devBeginFrame, .devWrite [0, 0, 0] 0 3] ∧
    sent (exec .tdupdate paging) = some [.devWrite [0, 0, 0] 3 3] := by decide
theorem meets_ReadyUpdatesMakeProgress : (Inv paging ∧ Running paging ∧ paging.ready = true) ∧
    Inv (lines true false idle) ∧ Running (lines true false idle) ∧ (lines true false idle).ready = true :=
  ⟨⟨inv_paging, ⟨by decide, by decide⟩, by decide⟩, inv_of_check (k := 1) (by decide), ⟨by decide, by decide⟩, by decide⟩
/-- Each phase: idle, a page with more than a chunk left, one with less, and an exhausted page. -/
theorem meets_UpdatesFollowThePhases :
    (Inv idle ∧ Running idle ∧ idle.ready = true ∧ idle.permit = true ∧ Idle idle) ∧
      (Inv paging ∧ Running paging ∧ paging.ready = true ∧ paging.permit = true ∧ PageActive 5 paging) ∧
      (Inv ending ∧ Running ending ∧ ending.ready = true ∧ ending.permit = true ∧ PageActive 1 ending) ∧
      Inv exhausted ∧ Running exhausted ∧ exhausted.ready = true ∧ exhausted.permit = true ∧ PageExhausted exhausted :=
  ⟨⟨inv_idle, ⟨by decide, by decide⟩, by decide, by decide, by decide, by decide⟩,
    ⟨inv_paging, ⟨by decide, by decide⟩, by decide, by decide, by decide, by decide⟩,
    ⟨inv_ending, ⟨by decide, by decide⟩, by decide, by decide, by decide, by decide⟩,
    inv_exhausted, ⟨by decide, by decide⟩, by decide, by decide, by decide, by decide⟩
/-- Two configurations, and a reset that finds the block halted in the middle of a page. -/
theorem meets_ResetLeavesTheBlockIdle : (K9.wf = true ∧ K11.wf = true) ∧
    let s : State := { paging with fault := 3, trace := [.devBeginFrame], host := [.reset [7] []] }
    s.cfg.wf = true ∧ s.nextEvent = some (.reset [7] []) ∧ rows (step s) = some (2, 3) ∧ left (step s) = some 0 ∧
      faultCode (step s) = some 0 ∧ sent (step s) = some [] := by decide
theorem meets_ResetStatesMeetTheInvariant : K8.wf = true ∧ exampleConfig.wf = true := by decide
theorem meets_EveryStepKeepsTheInvariant : Inv (pending ⟨0x00000033, 0, 0, 0, 0⟩ paging) ∧
    rows (step (pending ⟨0x00000033, 0, 0, 0, 0⟩ paging)) = some (2, 3) := ⟨inv_of_check (k := 0) (by decide), by decide⟩
theorem meets_GoodStatesNeverStop : Inv (pending ⟨0x00000031, 0, 0, 7, 0⟩ paging) := inv_of_check (k := 0) (by decide)
/-- A command that changes each element: `REM` and `TRACE`, the band, the frontend store, the backend store, `FAULT`. -/
theorem meets_EachStateElementHasItsWriters :
    left (exec .tdupdate paging) = some 2 ∧ sent (exec .tdupdate paging) = some [.devWrite [0, 0, 0] 3 3] ∧
      faultCode (exec (.elrd .front 99) paging) = some 3 ∧ rows (exec .pwadv paging) = some (2, 3) ∧
      front 1 (exec (.elwr .front 0 9) paging) = some [9] ∧ back 1 (exec (.elwr .back 1 5) converting) = some [0x55] := by
  decide
theorem meets_RemCountsThePixelsLeft : Inv paging ∧ left (exec .tdupdate paging) = some 2 ∧ Inv idle ∧
    left (exec .tdupdate idle) = some 5 := ⟨inv_paging, by decide, inv_idle, by decide⟩
theorem meets_BackendNeverReachesTheFrontend :
    front 1 (exec (.elwr .front 0 9) converting) = some [9] ∧
      front 1 (exec (.elwr .front 0 9) { converting with bs := [(0, 1)] }) = some [9] := by decide

end Sys2Proof.Tests
end

section
/-!
PROOFS. The family 10_state: what a command does to `REM` (R38) and what reset leaves (R48, R49).
-/
namespace Sys2Proof.Machine

/-! ### What a command does to `REM` -/

/-- Of the effects of a command only the writes of a chunk reach `REM`; all three start from `beforeChunk`. -/
theorem Effect.rem_eq_or_sends {s u : State} {i : Instr} (e : Effect s i u) :
    u.rem = s.rem ∨ (i = .tdupdate ∧ u = s.beforeChunk.writeChunk) := by
  cases e with
  | same | bfwrR | bfwrL | elwr | chwrR | chwrL | clr | pwbegin | pwdraw | pwadv => left; simp
  | chunk _ h => right; rw [State.beforeChunk, if_pos h]; exact ⟨rfl, rfl⟩
  | nextPage _ h hl => right; simp [State.beforeChunk, h, hl]
  | nextFrame _ h hl => right; simp [State.beforeChunk, h, hl]

/-- A command that answers keeps `REM`, or is an update that sent a chunk: the halted answer, a taken fault and the
response leave the counter alone. -/
theorem exec_rem_eq_or_sends {s t : State} {i : Instr} (h : exec i s = .next t) :
    t.rem = s.rem ∨ (i = .tdupdate ∧ t.rem = s.beforeChunk.writeChunk.rem) := by
  obtain ⟨-, hc⟩ := exec_cases h
  cases hc with
  | halted | fault => exact .inl rfl
  | effect _ u _ _ e => exact e.rem_eq_or_sends.imp_right fun ⟨hi, hu⟩ => ⟨hi, by rw [← hu]⟩

/-- The counter after an update's chunk: a page just begun counts from `PPP` (44_transfer R213, R214). -/
theorem beforeChunk_writeChunk_rem_toNat {s : State} (h : s.cfg.wf = true) :
    s.beforeChunk.writeChunk.rem.toNat =
      if s.rem = 0 then s.cfg.ppp - min s.cfg.maxChunk s.cfg.ppp
      else s.rem.toNat - min s.cfg.maxChunk s.rem.toNat := by
  rw [writeChunk_rem_toNat, State.chunkSize, State.beforeChunk_cfg, beforeChunk_rem_toNat h]
  split <;> rfl

/-- Sending a chunk keeps the counter within the page. -/
theorem beforeChunk_writeChunk_rem_le {s : State} (h : s.cfg.wf = true) (hp : s.rem.toNat ≤ s.cfg.ppp) :
    s.beforeChunk.writeChunk.rem.toNat ≤ s.cfg.ppp := by
  rw [beforeChunk_writeChunk_rem_toNat h]
  split <;> omega

/-! ### What reset leaves -/

/-- Reset leaves the block idle in its last band: no reset value wraps under a legal configuration, and the bottom row
`HEIGHT - 1` is what makes the band the last one. -/
theorem resetWith_leftByReset {c : Config} (h : c.wf = true) (f b : List Byte) :
    LeftByReset c (State.resetWith c f b) := by
  have hw := Config.width_pos h
  have hw' := Config.width_le h
  have hh := Config.height_pos h
  have hh' := Config.height_le h
  have top : (BitVec.ofNat 32 c.lastTop).toInt = (c.lastTop : Int) :=
    toInt_ofNat_small (Nat.le_trans (Nat.sub_le _ _) hh')
  have right : (BitVec.ofNat 32 (c.width - 1)).toInt = (c.width : Int) - 1 := by
    rw [toInt_ofNat_small (by omega)]; omega
  have bottom : (BitVec.ofNat 32 (c.height - 1)).toInt = (c.height : Int) - 1 := by
    rw [toInt_ofNat_small (by omega)]; omega
  have last : (State.resetWith c f b).lastBand = true := (lastBand_iff _).2 (Int.le_of_eq bottom.symm)
  exact ⟨rfl, rfl, top, right, bottom, rfl, rfl, rfl, rfl, last⟩

/-- The reset of a running machine leaves what `resetWith` leaves: it differs from it only in the host's sequence, its
index and the draw counter, of which `LeftByReset` does not speak. -/
theorem resetTo_leftByReset {s : State} (h : s.cfg.wf = true) (f b : List Byte) :
    LeftByReset s.cfg (s.resetTo f b) :=
  resetWith_leftByReset h f b

/-- A step that finds a reset pending executes it, in every state of a legal configuration. -/
theorem step_of_reset {s : State} (h : s.cfg.wf = true) {f b : List Byte} (he : s.nextEvent = some (.reset f b)) :
    step s = .next (s.resetTo f b) := by
  simp [step, stepBody, h, he, handleEvent]

end Sys2Proof.Machine

open Sys2Proof Sys2Proof.Machine

/-- Settles O58, by the one way a command changes `REM`: it is an update that sends a chunk. -/
theorem remCountsThePixelsLeft : Obligations.RemCountsThePixelsLeft := by
  intro s t i hinv hexec
  rcases exec_rem_eq_or_sends hexec with hsame | ⟨hi, hsent⟩
  · exact ⟨hsame ▸ hinv.rem, fun hne => absurd hsame hne⟩
  · rw [hsent]
    exact ⟨beforeChunk_writeChunk_rem_le hinv.config hinv.rem,
      fun _ => ⟨hi, beforeChunk_writeChunk_rem_toNat hinv.config⟩⟩

/-- Settles O53: the values of `State.resetWith`, and the step that executes a pending reset. -/
theorem resetLeavesTheBlockIdle : Obligations.ResetLeavesTheBlockIdle :=
  ⟨fun _ f b hw => resetWith_leftByReset hw f b,
    fun s f b hw he => ⟨s.resetTo f b, step_of_reset hw he, resetTo_leftByReset hw f b⟩⟩
end

section
/-!
PROOFS. The family 30_encoding: the words that decode are those of the rows of the opcode map (R96, R97).
-/
namespace Sys2Proof

/-! ### A command word and its fields (R91) -/

theorem Opc.code_lt (op : Opc) : op.code < 256 := by cases op <;> decide

@[simp] theorem Opc.ofCode_code (op : Opc) : Opc.ofCode op.code = some op := by cases op <;> rfl

@[simp] theorem Sel.bit_ofBit (b : Bool) : (Sel.ofBit b).bit = b.toNat := by cases b <;> rfl

theorem commandWord_toNat_of_bits (op : Opc) (al sel : Bool) :
    (commandWord op al.toNat sel.toNat).toNat = op.code + 256 * al.toNat + 512 * sel.toNat :=
  commandWord_toNat op al.toNat_lt sel.toNat_lt

section
variable {c : Command} {op : Opc} {al sel : Bool} (h : c.cmd = commandWord op al.toNat sel.toNat)
include h

theorem rsvField_of_commandWord : c.rsvField = 0 := by
  have := op.code_lt
  have := al.toNat_lt
  have := sel.toNat_lt
  rw [Command.rsvField, h, commandWord_toNat_of_bits]
  omega

theorem opcField_of_commandWord : c.opcField = op.code := by
  have := op.code_lt
  rw [Command.opcField, h, commandWord_toNat_of_bits]
  omega

theorem alField_of_commandWord : c.alField = al := by
  have := op.code_lt
  rw [Command.alField, h, BitVec.getLsbD, commandWord_toNat_of_bits, Nat.testBit_eq_decide_div_mod_eq]
  cases al <;> simp <;> omega

theorem selField_of_commandWord : c.selField = sel := by
  have := op.code_lt
  have := al.toNat_lt
  rw [Command.selField, h, BitVec.getLsbD, commandWord_toNat_of_bits, Nat.testBit_eq_decide_div_mod_eq]
  cases sel <;> simp <;> omega

/-- The converse of `decode_ok`: a word put together from an operation code and bits that the code admits decodes to the
command they name. -/
theorem decode_of_commandWord (ha : al = true → op.hasAlign = true) (hs : sel = true → op.hasSelect = true) :
    decode c = .ok (op.build al (Sel.ofBit sel) c) := by
  have hal : ¬ (al && !op.hasAlign) = true := by simpa using ha
  have hsel : ¬ (sel && !op.hasSelect) = true := by simpa using hs
  simp [decode, rsvField_of_commandWord h, opcField_of_commandWord h, alField_of_commandWord h,
    selField_of_commandWord h, hal, hsel]

end

/-- A word with its reserved bits clear is put together from its own fields. -/
theorem cmd_eq_commandWord {c : Command} {op : Opc} (hr : c.cmd.toNat < 1024) (ho : c.cmd.toNat % 256 = op.code) :
    c.cmd = commandWord op c.alField.toNat c.selField.toNat := by
  refine BitVec.eq_of_toNat_eq ?_
  rw [commandWord_toNat_of_bits, Command.alField, Command.selField, BitVec.getLsbD, BitVec.getLsbD, Nat.toNat_testBit,
    Nat.toNat_testBit]
  omega

/-- The encoder gives a built command the word of the code and the bits it was built from, where the code admits them. -/
theorem encode_build_cmd {op : Opc} {al sel : Bool} (c : Command) (ha : al = true → op.hasAlign = true)
    (hs : sel = true → op.hasSelect = true) :
    (encode (op.build al (Sel.ofBit sel) c)).cmd = commandWord op al.toNat sel.toNat := by
  cases op with
  | bfrd | bfwr | chrd | chwr => cases al <;> simp [Opc.build, encode]
  | elrd | elwr | clr | itbeg | itend | itadd | itdiff | iteq =>
    obtain rfl : al = false := by simpa [Opc.hasAlign] using ha
    simp [Opc.build, encode]
  | pwbegin | pwdraw | pwread | pwadv | tdupdate =>
    obtain rfl : al = false := by simpa [Opc.hasAlign] using ha
    obtain rfl : sel = false := by simpa [Opc.hasSelect] using hs
    rfl

/-- Encoding a decoded command gives back the word it was decoded from. -/
theorem encode_cmd_of_decode {c : Command} {i : Instr} (h : decode c = .ok i) : (encode i).cmd = c.cmd := by
  obtain ⟨op, hr, ho, ha, hs, rfl⟩ := decode_ok h
  rw [encode_build_cmd c ha hs, ← cmd_eq_commandWord hr ho]

/-! ### The rows of the opcode map (R96) -/

/-- The row of the opcode map for an operation code and an alignment bit: its `mask` leaves out the bit `SEL` exactly
where the code has it. -/
def Opc.row (op : Opc) (al : Bool) : OpcodeRow where
  mnemonic := (op.build al .front ⟨0, 0, 0, 0, 0⟩).mnemonic
  pattern := commandWord op al.toNat 0
  mask := if op.hasSelect then 0xFFFFFDFF#32 else 0xFFFFFFFF#32

/-- The operation codes of the 21 rows of R96 with their alignment bits, in the order of the map. -/
def rowCodes : List (Opc × Bool) :=
  [(.bfrd, false), (.bfrd, true), (.bfwr, false), (.bfwr, true), (.elrd, false), (.elwr, false), (.chrd, false),
   (.chrd, true), (.chwr, false), (.chwr, true), (.clr, false), (.itbeg, false), (.itend, false), (.itadd, false),
   (.itdiff, false), (.iteq, false), (.pwbegin, false), (.pwdraw, false), (.pwread, false), (.pwadv, false),
   (.tdupdate, false)]

theorem opcodeRows_eq_map_row : opcodeRows = rowCodes.map fun p => p.1.row p.2 := by decide

theorem rowCodes_hasAlign : ∀ p ∈ rowCodes, p.2 = true → p.1.hasAlign = true := by decide

/-- Every row of the map is the row of an operation code and an alignment bit the code admits. -/
theorem exists_row_of_mem_opcodeRows {r : OpcodeRow} (h : r ∈ opcodeRows) :
    ∃ op al, (al = true → op.hasAlign = true) ∧ r = Opc.row op al := by
  rw [opcodeRows_eq_map_row] at h
  obtain ⟨p, hp, rfl⟩ := List.mem_map.1 h
  exact ⟨p.1, p.2, rowCodes_hasAlign p hp, rfl⟩

/-- Neither the store select nor the ports reach the mnemonic. -/
theorem build_mnemonic (op : Opc) (al : Bool) (sel : Sel) (c : Command) :
    (op.build al sel c).mnemonic = (op.row al).mnemonic := by
  cases op <;> cases al <;> rfl

/-- The mnemonics of the map are distinct. -/
theorem row_eq_of_mnemonic_eq :
    ∀ r ∈ opcodeRows, ∀ r' ∈ opcodeRows, r.mnemonic = r'.mnemonic → r = r' := by decide

/-! ### Agreement with a row (R97) -/

theorem commandWord_or_select (op : Opc) (al sel : Bool) :
    commandWord op al.toNat 0 ||| (if sel then BitVec.twoPow 32 9 else 0#32) = commandWord op al.toNat sel.toNat := by
  cases sel with
  | false => exact BitVec.or_zero
  | true => cases op <;> cases al <;> decide

/-- A word is its bits under the mask of a row with `SEL`, and bit 9. -/
theorem and_selectMask_or (w : Word) :
    (w &&& 0xFFFFFDFF#32) ||| (if w.getLsbD 9 then BitVec.twoPow 32 9 else 0#32) = w := by
  calc (w &&& 0xFFFFFDFF#32) ||| (if w.getLsbD 9 then BitVec.twoPow 32 9 else 0#32)
      = (w &&& 0xFFFFFDFF#32) ||| (w &&& BitVec.twoPow 32 9) := by rw [BitVec.and_twoPow]
    _ = w &&& (0xFFFFFDFF#32 ||| BitVec.twoPow 32 9) := BitVec.and_or_distrib_left.symm
    _ = w &&& BitVec.allOnes 32 := by congr 1
    _ = w := BitVec.and_allOnes

/-- A word that agrees with a row is the row's `match` with a select bit that the row's code admits. -/
theorem eq_commandWord_of_agrees {op : Opc} {al : Bool} {w : Word}
    (h : w &&& (op.row al).mask = (op.row al).pattern) :
    ∃ sel : Bool, (sel = true → op.hasSelect = true) ∧ w = commandWord op al.toNat sel.toNat := by
  simp only [Opc.row] at h
  split at h
  case isTrue hs =>
    refine ⟨w.getLsbD 9, fun _ => hs, ?_⟩
    rw [← commandWord_or_select, ← h, and_selectMask_or]
  case isFalse hs =>
    refine ⟨false, by simp, ?_⟩
    rw [Bool.toNat_false, ← h]
    exact BitVec.and_allOnes.symm

/-- A word that agrees with a row of the map decodes, to a command with the row's mnemonic. -/
theorem decode_of_agrees {r : OpcodeRow} (hr : r ∈ opcodeRows) {c : Command} (h : c.cmd &&& r.mask = r.pattern) :
    ∃ i, decode c = .ok i ∧ i.mnemonic = r.mnemonic := by
  obtain ⟨op, al, ha, rfl⟩ := exists_row_of_mem_opcodeRows hr
  obtain ⟨sel, hs, hw⟩ := eq_commandWord_of_agrees h
  exact ⟨_, decode_of_commandWord hw ha hs, build_mnemonic ..⟩

/-- A word that decodes agrees with the row that carries the command's mnemonic. -/
theorem agrees_of_decode {c : Command} {i : Instr} (h : decode c = .ok i) :
    ∃ r ∈ opcodeRows, r.mnemonic = i.mnemonic ∧ c.cmd &&& r.mask = r.pattern := by
  rw [← encode_cmd_of_decode h]
  exact Laws.EncodedWord.all i

end Sys2Proof

open Sys2Proof

/-- Settles O3: the word of a decoded command is the one its encoding has, which agrees with the one row of its mnemonic;
a word that agrees with a row is put together from the row's fields, and such a word decodes. -/
theorem legalWordsAreTheRowsOfTheMap : Obligations.LegalWordsAreTheRowsOfTheMap := by
  refine ⟨fun r hr c => ⟨decode_of_agrees hr, ?_⟩, fun c hnone => ?_⟩
  · rintro ⟨i, hi, hm⟩
    obtain ⟨r', hr', hm', hagree⟩ := agrees_of_decode hi
    obtain rfl : r' = r := row_eq_of_mnemonic_eq r' hr' r hr (hm'.trans hm)
    exact hagree
  · cases hd : decode c with
    | error e => exact ⟨e, rfl⟩
    | ok i =>
      obtain ⟨r, hr, -, hagree⟩ := agrees_of_decode hd
      exact absurd hagree (hnone r hr)
end

section
/-!
PROOFS. The family 42_packed_container: what `ELRD` answers (R140, R144) and what `ELWR` changes (R141, R145).
-/
namespace Sys2Proof.Machine

/-! ### The frame of a write to the selected store, the response set -/

theorem setStore_sameButStores (s : State) (sel : Sel) (m : Memory) (r : Response) :
    SameButStores s { s.setStore sel m with resp := r } := by
  unfold SameButStores State.setStore
  cases s.cfg.storeOf sel <;> rfl

theorem setStore_otherStoreSame (s : State) (sel : Sel) (m : Memory) (r : Response) :
    OtherStoreSame sel s { s.setStore sel m with resp := r } :=
  fun d hd => State.storeBytes_setStoreBytes_of_ne s (s.cfg.storeOf sel) d m hd

/-! ### Elements of the selected store -/

/-- An element fits the result port: a legal configuration has no element wider than 32 bits (00_scope R11). -/
theorem elemRead_lt {s : State} (h : s.cfg.wf = true) (sel : Sel) (i : Nat) : s.elemRead sel i < 2 ^ 32 :=
  Nat.lt_of_lt_of_le (Memory.elem_lt _ _ _) (Nat.pow_le_pow_right (by decide) (Config.elemBits_bounds h sel).2)

/-- `ELRD`'s result holds the element's stream bits, zero extended (42_packed_container R140, R144). -/
theorem getLsbD_unsignedResult_elemRead {s : State} (h : s.cfg.wf = true) (sel : Sel) (i j : Nat) :
    (unsignedResult (s.elemRead sel i)).getLsbD j =
      (decide (j < s.cfg.elemBits sel) && Memory.bit (s.store sel) (i * s.cfg.elemBits sel + j)) := by
  rw [getLsbD_unsignedResult _ _ (elemRead_lt h sel i), testBit_elemRead]

/-- An element write sets the element's stream bits and no other bit of the store (42_packed_container R141). -/
theorem bit_store_elemWrite {s : State} (hs : StoresOK s) (sel : Sel) (i v l : Nat) :
    Memory.bit ((s.elemWrite sel i v).store sel) l =
      if i * s.cfg.elemBits sel ≤ l ∧ l < i * s.cfg.elemBits sel + s.cfg.elemBits sel
      then v.testBit (l - i * s.cfg.elemBits sel) else Memory.bit (s.store sel) l := by
  rw [State.elemWrite, store_setStore, Memory.bit_setElem _ _ _ _ _ (wf_store hs sel)]

/-! ### The element commands on an index below the count -/

theorem exec_elrd_of_lt {s : State} (hr : Running s) {sel : Sel} {i : Nat} (hi : i < s.cfg.count sel) :
    exec (.elrd sel i) s = .next { s with resp := doneResponse (unsignedResult (s.elemRead sel i)) false } :=
  checkedElem_of_ok hr hi _

theorem exec_elwr_of_lt {s : State} (hr : Running s) {sel : Sel} {i : Nat} (hi : i < s.cfg.count sel) (v : Nat) :
    exec (.elwr sel i v) s = .next { s.elemWrite sel i v with resp := doneResponse 0 false } :=
  checkedElem_of_ok hr hi _

end Sys2Proof.Machine

open Sys2Proof Sys2Proof.Machine

/-- Settles O20: the answer is the element read, whose bits are the element's stream bits. -/
theorem elrdReadsTheElementBits : Obligations.ElrdReadsTheElementBits := by
  intro s sel i hrun hi
  exact ⟨_, exec_elrd_of_lt hrun hi, rfl, rfl, rfl, getLsbD_unsignedResult_elemRead hrun.1 sel i⟩

/-- Settles O21: the element write is one write of the selected store, which sets the element's stream bits alone; the
element then reads as the value reduced to its width. -/
theorem elwrWritesTheElementBitsOnly : Obligations.ElwrWritesTheElementBitsOnly := by
  intro s sel i v hrun hstores hi
  refine ⟨_, exec_elwr_of_lt hrun hi v, setStore_sameButStores s sel _ _, setStore_otherStoreSame s sel _ _,
    ⟨rfl, rfl, rfl⟩, ?_, bit_store_elemWrite hstores sel i v⟩
  exact (elemRead_elemWrite hstores sel i v i).trans (if_pos rfl)
end

section
/-!
PROOFS. The family 43_page_window: the box of `InBand` (R184) and what `PWBEGIN` (R185, R187) and `PWADV` (R186, R190)
make of the band.
-/
namespace Sys2Proof.Machine

/-! ### The points of the band -/

/-- `InBand` is the inclusive box between the two corners (43_page_window R184). -/
theorem inBand_iff (s : State) (x y : Int) :
    s.inBand x y = true ↔ s.p0x.toInt ≤ x ∧ x ≤ s.p1x.toInt ∧ s.p0y.toInt ≤ y ∧ y ≤ s.p1y.toInt := by
  simp only [State.inBand, Bool.and_eq_true, decide_eq_true_eq, and_assoc]

/-- A point of the resident band is a point of the frame. -/
theorem inBand_in_frame {s : State} {x y : Int} (hw : s.cfg.wf = true) (hb : BandOK s) (h : s.inBand x y = true) :
    (0 ≤ x ∧ x < s.cfg.width) ∧ 0 ≤ y ∧ y < s.cfg.height := by
  obtain ⟨htop, -, hbottom⟩ := band_in_frame hw hb
  obtain ⟨hleft, hright, -⟩ := hb
  obtain ⟨hx0, hx1, hy0, hy1⟩ := (inBand_iff s x y).1 h
  omega

/-! ### The band commands of the running block -/

theorem exec_pwbegin_of_running {s : State} (hr : Running s) :
    exec .pwbegin s = .next { s.beginFrame with resp := doneResponse 0 false } :=
  running_of_Running hr _

theorem exec_pwadv_of_lastBand {s : State} (hr : Running s) (hl : s.lastBand = true) :
    exec .pwadv s = .next { s with resp := doneResponse 0 false } :=
  (running_of_Running hr _).trans (if_pos hl)

theorem exec_pwadv_of_not_lastBand {s : State} (hr : Running s) (hl : s.lastBand = false) :
    exec .pwadv s = .next { s.advanceBand with resp := doneResponse 0 true } :=
  (running_of_Running hr _).trans (if_neg (Bool.eq_false_iff.1 hl))

end Sys2Proof.Machine

open Sys2Proof Sys2Proof.Machine

/-- Settles O34: the band invariant keeps the whole box inside the frame, so a point outside the frame is outside the
box. -/
theorem inBandIsTheInclusiveBox : Obligations.InBandIsTheInclusiveBox := by
  intro s x y hw hb
  refine ⟨inBand_iff s x y, fun hout => Bool.eq_false_iff.2 fun hin => ?_⟩
  obtain ⟨⟨hx0, hx1⟩, hy0, hy1⟩ := inBand_in_frame hw hb hin
  omega

/-- Settles O35: the frame start sets the box of the topmost band and clears the frontend store. -/
theorem pwbeginSetsTheTopBandAndClears : Obligations.PwbeginSetsTheTopBandAndClears := by
  intro s hr
  obtain ⟨h0x, h0y, h1x, h1y⟩ := beginFrame_band hr.1
  exact ⟨_, exec_pwbegin_of_running hr, ⟨rfl, rfl, rfl⟩, rfl, h0x, h0y, h1x, h1y, Memory.get_clear s.cfg.nf s.fs⟩

/-- Settles O39: at the last band nothing is done; above it the next band lies in the frame, so neither row of the box
wraps as it moves down. -/
theorem pwadvMovesTheBandOrStays : Obligations.PwadvMovesTheBandOrStays := by
  intro s hr hb
  obtain ⟨-, -, k, hk, htop, hbottom⟩ := hb
  refine ⟨fun hlast => ?_, fun habove => ?_⟩
  · exact ⟨_, exec_pwadv_of_lastBand hr ((lastBand_iff s).2 hlast), rfl, rfl, rfl, rfl⟩
  · have hl : s.lastBand = false := (lastBand_eq_false_iff s).2 habove
    obtain ⟨-, h0y, h1y⟩ := advanceBand_band hr.1 hk htop hbottom hl
    exact ⟨_, exec_pwadv_of_not_lastBand hr hl, ⟨rfl, rfl, rfl⟩, rfl, h0y, h1y⟩
end

section
/-!
PROOFS. The family 60_exceptions: which words and operands raise which cause (R251 to R253), that a fault is precise
(R254), and that only reset ends it (R257).
-/
namespace Sys2Proof

/-! ### The operation codes by their groups (R251 with 30_encoding R91, R96) -/

theorem Opc.code_mem (op : Opc) :
    op.code ∈ [0x10, 0x11, 0x20, 0x21, 0x22, 0x23, 0x24, 0x28, 0x29, 0x2A, 0x2B, 0x2C, 0x30, 0x31, 0x32, 0x33, 0x40] := by
  cases op <;> decide

theorem Opc.code_mem_of_hasAlign {op : Opc} (h : op.hasAlign = true) : op.code ∈ [0x10, 0x11, 0x22, 0x23] := by
  revert h
  cases op <;> decide

theorem Opc.code_lt_of_hasSelect {op : Opc} (h : op.hasSelect = true) : op.code < 0x30 := by
  revert h
  cases op <;> decide

end Sys2Proof

namespace Sys2Proof.Machine

/-! ### One command and one step, inverted -/

/-- A command that answers a next state was decoded and executed, or had an illegal word. -/
theorem execCommand_cases {c : Command} {s t : State} (h : execCommand c s = .next t) :
    (∃ i, decode c = .ok i ∧ exec i s = .next t) ∨ ∃ e, decode c = .error e ∧ execIllegal s = .next t := by
  unfold execCommand at h
  split at h
  case h_1 i hd => exact .inl ⟨i, hd, h⟩
  case h_2 e hd => exact .inr ⟨e, hd, h⟩

theorem execCommand_of_error {c : Command} {e : DecodeError} (h : decode c = .error e) (s : State) :
    execCommand c s = execIllegal s := by
  rw [execCommand, h]

/-- A step that finds a command pending runs it. -/
theorem step_of_issue {s : State} (hw : s.cfg.wf = true) {c : Command} {r p : Bool}
    (he : s.nextEvent = some (.issue c r p)) : step s = execCommand c (s.accept r p) := by
  simp [step, stepBody, hw, he, handleEvent]

theorem step_of_none {s : State} (hw : s.cfg.wf = true) (he : s.nextEvent = none) : step s = .next s := by
  simp [step, stepBody, hw, he]

/-- Everything a step can do under a legal configuration: wait, take a command, or reset. -/
theorem step_cases {s t : State} (hw : s.cfg.wf = true) (h : step s = .next t) :
    (s.nextEvent = none ∧ t = s) ∨
      (∃ c r p, s.nextEvent = some (.issue c r p) ∧ execCommand c (s.accept r p) = .next t) ∨
      ∃ f b, s.nextEvent = some (.reset f b) ∧ t = s.resetTo f b := by
  cases he : s.nextEvent with
  | none => exact .inl ⟨rfl, (Outcome_next_inj ((step_of_none hw he).symm.trans h)).symm⟩
  | some e =>
    cases e with
    | issue c r p => exact .inr (.inl ⟨c, r, p, rfl, (step_of_issue hw he).symm.trans h⟩)
    | reset f b => exact .inr (.inr ⟨f, b, rfl, (Outcome_next_inj ((step_of_reset hw he).symm.trans h)).symm⟩)

/-! ### Halting and faulting -/

/-- No effect of a command reaches `FAULT`: only taking a fault does (10_state R39). -/
theorem Effect.fault_eq {s u : State} {i : Instr} (e : Effect s i u) : u.fault = s.fault := by
  cases e <;> simp

/-- In a halted block a decoded command answers the stored code and does nothing else (R255). -/
theorem exec_next_of_halted {s t : State} {i : Instr} (hf : s.fault ≠ 0) (h : exec i s = .next t) :
    t = { s with resp := faultResponse s.fault } := by
  obtain ⟨-, hc⟩ := exec_cases h
  cases hc with
  | halted => rfl
  | fault h0 | effect h0 => exact absurd h0 hf

/-- In a halted block an illegal word answers the stored code too, and faults do not nest (R255). -/
theorem execIllegal_next_of_halted {s t : State} (hf : s.fault ≠ 0) (h : execIllegal s = .next t) :
    t = { s with resp := faultResponse s.fault } := by
  obtain ⟨-, ⟨h0, -⟩ | ⟨-, ht⟩⟩ := running_next h
  · exact absurd h0 hf
  · exact ht

theorem execCommand_next_of_halted {c : Command} {s t : State} (hf : s.fault ≠ 0) (h : execCommand c s = .next t) :
    t = { s with resp := faultResponse s.fault } := by
  obtain ⟨i, -, hi⟩ | ⟨e, -, hi⟩ := execCommand_cases h
  · exact exec_next_of_halted hf hi
  · exact execIllegal_next_of_halted hf hi

/-- A step of a halted block is a reset, or reaches nothing but the index, the input lines and the response (R257). -/
theorem step_cases_of_halted {s t : State} (hw : s.cfg.wf = true) (hf : s.fault ≠ 0) (h : step s = .next t) :
    (∃ f b, s.nextEvent = some (.reset f b) ∧ t = s.resetTo f b) ∨
      ∃ n r p a, t = { s with pc := n, ready := r, permit := p, resp := a } := by
  obtain ⟨-, rfl⟩ | ⟨c, r, p, -, hc⟩ | hreset := step_cases hw h
  · exact .inr ⟨_, _, _, _, rfl⟩
  · exact .inr ⟨_, _, _, _, execCommand_next_of_halted (s := s.accept r p) hf hc⟩
  · exact .inl hreset

/-- A decoded command of the running block that ends with `FAULT` nonzero took a fault: the halted answer needs a fault
from before, and no effect sets one. -/
theorem exec_faultedWith {s t : State} {i : Instr} (hr : Running s) (hf : t.fault ≠ 0) (h : exec i s = .next t) :
    FaultedWith s t t.fault := by
  obtain ⟨-, hc⟩ := exec_cases h
  cases hc with
  | halted h0 => exact absurd hr.2 h0
  | fault => rfl
  | effect h0 u res flag e => exact absurd (e.fault_eq.trans h0) hf

theorem execIllegal_of_running {s : State} (hr : Running s) :
    execIllegal s = .next { s with fault := 1, resp := faultResponse 1 } :=
  running_of_Running hr _

theorem execIllegal_faultedWith {s t : State} (hr : Running s) (h : execIllegal s = .next t) :
    FaultedWith s t t.fault := by
  obtain rfl := Outcome_next_inj ((execIllegal_of_running hr).symm.trans h)
  rfl

/-! ### Raising a cause -/

/-- The answer `b` of a command issued in state `s` is the fault with cause `c`. -/
def Raises (s : State) (b : Result) (c : Cause) : Prop := ∃ t, b = .next t ∧ FaultedWith s t c.code

theorem Cause.code_ne_zero (c : Cause) : c.code ≠ 0 := by cases c <;> decide

theorem Cause.code_injective {c d : Cause} (h : c.code = d.code) : c = d := by
  revert h
  cases c <;> cases d <;> decide

@[simp] theorem raises_takeFault {s : State} {c d : Cause} : Raises s (takeFault d s) c ↔ c = d := by
  constructor
  · rintro ⟨t, ht, hf⟩
    exact (Cause.code_injective (congrArg State.fault ((takeFault_next ht).symm.trans hf))).symm
  · rintro rfl
    exact ⟨_, rfl, rfl⟩

/-- A command that is done, its effect having left `FAULT` at 0, raises no cause. -/
theorem not_raises_done {s u : State} (hu : u.fault = 0) {res : Word} {flag : Bool} {c : Cause} :
    ¬ Raises s (done res flag u) c := by
  rintro ⟨t, ht, hf⟩
  have hsame : u.fault = c.code := congrArg State.fault ((done_next ht).symm.trans hf)
  exact c.code_ne_zero (hsame.symm.trans hu)

@[simp] theorem raises_ite {s : State} {P : Prop} [Decidable P] {b b' : Result} {c : Cause} :
    Raises s (if P then b else b') c ↔ (P ∧ Raises s b c) ∨ (¬P ∧ Raises s b' c) := by
  split <;> simp [*]

section
variable {s : State} (hr : Running s) {sel : Sel} {b : Result} {c : Cause} (hb : ¬ Raises s b c)
include hr hb

theorem raises_checkedField_iff {a o w : Nat} :
    Raises s (checkedField s sel a o w b) c ↔
      if fieldOK o w = true then s.cfg.nbytes sel ≤ a ∧ c = .indexRange else c = .fieldRange := by
  rw [checkedField, running_of_Running hr]
  split <;> simp [hb]

theorem raises_checkedElem_iff {i : Nat} :
    Raises s (checkedElem s sel i b) c ↔ s.cfg.count sel ≤ i ∧ c = .indexRange := by
  rw [checkedElem, running_of_Running hr]
  simp [hb]

theorem raises_checkedChannel_iff {i off w : Nat} :
    Raises s (checkedChannel s sel i off w b) c ↔
      if chanOK (s.cfg.elemBits sel) off w = true then s.cfg.count sel ≤ i ∧ c = .indexRange else c = .fieldRange := by
  rw [checkedChannel, running_of_Running hr]
  split <;> simp [hb]

end

/-! ### The commands by the checks they make (R256) -/

section
variable {s : State} (hr : Running s) {sel : Sel} {a o w v : Nat} {c : Cause}
include hr

theorem raises_bitField_iff :
    ∀ i ∈ [Instr.bfrdR sel a o w, .bfrdL sel a o w, .bfwrR sel a o w v, .bfwrL sel a o w v],
      Raises s (exec i s) c ↔
        if fieldOK o w = true then s.cfg.nbytes sel ≤ a ∧ c = .indexRange else c = .fieldRange := by
  intro i hi
  have hwrite (m : Nat) : (s.setStoreByte sel a m).fault = 0 := (State.setStoreByte_fault ..).trans hr.2
  simp only [List.mem_cons, List.not_mem_nil, or_false] at hi
  obtain rfl | rfl | rfl | rfl := hi
  · exact raises_checkedField_iff hr (not_raises_done hr.2)
  · exact raises_checkedField_iff hr (not_raises_done hr.2)
  · exact raises_checkedField_iff hr (not_raises_done (hwrite _))
  · exact raises_checkedField_iff hr (not_raises_done (hwrite _))

theorem raises_element_iff :
    ∀ i ∈ [Instr.elrd sel a, .elwr sel a v], Raises s (exec i s) c ↔ s.cfg.count sel ≤ a ∧ c = .indexRange := by
  intro i hi
  simp only [List.mem_cons, List.not_mem_nil, or_false] at hi
  obtain rfl | rfl := hi
  · exact raises_checkedElem_iff hr (not_raises_done hr.2)
  · exact raises_checkedElem_iff hr (not_raises_done ((State.elemWrite_fault ..).trans hr.2))

theorem raises_channel_iff :
    ∀ i ∈ [Instr.chrdR sel a o w, .chrdL sel a o w, .chwrR sel a o w v, .chwrL sel a o w v],
      Raises s (exec i s) c ↔
        if chanOK (s.cfg.elemBits sel) o w = true then s.cfg.count sel ≤ a ∧ c = .indexRange else c = .fieldRange := by
  intro i hi
  have hwrite (m : Nat) : (s.elemWrite sel a m).fault = 0 := (State.elemWrite_fault ..).trans hr.2
  simp only [List.mem_cons, List.not_mem_nil, or_false] at hi
  obtain rfl | rfl | rfl | rfl := hi
  · exact raises_checkedChannel_iff hr (not_raises_done hr.2)
  · exact raises_checkedChannel_iff hr (not_raises_done hr.2)
  · exact raises_checkedChannel_iff hr (not_raises_done (hwrite _))
  · exact raises_checkedChannel_iff hr (not_raises_done (hwrite _))

theorem raises_itdiff_iff {b : Nat} :
    Raises s (exec (.itdiff sel a b) s) c ↔ (s.cfg.count sel < a ∨ s.cfg.count sel < b) ∧ c = .indexRange := by
  rw [exec, execItdiff, running_of_Running hr]
  simp [not_raises_done hr.2]

theorem raises_iteq_iff {b : Nat} :
    Raises s (exec (.iteq sel a b) s) c ↔ (s.cfg.count sel < a ∨ s.cfg.count sel < b) ∧ c = .indexRange := by
  rw [exec, execIteq, running_of_Running hr]
  simp [not_raises_done hr.2]

/-- The two checks of `ITADD`, on the operand and on the result, raise the same cause. -/
theorem raises_itadd_iff {n : Int} :
    Raises s (exec (.itadd sel a n) s) c ↔
      (s.cfg.count sel < a ∨ (a : Int) + n < 0 ∨ (s.cfg.count sel : Int) < (a : Int) + n) ∧ c = .indexRange := by
  rw [exec, execItadd, running_of_Running hr]
  simp only [raises_ite, raises_takeFault, not_raises_done hr.2]
  tauto

end
end Sys2Proof.Machine

open Sys2Proof Sys2Proof.Machine

/-- Settles O6: a word that decodes has an assigned code, clear reserved bits, and `AL` and `SEL` only where its code
has them, so each of the four kinds of word is rejected, and the step takes the fault. -/
theorem illegalWordsRaiseIllegalCmd : Obligations.IllegalWordsRaiseIllegalCmd := by
  intro s c r p hr he hill
  rw [step_of_issue hr.1 he]
  cases hd : decode c with
  | error e => exact ⟨_, (execCommand_of_error hd _).trans (execIllegal_of_running hr), rfl⟩
  | ok i =>
    obtain ⟨op, hrsv, hop, hal, hsel, -⟩ := decode_ok hd
    exfalso
    rw [hop] at hill
    rcases hill with hcode | hbits | ⟨hbit, hcode⟩ | ⟨hbit, hcode⟩
    · exact hcode op.code_mem
    · exact hbits (Nat.div_eq_of_lt hrsv)
    · exact hcode (Opc.code_mem_of_hasAlign (hal hbit))
    · exact absurd (Opc.code_lt_of_hasSelect (hsel hbit)) (Nat.not_lt.2 hcode)

/-- Settles O11: a step of the halted block that is no reset reaches neither `FAULT` nor the contents, and a reset ends
the fault. -/
theorem onlyResetClearsAFault : Obligations.OnlyResetClearsAFault := by
  intro s hw hf
  refine ⟨fun t hstep hne => ?_, fun t hstep h0 => ?_, fun f b he => ⟨_, step_of_reset hw he, rfl⟩⟩
  · obtain ⟨f, b, -, rfl⟩ | ⟨n, r, p, a, rfl⟩ := step_cases_of_halted hw hf hstep
    · exact absurd rfl hne
    · exact ⟨rfl, rfl, rfl, rfl, rfl, rfl⟩
  · obtain ⟨f, b, he, -⟩ | ⟨n, r, p, a, rfl⟩ := step_cases_of_halted hw hf hstep
    · exact ⟨f, b, he⟩
    · exact absurd h0 hf

/-- Settles O12: a decoded command that ends with `FAULT` nonzero took a fault and had no effect, and an illegal word
does nothing but take its fault. -/
theorem faultsArePrecise : Obligations.FaultsArePrecise := by
  intro s t hr hf
  refine ⟨fun i h => exec_faultedWith hr hf h, fun c h => ?_⟩
  obtain ⟨i, -, hi⟩ | ⟨e, -, hi⟩ := execCommand_cases h
  · exact exec_faultedWith hr hf hi
  · exact execIllegal_faultedWith hr hi

/-- Settles O14: the field or channel is checked first, and no other check of these commands has this cause. -/
theorem fieldRangeIsRaisedExactly : Obligations.FieldRangeIsRaisedExactly := by
  intro s sel a o w v hr
  constructor
  · intro i hi
    refine (raises_bitField_iff hr (c := .fieldRange) i hi).trans ?_
    rw [← fieldOK_iff]
    simp
  · intro i hi
    refine (raises_channel_iff hr (c := .fieldRange) i hi).trans ?_
    rw [← chanOK_iff]
    simp

/-- Settles O15: past a legal field or channel, the range of the operand, and for `ITADD` of the result, is the one
check left. -/
theorem indexRangeIsRaisedExactly : Obligations.IndexRangeIsRaisedExactly := by
  intro s sel a o w v b n hr
  refine ⟨fun hok i hi => ?_, fun i hi => ?_, fun hok i hi => ?_, fun i hi => ?_, ?_⟩
  · refine (raises_bitField_iff hr (c := .indexRange) i hi).trans ?_
    simp [(fieldOK_iff o w).2 hok]
  · exact (raises_element_iff hr i hi).trans (and_iff_left rfl)
  · refine (raises_channel_iff hr (c := .indexRange) i hi).trans ?_
    simp [(chanOK_iff (s.cfg.elemBits sel) o w).2 hok]
  · simp only [List.mem_cons, List.not_mem_nil, or_false] at hi
    obtain rfl | rfl := hi
    · exact (raises_itdiff_iff hr).trans (and_iff_left rfl)
    · exact (raises_iteq_iff hr).trans (and_iff_left rfl)
  · exact (raises_itadd_iff hr).trans (and_iff_left rfl)
end

section
/-!
PROOFS. The family 30_encoding, continued: the encoder and the decoder undo each other (R91, R93, R95 to R97), the rows
of the map exclude each other (R96), and the example words (R102).
-/
namespace Sys2Proof

/-! ### The fields of a command's own word (R91, R96) -/

/-- The operation code of a command (R96, column OPC). -/
def Instr.opcode : Instr → Opc
  | .bfrdR .. | .bfrdL .. => .bfrd
  | .bfwrR .. | .bfwrL .. => .bfwr
  | .elrd .. => .elrd
  | .elwr .. => .elwr
  | .chrdR .. | .chrdL .. => .chrd
  | .chwrR .. | .chwrL .. => .chwr
  | .clr .. => .clr
  | .itbeg .. => .itbeg
  | .itend .. => .itend
  | .itadd .. => .itadd
  | .itdiff .. => .itdiff
  | .iteq .. => .iteq
  | .pwbegin => .pwbegin
  | .pwdraw .. => .pwdraw
  | .pwread .. => .pwread
  | .pwadv => .pwadv
  | .tdupdate => .tdupdate

/-- The bit `AL` of a command (R91): set for the left-aligned forms. -/
def Instr.alignBit : Instr → Bool
  | .bfrdL .. | .bfwrL .. | .chrdL .. | .chwrL .. => true
  | _ => false

/-- The bit `SEL` of a command (R91, R92), clear where the command has none. -/
def Instr.selectBit : Instr → Bool
  | .bfrdR sel .. | .bfrdL sel .. | .bfwrR sel .. | .bfwrL sel .. | .elrd sel .. | .elwr sel .. | .chrdR sel ..
  | .chrdL sel .. | .chwrR sel .. | .chwrL sel .. | .clr sel | .itbeg sel | .itend sel | .itadd sel .. | .itdiff sel ..
  | .iteq sel .. => decide (sel = .back)
  | .pwbegin | .pwdraw .. | .pwread .. | .pwadv | .tdupdate => false

@[simp] theorem Sel.toNat_decide_eq_back (sel : Sel) : (decide (sel = .back)).toNat = sel.bit := by cases sel <;> rfl

@[simp] theorem Sel.ofBit_decide_eq_back (sel : Sel) : Sel.ofBit (decide (sel = .back)) = sel := by cases sel <;> rfl

theorem encode_cmd_eq_commandWord (i : Instr) :
    (encode i).cmd = commandWord i.opcode i.alignBit.toNat i.selectBit.toNat := by
  cases i <;> simp [encode, Instr.opcode, Instr.alignBit, Instr.selectBit]

theorem hasAlign_of_alignBit {i : Instr} (h : i.alignBit = true) : i.opcode.hasAlign = true := by
  revert h
  cases i <;> simp [Instr.alignBit, Instr.opcode, Opc.hasAlign]

theorem hasSelect_of_selectBit {i : Instr} (h : i.selectBit = true) : i.opcode.hasSelect = true := by
  revert h
  cases i <;> simp [Instr.selectBit, Instr.opcode, Opc.hasSelect]

/-! ### Encoding, then decoding -/

/-- A command whose operands fit their ports is built back from the ports of its encoding (R93, R95). -/
theorem build_encode {i : Instr} (h : i.wf = true) :
    i.opcode.build i.alignBit (Sel.ofBit i.selectBit) (encode i) = i := by
  cases i <;> simp [Instr.wf] at h <;>
    simp [Instr.opcode, Instr.alignBit, Instr.selectBit, Opc.build, encode, toNat_unsignedPort, toInt_signedPort, h]

/-! ### Decoding, then encoding -/

/-- Whatever the ports hold, the operands read from them fit them (R95). -/
theorem build_wf (op : Opc) (al : Bool) (sel : Sel) (c : Command) : (op.build al sel c).wf = true := by
  cases op with
  | bfrd | bfwr | chrd | chwr => cases al <;> simp [Opc.build, Instr.wf, unsignedOperand_toNat]
  | elrd | elwr | clr | itbeg | itend | itadd | itdiff | iteq | pwbegin | pwdraw | pwread | pwadv | tdupdate =>
    simp [Opc.build, Instr.wf, unsignedOperand_toNat, signedOperand_toInt]

end Sys2Proof

open Sys2Proof

/-- Settles O1: the word of the encoding is put together from the command's own code and bits, such a word decodes, and
the command is built back from its ports. -/
theorem encodedCommandsDecodeBack : Obligations.EncodedCommandsDecodeBack := by
  intro i hwf
  have hdecode := decode_of_commandWord (encode_cmd_eq_commandWord i) hasAlign_of_alignBit hasSelect_of_selectBit
  rw [hdecode, build_encode hwf]

/-- Settles O2: a decoded command is built from ports, so its operands fit them, and its encoding has the word. -/
theorem decodedCommandsKeepTheirWord : Obligations.DecodedCommandsKeepTheirWord := by
  intro c i hdecode
  refine ⟨?_, encode_cmd_of_decode hdecode⟩
  obtain ⟨op, -, -, -, -, rfl⟩ := decode_ok hdecode
  exact build_wf op _ _ c

/-- Settles O4: a word that agrees with a row decodes to a command with the row's mnemonic, and the mnemonics of the map
are distinct. -/
theorem opcodeRowsDoNotOverlap : Obligations.OpcodeRowsDoNotOverlap := by
  intro r hr r' hr' w hagree hagree'
  let c : Command := ⟨w, 0, 0, 0, 0⟩
  obtain ⟨i, hi, hm⟩ := decode_of_agrees (c := c) hr hagree
  obtain ⟨i', hi', hm'⟩ := decode_of_agrees (c := c) hr' hagree'
  obtain rfl : i = i' := by rw [hi] at hi'; injection hi'
  exact row_eq_of_mnemonic_eq r hr r' hr' (hm.symm.trans hm')

/-- Settles O5: each word is put together from the fields its command names, whatever the ports hold. -/
theorem exampleWordsDecode : Obligations.ExampleWordsDecode := fun _ _ _ _ =>
  ⟨decode_of_commandWord (op := .bfrd) (al := true) (sel := true) rfl (fun _ => rfl) fun _ => rfl,
    decode_of_commandWord (op := .chwr) (al := false) (sel := false) rfl (fun _ => rfl) fun _ => rfl,
    decode_of_commandWord (op := .pwdraw) (al := false) (sel := false) rfl nofun nofun,
    decode_of_commandWord (op := .tdupdate) (al := false) (sel := false) rfl nofun nofun,
    decode_of_commandWord (op := .itadd) (al := false) (sel := true) rfl nofun fun _ => rfl⟩
end

section
/-!
PROOFS. The invariant of the states a run reaches (10_state R37, R38; 20_memory R74): it holds after reset, every step
keeps it, and from a state that meets it no step stops.
-/
namespace Sys2Proof.Machine

/-! ### The stores keep their canonical form and their bounds (20_memory R74) -/

theorem storesOK_setStoreByte {s : State} (h : StoresOK s) {sel : Sel} {a : Nat} (ha : a < s.cfg.nbytes sel) (v : Nat) :
    StoresOK (s.setStoreByte sel a v) :=
  storesOK_setStore h sel _ (Memory.wf_set _ _ _ (wf_store h sel)) (Memory.within_set _ _ _ _ (within_store h sel) ha)

theorem storesOK_elemWrite {s : State} (h : StoresOK s) {sel : Sel} {i : Nat} (hi : i < s.cfg.count sel) (v : Nat) :
    StoresOK (s.elemWrite sel i v) :=
  storesOK_setStore h sel _ (Memory.wf_setElem _ _ _ _ (wf_store h sel))
    (Memory.within_setElem _ _ _ _ _ (within_store h sel) (Config.elem_inside _ sel i hi))

theorem storesOK_clear {s : State} (h : StoresOK s) (sel : Sel) :
    StoresOK (s.setStore sel (Memory.clear (s.cfg.nbytes sel) (s.store sel))) :=
  storesOK_setStore h sel _ (Memory.wf_clear _ _ (wf_store h sel)) (Memory.within_clear _ _ _ (within_store h sel))

theorem storesOK_beginFrame {s : State} (h : StoresOK s) : StoresOK s.beginFrame := by
  obtain ⟨hfs, hin, hbs⟩ := h
  exact ⟨Memory.wf_clear _ _ hfs, Memory.within_clear _ _ _ hin, hbs⟩

/-- A chunk has at most `MAX_CHUNK` elements, for which the backend store has room (44_transfer R226). -/
theorem storesOK_writeChunk {s : State} (h : StoresOK s) : StoresOK s.writeChunk := by
  obtain ⟨hfs, hin, hbs, hbin⟩ := h
  have hback : Memory.wf s.writeChunk.bs = true ∧ Memory.within s.cfg.nb s.writeChunk.bs = true := by
    cases hb : s.cfg.bridge with
    | identity =>
      rw [State.writeChunk_bs, afterExtract_bs_of_identity _ _ _ hb]
      exact ⟨hbs, hbin⟩
    | converting =>
      have hroom : s.chunkSize * s.cfg.eb ≤ 8 * s.cfg.nb := by
        rw [Config.nb_converting hb]
        exact (Nat.mul_le_mul_right _ (chunkSize_le s).2).trans (ceilDiv_eight _).1
      rw [State.writeChunk_bs, afterExtract_bs_of_converting _ _ _ hb]
      exact ⟨wf_convertChunk _ _ _ _ _ hbs, within_convertChunk _ _ _ _ _ _ hbin hroom⟩
  exact ⟨by simpa using hfs, by simpa using hin, hback.1, by simpa using hback.2⟩

theorem Effect.storesOK {s u : State} {i : Instr} (h : StoresOK s) (e : Effect s i u) : StoresOK u := by
  cases e with
  | same => exact h
  | bfwrR _ _ _ _ _ ha | bfwrL _ _ _ _ _ ha => exact storesOK_setStoreByte h ha _
  | elwr _ _ _ hk | chwrR _ _ _ _ _ hk | chwrL _ _ _ _ _ hk => exact storesOK_elemWrite h hk _
  | clr sel => exact storesOK_clear h sel
  | pwbegin => exact storesOK_beginFrame h
  | pwdraw _ _ _ hp => exact storesOK_elemWrite h (sel := .front) hp _
  | pwadv => exact h
  | chunk => exact storesOK_writeChunk h
  | nextPage => exact storesOK_writeChunk (s := s.advanceBand.startPage) h
  | nextFrame => exact storesOK_writeChunk (s := s.startFrame.startPage) (storesOK_beginFrame h)

/-! ### The band stays one of the frame's bands (10_state R37) -/

theorem bandOK_beginFrame {s : State} (hw : s.cfg.wf = true) : BandOK s.beginFrame := by
  obtain ⟨h0x, h0y, h1x, h1y⟩ := beginFrame_band hw
  refine ⟨h0x, h1x, 0, Config.pageCount_pos hw, ?_, ?_⟩
  · simp
  · rw [h1y, h0y, State.beginFrame_cfg]; omega

theorem bandOK_advanceBand {s : State} (hw : s.cfg.wf = true) (h : BandOK s) (hl : s.lastBand = false) :
    BandOK s.advanceBand := by
  obtain ⟨hleft, hright, k, hk, htop, hbottom⟩ := h
  obtain ⟨hk', h0y, h1y⟩ := advanceBand_band hw hk htop hbottom hl
  refine ⟨hleft, hright, k + 1, hk', ?_, ?_⟩
  · rw [h0y, htop, State.advanceBand_cfg]; push_cast; ring
  · rw [h1y, h0y, hbottom, State.advanceBand_cfg]; ring

/-- The band is read from the configuration and the four band fields alone. -/
theorem BandOK.congr {s t : State} (h : BandOK s) (hc : t.cfg = s.cfg)
    (hb : (t.p0x, t.p0y, t.p1x, t.p1y) = (s.p0x, s.p0y, s.p1x, s.p1y)) : BandOK t := by
  simp only [Prod.mk.injEq] at hb
  obtain ⟨h0x, h0y, h1x, h1y⟩ := hb
  simpa only [BandOK, hc, h0x, h0y, h1x, h1y] using h

theorem Effect.bandOK {s u : State} {i : Instr} (hw : s.cfg.wf = true) (h : BandOK s) (e : Effect s i u) :
    BandOK u := by
  cases e with
  | same | bfwrR | bfwrL | elwr | chwrR | chwrL | clr | pwdraw | chunk => exact h.congr (by simp) (by simp)
  | pwbegin => exact bandOK_beginFrame hw
  | pwadv hl => exact bandOK_advanceBand hw h hl
  | nextPage _ _ hl => exact (bandOK_advanceBand hw h hl).congr (by simp) (by simp)
  | nextFrame => exact (bandOK_beginFrame hw).congr (by simp) (by simp)

/-! ### Commands and steps keep the invariant -/

/-- No command changes the configuration or the model's own fields of the host and its lines (10_state R33). -/
theorem Effect.environment_eq {s u : State} {i : Instr} (e : Effect s i u) :
    u.cfg = s.cfg ∧ u.host = s.host ∧ u.pc = s.pc ∧ u.ready = s.ready ∧ u.permit = s.permit := by
  cases e <;> simp

theorem Effect.inv {s u : State} {i : Instr} (h : Inv s) (e : Effect s i u) : Inv u := by
  obtain ⟨hcfg, hhost, hpc, -⟩ := e.environment_eq
  have hrem : u.rem.toNat ≤ s.cfg.ppp := by
    obtain hsame | ⟨-, rfl⟩ := e.rem_eq_or_sends
    · exact hsame ▸ h.rem
    · exact beforeChunk_writeChunk_rem_le h.config h.rem
  exact ⟨hcfg ▸ h.config, e.storesOK h.stores, e.bandOK h.config h.band, hcfg ▸ hrem, hpc ▸ hhost ▸ h.index⟩

/-- The invariant speaks neither of `FAULT` nor of the response. -/
theorem Inv.withFaultResp {s : State} (h : Inv s) (f : BitVec 2) (r : Response) :
    Inv { s with fault := f, resp := r } :=
  ⟨h.config, h.stores, h.band, h.rem, h.index⟩

theorem exec_inv {s t : State} {i : Instr} (h : Inv s) (he : exec i s = .next t) : Inv t := by
  obtain ⟨-, hc⟩ := exec_cases he
  cases hc with
  | halted => exact h.withFaultResp _ _
  | fault => exact h.withFaultResp _ _
  | effect _ u _ _ e => exact (e.inv h).withFaultResp _ _

theorem execIllegal_inv {s t : State} (h : Inv s) (he : execIllegal s = .next t) : Inv t := by
  obtain ⟨-, ⟨-, hf⟩ | ⟨-, rfl⟩⟩ := running_next he
  · rw [takeFault_next hf]
    exact h.withFaultResp _ _
  · exact h.withFaultResp _ _

theorem execCommand_inv {s t : State} {c : Command} (h : Inv s) (he : execCommand c s = .next t) : Inv t := by
  obtain ⟨i, -, hi⟩ | ⟨e, -, hi⟩ := execCommand_cases he
  · exact exec_inv h hi
  · exact execIllegal_inv h hi

theorem nextEvent_index_lt {s : State} {e : HostEvent} (he : s.nextEvent = some e) : s.pc < s.host.length :=
  (List.getElem?_eq_some_iff.1 he).1

/-- Taking the host's next command moves the index on inside the sequence. -/
theorem Inv.accept {s : State} (h : Inv s) {e : HostEvent} (he : s.nextEvent = some e) (r p : Bool) :
    Inv (s.accept r p) :=
  ⟨h.config, h.stores, h.band, h.rem, nextEvent_index_lt he⟩

/-! ### Reset establishes the invariant (10_state R47 to R49) -/

/-- The top row of the last band. -/
theorem lastTop_eq {c : Config} (h : c.wf = true) : c.lastTop = (c.pageCount - 1) * c.pageHeight := by
  rw [Config.lastTop, Nat.sub_mul, Nat.one_mul, Config.pageHeight_mul h]

theorem bandOK_resetWith {c : Config} (h : c.wf = true) (f b : List Byte) : BandOK (State.resetWith c f b) := by
  obtain ⟨-, h0x, h0y, h1x, h1y, -⟩ := resetWith_leftByReset h f b
  have hc := Config.pageCount_pos h
  have hle := Config.pageHeight_le h
  refine ⟨h0x, h1x, c.pageCount - 1, Nat.sub_lt hc Nat.one_pos, ?_, ?_⟩
  · rw [h0y, lastTop_eq h]; push_cast; rfl
  · rw [h0y, h1y, Config.lastTop]
    show (c.height : Int) - 1 = ((c.height - c.pageHeight : Nat) : Int) + (c.pageHeight : Nat) - 1
    omega

theorem inv_resetWith {c : Config} (h : c.wf = true) (f b : List Byte) : Inv (State.resetWith c f b) where
  config := h
  stores := ⟨Memory.wf_ofBytes _ _, Memory.within_ofBytes _ _, Memory.wf_ofBytes _ _, Memory.within_ofBytes _ _⟩
  band := bandOK_resetWith h f b
  rem := Nat.zero_le _
  index := Nat.zero_le _

/-- The reset of a running machine differs in the host's sequence and its index, which moves on inside it. -/
theorem inv_resetTo {s : State} (h : Inv s) {e : HostEvent} (he : s.nextEvent = some e) (f b : List Byte) :
    Inv (s.resetTo f b) :=
  have hreset := inv_resetWith h.config f b
  ⟨hreset.config, hreset.stores, hreset.band, hreset.rem, nextEvent_index_lt he⟩

/-! ### No command stops under the invariant (log entries 8, 9) -/

/-- The command answers a next state. -/
def Answers (b : Result) : Prop := ∃ t, b = .next t

theorem answers_next (t : State) : Answers (.next t) := ⟨t, rfl⟩

theorem answers_ite {P : Prop} [Decidable P] {b b' : Result} (h : P → Answers b) (h' : ¬P → Answers b') :
    Answers (if P then b else b') := by
  split
  · exact h ‹_›
  · exact h' ‹_›

theorem answers_running {s : State} (hw : s.cfg.wf = true) {b : Result} (h : Answers b) : Answers (running s b) := by
  rw [running, if_pos hw]
  exact answers_ite (fun _ => h) fun _ => answers_next _

theorem answers_checkedField {s : State} (hw : s.cfg.wf = true) {sel : Sel} {a o w : Nat} {b : Result}
    (h : Answers b) : Answers (checkedField s sel a o w b) :=
  answers_running hw (answers_ite (fun _ => answers_ite (fun _ => h) fun _ => answers_next _) fun _ => answers_next _)

theorem answers_checkedElem {s : State} (hw : s.cfg.wf = true) {sel : Sel} {i : Nat} {b : Result} (h : Answers b) :
    Answers (checkedElem s sel i b) :=
  answers_running hw (answers_ite (fun _ => h) fun _ => answers_next _)

theorem answers_checkedChannel {s : State} (hw : s.cfg.wf = true) {sel : Sel} {i off w : Nat} {b : Result}
    (h : Answers b) : Answers (checkedChannel s sel i off w b) :=
  answers_running hw (answers_ite (fun _ => answers_ite (fun _ => h) fun _ => answers_next _) fun _ => answers_next _)

/-- A pixel of the resident band has an element of the page (43_page_window R183). -/
theorem pixelIndex_lt {s : State} (hw : s.cfg.wf = true) (hb : BandOK s) {x y : Int} (h : s.inBand x y = true) :
    s.pixelIndex x y < s.cfg.ppp :=
  have ⟨hx, hy, _, _⟩ := inBand_relative hb h
  Config.mapIndex_lt hw hx hy

theorem exec_tdupdate_answers {s : State} (h : Inv s) : Answers (exec .tdupdate s) := by
  have send : ∀ u : State, u.rem.toNat ≤ u.cfg.ppp → Answers (sendChunk u) := fun u hu =>
    answers_ite (fun _ => answers_next _) fun hn => absurd hu hn
  have hfull : (BitVec.ofNat 32 s.cfg.ppp).toNat ≤ s.cfg.ppp :=
    Nat.le_of_eq (toNat_ofNat_small (Config.ppp_le h.config))
  refine answers_running h.config (answers_ite (fun _ => answers_ite (fun _ => send s h.rem) fun _ => ?_) fun _ =>
    answers_next _)
  exact answers_ite (fun _ => answers_ite (fun _ => send s.startFrame.startPage hfull) fun _ => answers_next _) fun _ =>
    send s.advanceBand.startPage hfull

theorem exec_answers {s : State} (h : Inv s) (i : Instr) : Answers (exec i s) := by
  have hw := h.config
  cases i with
  | bfrdR | bfrdL | bfwrR | bfwrL => exact answers_checkedField hw (answers_next _)
  | elrd | elwr => exact answers_checkedElem hw (answers_next _)
  | chrdR | chrdL | chwrR | chwrL => exact answers_checkedChannel hw (answers_next _)
  | clr | itbeg | itend | pwbegin => exact answers_running hw (answers_next _)
  | itadd =>
    exact answers_running hw
      (answers_ite (fun _ => answers_next _) fun _ => answers_ite (fun _ => answers_next _) fun _ => answers_next _)
  | itdiff | iteq | pwadv => exact answers_running hw (answers_ite (fun _ => answers_next _) fun _ => answers_next _)
  | pwdraw | pwread =>
    exact answers_running hw
      (answers_ite
        (fun hin => answers_ite (fun _ => answers_next _) fun hout => absurd (pixelIndex_lt hw h.band hin) hout)
        fun _ => answers_next _)
  | tdupdate => exact exec_tdupdate_answers h

theorem execCommand_answers {s : State} (h : Inv s) (c : Command) : Answers (execCommand c s) := by
  cases hd : decode c with
  | ok i =>
    rw [execCommand, hd]
    exact exec_answers h i
  | error e =>
    rw [execCommand_of_error hd]
    exact answers_running h.config (answers_next _)

end Sys2Proof.Machine

open Sys2Proof Sys2Proof.Machine

/-- Settles O55: a step waits, takes a command, whose effect keeps the stores, the band and the counter in their
ranges, or resets. -/
theorem everyStepKeepsTheInvariant : Obligations.EveryStepKeepsTheInvariant := by
  intro s t hinv hstep
  obtain ⟨-, rfl⟩ | ⟨c, r, p, he, hc⟩ | ⟨f, b, he, rfl⟩ := step_cases hinv.config hstep
  · exact hinv
  · exact execCommand_inv (hinv.accept he r p) hc
  · exact inv_resetTo hinv he f b

/-- Settles O54: reset leaves the last band of a legal configuration, no pixel to send and stores cut to their sizes. -/
theorem resetStatesMeetTheInvariant : Obligations.ResetStatesMeetTheInvariant :=
  ⟨fun _ f b hw => inv_resetWith hw f b, inv_resetWith (by decide) [] []⟩

/-- Settles O56: the host's next event is none, a reset or a command, and under the invariant a command answers. -/
theorem goodStatesNeverStop : Obligations.GoodStatesNeverStop := by
  intro s hinv
  cases he : s.nextEvent with
  | none => exact ⟨s, step_of_none hinv.config he⟩
  | some e =>
    cases e with
    | issue c r p =>
      rw [step_of_issue hinv.config he]
      exact execCommand_answers (hinv.accept he r p) c
    | reset f b => exact ⟨_, step_of_reset hinv.config he⟩
end

section
/-!
PROOFS. The step (10_state R31; 00_scope R12), the halted block (60_exceptions R255), the causes of each command (R250),
and which parts of the state a command writes and reads (00_scope R19; 10_state R33 to R41; 20_memory R60).
-/
namespace Sys2Proof.Machine

/-! ### Every command runs under the checks of the configuration and of `FAULT` -/

theorem exec_eq_running (i : Instr) (s : State) : ∃ b, exec i s = running s b := by
  cases i <;> exact ⟨_, rfl⟩

theorem exec_of_illFormed {s : State} (h : ¬ s.cfg.wf = true) (i : Instr) :
    exec i s = .refused .illFormedConfiguration := by
  obtain ⟨b, hb⟩ := exec_eq_running i s
  rw [hb, running_of_illFormed h]

theorem step_of_illFormed {s : State} (h : ¬ s.cfg.wf = true) : step s = .refused .illFormedConfiguration :=
  if_neg h

theorem exec_of_halted {s : State} (hw : s.cfg.wf = true) (hf : s.fault ≠ 0) (i : Instr) :
    exec i s = haltedAnswer s := by
  obtain ⟨b, hb⟩ := exec_eq_running i s
  rw [hb, running_of_halted hw hf]

theorem execCommand_of_ok {c : Command} {i : Instr} (h : decode c = .ok i) (s : State) :
    execCommand c s = exec i s := by
  rw [execCommand, h]

theorem execCommand_of_halted {s : State} (hw : s.cfg.wf = true) (hf : s.fault ≠ 0) (c : Command) :
    execCommand c s = haltedAnswer s := by
  cases hd : decode c with
  | ok i => rw [execCommand_of_ok hd, exec_of_halted hw hf]
  | error e => rw [execCommand_of_error hd, execIllegal, running_of_halted hw hf]

end Sys2Proof.Machine

namespace Sys2Proof

/-! ### The causes a command can raise (60_exceptions R250) -/

/-- The causes a command checks for (60_exceptions R250, column "raised by"; R256). -/
def Instr.causes : Instr → List Machine.Cause
  | .bfrdR .. | .bfrdL .. | .bfwrR .. | .bfwrL .. | .chrdR .. | .chrdL .. | .chwrR .. | .chwrL .. =>
    [.fieldRange, .indexRange]
  | .elrd .. | .elwr .. | .itadd .. | .itdiff .. | .iteq .. => [.indexRange]
  | .clr .. | .itbeg .. | .itend .. | .pwbegin | .pwdraw .. | .pwread .. | .pwadv | .tdupdate => []

end Sys2Proof

namespace Sys2Proof.Machine

@[simp] theorem not_raises_fault {s : State} {f : Fault} {c : Cause} : ¬ Raises s (.fault f) c := by
  rintro ⟨t, ht, -⟩
  cases ht

theorem not_raises_sendChunk {s u : State} (hu : u.fault = 0) {c : Cause} : ¬ Raises s (sendChunk u) c := by
  have hsent : u.writeChunk.fault = 0 := by rw [State.writeChunk_fault, hu]
  simp [sendChunk, not_raises_done hsent]

theorem not_raises_tdupdate {s : State} (hr : Running s) {c : Cause} : ¬ Raises s (exec .tdupdate s) c := by
  have hrun := hr.2
  have hchunk := not_raises_sendChunk (s := s) (u := s) (c := c) hrun
  have hpage := not_raises_sendChunk (s := s) (u := s.advanceBand.startPage) (c := c) hrun
  have hframe := not_raises_sendChunk (s := s) (u := s.startFrame.startPage) (c := c) hrun
  rw [exec, execTdupdate, running_of_Running hr]
  simp [hchunk, hpage, hframe, not_raises_done hrun]

theorem mem_causes_of_raises {s : State} (hr : Running s) {i : Instr} {c : Cause} (h : Raises s (exec i s) c) :
    c ∈ i.causes := by
  have of_field {P : Prop} [Decidable P] {Q : Prop} (h : if P then Q ∧ c = .indexRange else c = .fieldRange) :
      c ∈ [Cause.fieldRange, .indexRange] := by
    split at h <;> simp [h]
  have none_done {b : Result} (hb : ¬ Raises s b c) : ¬ Raises s (running s b) c := by
    rwa [running_of_Running hr]
  have hdone {u : State} (hu : u.fault = s.fault) {res : Word} {flag : Bool} : ¬ Raises s (done res flag u) c :=
    not_raises_done (hu.trans hr.2)
  cases i with
  | bfrdR sel a o w | bfrdL sel a o w =>
    exact of_field ((raises_bitField_iff hr (sel := sel) (a := a) (o := o) (w := w) (v := 0) _ (by simp)).1 h)
  | bfwrR sel a o w v | bfwrL sel a o w v =>
    exact of_field ((raises_bitField_iff hr (sel := sel) (a := a) (o := o) (w := w) (v := v) _ (by simp)).1 h)
  | chrdR sel k off w | chrdL sel k off w =>
    exact of_field ((raises_channel_iff hr (sel := sel) (a := k) (o := off) (w := w) (v := 0) _ (by simp)).1 h)
  | chwrR sel k off w v | chwrL sel k off w v =>
    exact of_field ((raises_channel_iff hr (sel := sel) (a := k) (o := off) (w := w) (v := v) _ (by simp)).1 h)
  | elrd sel k =>
    exact List.mem_singleton.2 ((raises_element_iff hr (sel := sel) (a := k) (v := 0) _ (by simp)).1 h).2
  | elwr sel k v =>
    exact List.mem_singleton.2 ((raises_element_iff hr (sel := sel) (a := k) (v := v) _ (by simp)).1 h).2
  | itadd => exact List.mem_singleton.2 ((raises_itadd_iff hr).1 h).2
  | itdiff => exact List.mem_singleton.2 ((raises_itdiff_iff hr).1 h).2
  | iteq => exact List.mem_singleton.2 ((raises_iteq_iff hr).1 h).2
  | clr => exact absurd h (none_done (hdone (by simp)))
  | itbeg | itend => exact absurd h (none_done (hdone rfl))
  | pwbegin => exact absurd h (none_done (hdone (State.beginFrame_fault s)))
  | pwdraw | pwread => exact absurd h (none_done (by simp [hdone]))
  | pwadv => exact absurd h (none_done (by simp [hdone, hdone (State.advanceBand_fault s)]))
  | tdupdate => exact absurd h (not_raises_tdupdate hr)

/-- A command of the running block that ends with a cause's code in `FAULT` is one that checks for the cause. -/
theorem mem_causes_of_fault {s t : State} (hr : Running s) {i : Instr} {c : Cause} (h : exec i s = .next t)
    (hf : t.fault = c.code) : c ∈ i.causes :=
  mem_causes_of_raises hr ⟨t, h, hf ▸ exec_faultedWith hr (hf ▸ c.code_ne_zero) h⟩

theorem illegalCmd_not_mem_causes (i : Instr) : Cause.illegalCmd ∉ i.causes := by
  cases i <;> simp [Instr.causes]

/-! ### The identity bridge has one store (00_scope R19) -/

section
variable {s : State} (hb : s.cfg.bridge = .identity)
include hb

theorem storeOf_back_of_identity : s.cfg.storeOf .back = s.cfg.storeOf .front := by
  simp [Config.storeOf, hb]

theorem count_back_of_identity : s.cfg.count .back = s.cfg.count .front := by
  rw [Config.count, storeOf_back_of_identity hb, Config.count]

theorem nbytes_back_of_identity : s.cfg.nbytes .back = s.cfg.nbytes .front := by
  rw [Config.nbytes, storeOf_back_of_identity hb, Config.nbytes]

theorem elemBits_back_of_identity : s.cfg.elemBits .back = s.cfg.elemBits .front := by
  rw [Config.elemBits, storeOf_back_of_identity hb, Config.elemBits]

theorem store_back_of_identity : s.store .back = s.store .front := by
  rw [State.store, storeOf_back_of_identity hb, State.store]

theorem setStore_back_of_identity (m : Memory) : s.setStore .back m = s.setStore .front m := by
  rw [State.setStore, storeOf_back_of_identity hb, State.setStore]

end

/-! ### What each effect of a command writes (10_state R33 to R41) -/

theorem setStore_fs_of_ne {s : State} {sel : Sel} (m : Memory) (h : s.cfg.storeOf sel ≠ .fs) :
    (s.setStore sel m).fs = s.fs :=
  State.storeBytes_setStoreBytes_of_ne s (s.cfg.storeOf sel) .fs m h.symm

theorem setStore_bs_of_ne {s : State} {sel : Sel} (m : Memory) (h : s.cfg.storeOf sel ≠ .bs) :
    (s.setStore sel m).bs = s.bs :=
  State.storeBytes_setStoreBytes_of_ne s (s.cfg.storeOf sel) .bs m h.symm

@[simp] theorem elemWrite_front_bs (s : State) (i v : Nat) : (s.elemWrite .front i v).bs = s.bs :=
  setStore_bs_of_ne _ (by simp)

theorem afterExtract_draws_of_converting {s : State} (off size : Nat) (h : s.cfg.bridge = .converting) :
    (s.afterExtract off size).draws = s.draws := by
  rw [State.afterExtract, h]

theorem Effect.band_writers {s u : State} {i : Instr} (e : Effect s i u)
    (h : (u.p0x, u.p0y, u.p1x, u.p1y) ≠ (s.p0x, s.p0y, s.p1x, s.p1y)) : i = .pwbegin ∨ i = .pwadv ∨ i = .tdupdate := by
  cases e with
  | same | bfwrR | bfwrL | elwr | chwrR | chwrL | clr | pwdraw => simp at h
  | pwbegin | pwadv | chunk | nextPage | nextFrame => simp

theorem Effect.fs_writers {s u : State} {i : Instr} (e : Effect s i u) (h : u.fs ≠ s.fs) :
    (∃ sel, i.writtenSelect = some sel ∧ s.cfg.storeOf sel = .fs) ∨ (∃ x y c, i = .pwdraw x y c) ∨ i = .pwbegin ∨
      i = .tdupdate := by
  have container {sel : Sel} {m : Memory} (hi : i.writtenSelect = some sel) (hm : (s.setStore sel m).fs ≠ s.fs) :
      ∃ sel, i.writtenSelect = some sel ∧ s.cfg.storeOf sel = .fs :=
    ⟨sel, hi, by_contra fun hne => hm (setStore_fs_of_ne m hne)⟩
  cases e with
  | same | pwadv => exact absurd rfl h
  | bfwrR | bfwrL | elwr | chwrR | chwrL | clr => exact .inl (container rfl h)
  | pwbegin | pwdraw | chunk | nextPage | nextFrame => simp

theorem Effect.bs_writers {s u : State} {i : Instr} (e : Effect s i u) (h : u.bs ≠ s.bs) :
    s.cfg.bridge = .converting ∧ ((∃ sel, i.writtenSelect = some sel ∧ s.cfg.storeOf sel = .bs) ∨ i = .tdupdate) := by
  have container {sel : Sel} {m : Memory} (hi : i.writtenSelect = some sel) (hm : (s.setStore sel m).bs ≠ s.bs) :
      s.cfg.bridge = .converting ∧
        ((∃ sel, i.writtenSelect = some sel ∧ s.cfg.storeOf sel = .bs) ∨ i = .tdupdate) := by
    have hs : s.cfg.storeOf sel = .bs := by_contra fun hne => hm (setStore_bs_of_ne m hne)
    exact ⟨Config.storeOf_eq_bs hs, .inl ⟨sel, hi, hs⟩⟩
  have converting {b : State} (hc : b.cfg = s.cfg) (hb : b.writeChunk.bs ≠ b.bs) : s.cfg.bridge = .converting := by
    cases hi : s.cfg.bridge with
    | identity => exact absurd (by simp [hc, hi]) hb
    | converting => rfl
  cases e with
  | same | pwbegin | pwadv => exact absurd rfl h
  | pwdraw => simp at h
  | bfwrR | bfwrL | elwr | chwrR | chwrL | clr => exact container rfl h
  | chunk => exact ⟨converting rfl h, .inr rfl⟩
  | nextPage => exact ⟨converting (b := s.advanceBand.startPage) rfl h, .inr rfl⟩
  | nextFrame => exact ⟨converting (b := s.startFrame.startPage) rfl h, .inr rfl⟩

/-- Of the effects of a command only the writes of a chunk reach the trace and the draw counter. -/
theorem Effect.keeps_or_sends {s u : State} {i : Instr} (e : Effect s i u) :
    (u.trace = s.trace ∧ u.draws = s.draws) ∨ (i = .tdupdate ∧ u = s.beforeChunk.writeChunk) := by
  cases e with
  | same | bfwrR | bfwrL | elwr | chwrR | chwrL | clr | pwbegin | pwdraw | pwadv => left; simp
  | chunk _ h => right; rw [State.beforeChunk, if_pos h]; exact ⟨rfl, rfl⟩
  | nextPage _ h hl => right; simp [State.beforeChunk, h, hl]
  | nextFrame _ h hl => right; simp [State.beforeChunk, h, hl]

theorem beforeChunk_trace_grows (s : State) : ∃ events, s.beforeChunk.trace = s.trace ++ events := by
  obtain ⟨-, e⟩ | ⟨-, e⟩ | ⟨-, e⟩ := beforeChunk_cases s
  · exact ⟨[], by simp [e]⟩
  · exact ⟨[.devBeginFrame], by simp [e]⟩
  · exact ⟨[], by simp [e]⟩

theorem Effect.trace_grows {s u : State} {i : Instr} (e : Effect s i u) (h : u.trace ≠ s.trace) :
    i = .tdupdate ∧ ∃ events, u.trace = s.trace ++ events := by
  obtain ⟨htrace, -⟩ | ⟨rfl, rfl⟩ := e.keeps_or_sends
  · exact absurd htrace h
  · obtain ⟨events, hevents⟩ := beforeChunk_trace_grows s
    exact ⟨rfl, _, by rw [State.writeChunk_trace, hevents, List.append_assoc]⟩

theorem Effect.draws_writers {s u : State} {i : Instr} (e : Effect s i u) (h : u.draws ≠ s.draws) :
    s.cfg.bridge = .identity ∧ i = .tdupdate := by
  obtain ⟨-, hdraws⟩ | ⟨rfl, rfl⟩ := e.keeps_or_sends
  · exact absurd hdraws h
  · cases hb : s.cfg.bridge with
    | identity => exact ⟨rfl, rfl⟩
    | converting =>
      rw [State.writeChunk_draws, afterExtract_draws_of_converting _ _ (by simpa using hb),
        State.beforeChunk_draws] at h
      exact absurd rfl h

/-! ### Two runs that differ in the backend store (20_memory R60) -/

/-- The two states agree on the frontend store, `REM`, `FAULT` and the band. -/
def FrontAgree (t u : State) : Prop :=
  t.fs = u.fs ∧ t.rem = u.rem ∧ t.fault = u.fault ∧ (t.p0x, t.p0y, t.p1x, t.p1y) = (u.p0x, u.p0y, u.p1x, u.p1y)

/-- Where both commands answer a next state, the states agree on the front of the block. -/
def AgreeOnFront (b b' : Result) : Prop := ∀ t u, b = .next t → b' = .next u → FrontAgree t u

theorem agreeOnFront_next {t u : State} (h : FrontAgree t u) : AgreeOnFront (.next t) (.next u) := by
  intro t' u' ht hu
  obtain rfl := Outcome_next_inj ht
  obtain rfl := Outcome_next_inj hu
  exact h

theorem agreeOnFront_fault {f : Fault} {b : Result} : AgreeOnFront (.fault f) b := by
  intro t u h
  cases h

theorem agreeOnFront_refused {r : Refusal} {b : Result} : AgreeOnFront (.refused r) b := by
  intro t u h
  cases h

theorem agreeOnFront_ite {P : Prop} [Decidable P] {b b' c c' : Result} (h : AgreeOnFront b c)
    (h' : AgreeOnFront b' c') : AgreeOnFront (if P then b else b') (if P then c else c') := by
  split
  · exact h
  · exact h'

section
variable {s : State} {m : Memory}

theorem agreeOnFront_done {t u : State} (h : FrontAgree t u) (res res' : Word) (flag : Bool) :
    AgreeOnFront (done res flag t) (done res' flag u) :=
  agreeOnFront_next h

theorem agreeOnFront_same (res res' : Word) (flag : Bool) :
    AgreeOnFront (done res flag s) (done res' flag { s with bs := m }) :=
  agreeOnFront_next ⟨rfl, rfl, rfl, rfl⟩

theorem agreeOnFront_takeFault (c : Cause) : AgreeOnFront (takeFault c s) (takeFault c { s with bs := m }) :=
  agreeOnFront_next ⟨rfl, rfl, rfl, rfl⟩

theorem agreeOnFront_running {b b' : Result} (h : AgreeOnFront b b') :
    AgreeOnFront (running s b) (running { s with bs := m } b') :=
  agreeOnFront_ite (agreeOnFront_ite h (agreeOnFront_next ⟨rfl, rfl, rfl, rfl⟩)) agreeOnFront_refused

theorem agreeOnFront_checkedField {sel : Sel} {a o w : Nat} {b b' : Result} (h : AgreeOnFront b b') :
    AgreeOnFront (checkedField s sel a o w b) (checkedField { s with bs := m } sel a o w b') :=
  agreeOnFront_running (agreeOnFront_ite (agreeOnFront_ite h (agreeOnFront_takeFault _)) (agreeOnFront_takeFault _))

theorem agreeOnFront_checkedElem {sel : Sel} {i : Nat} {b b' : Result} (h : AgreeOnFront b b') :
    AgreeOnFront (checkedElem s sel i b) (checkedElem { s with bs := m } sel i b') :=
  agreeOnFront_running (agreeOnFront_ite h (agreeOnFront_takeFault _))

theorem agreeOnFront_checkedChannel {sel : Sel} {i off w : Nat} {b b' : Result} (h : AgreeOnFront b b') :
    AgreeOnFront (checkedChannel s sel i off w b) (checkedChannel { s with bs := m } sel i off w b') :=
  agreeOnFront_running (agreeOnFront_ite (agreeOnFront_ite h (agreeOnFront_takeFault _)) (agreeOnFront_takeFault _))

/-- A write to a selected store that depends on that store alone: the frontend store gets the same bytes in both runs,
or neither run reaches it. -/
theorem frontAgree_setStore (s : State) (m : Memory) (sel : Sel) (f : Memory → Memory) :
    FrontAgree (s.setStore sel (f (s.store sel)))
      (State.setStore { s with bs := m } sel (f (State.store { s with bs := m } sel))) := by
  unfold State.setStore State.store
  cases s.cfg.storeOf sel <;> exact ⟨rfl, rfl, rfl, rfl⟩

theorem agreeOnFront_sendChunk (s : State) (m : Memory) :
    AgreeOnFront (sendChunk s) (sendChunk { s with bs := m }) := by
  refine agreeOnFront_ite (agreeOnFront_next ?_) agreeOnFront_fault
  unfold FrontAgree
  simp [State.chunkSize]

end

/-- One command, run with two contents of the backend store. -/
theorem agreeOnFront_exec (s : State) (m : Memory) (i : Instr) :
    AgreeOnFront (exec i s) (exec i { s with bs := m }) := by
  cases i with
  | bfrdR | bfrdL => exact agreeOnFront_checkedField (agreeOnFront_same _ _ _)
  | bfwrR sel a o w v =>
    exact agreeOnFront_checkedField (agreeOnFront_done
      (frontAgree_setStore s m sel fun b =>
        Memory.set b a (BitVec.ofNat 8 (writeR 8 (Memory.get b a).toNat o w v))) _ _ _)
  | bfwrL sel a o w v =>
    exact agreeOnFront_checkedField (agreeOnFront_done
      (frontAgree_setStore s m sel fun b =>
        Memory.set b a (BitVec.ofNat 8 (writeL 8 (Memory.get b a).toNat o w v))) _ _ _)
  | elrd => exact agreeOnFront_checkedElem (agreeOnFront_same _ _ _)
  | elwr sel k v =>
    exact agreeOnFront_checkedElem (agreeOnFront_done
      (frontAgree_setStore s m sel fun b => Memory.setElem b (s.cfg.elemBits sel) k v) _ _ _)
  | chrdR | chrdL => exact agreeOnFront_checkedChannel (agreeOnFront_same _ _ _)
  | chwrR sel k off w v =>
    exact agreeOnFront_checkedChannel (agreeOnFront_done
      (frontAgree_setStore s m sel fun b => Memory.setElem b (s.cfg.elemBits sel) k
        (writeR (s.cfg.elemBits sel) (Memory.elem b (s.cfg.elemBits sel) k) off w v)) _ _ _)
  | chwrL sel k off w v =>
    exact agreeOnFront_checkedChannel (agreeOnFront_done
      (frontAgree_setStore s m sel fun b => Memory.setElem b (s.cfg.elemBits sel) k
        (writeL (s.cfg.elemBits sel) (Memory.elem b (s.cfg.elemBits sel) k) off w v)) _ _ _)
  | clr sel =>
    exact agreeOnFront_running (agreeOnFront_done
      (frontAgree_setStore s m sel fun b => Memory.clear (s.cfg.nbytes sel) b) _ _ _)
  | itbeg | itend => exact agreeOnFront_running (agreeOnFront_same _ _ _)
  | itadd =>
    exact agreeOnFront_running (agreeOnFront_ite (agreeOnFront_takeFault _)
      (agreeOnFront_ite (agreeOnFront_takeFault _) (agreeOnFront_same _ _ _)))
  | itdiff | iteq => exact agreeOnFront_running (agreeOnFront_ite (agreeOnFront_takeFault _) (agreeOnFront_same _ _ _))
  | pwbegin => exact agreeOnFront_running (agreeOnFront_next ⟨rfl, rfl, rfl, rfl⟩)
  | pwdraw x y c =>
    exact agreeOnFront_running (agreeOnFront_ite
      (agreeOnFront_ite (agreeOnFront_done
        (frontAgree_setStore s m .front fun b => Memory.setElem b (s.cfg.elemBits .front) (s.pixelIndex x y) c) _ _ _)
        agreeOnFront_fault)
      (agreeOnFront_same _ _ _))
  | pwread =>
    exact agreeOnFront_running (agreeOnFront_ite (agreeOnFront_ite (agreeOnFront_same _ _ _) agreeOnFront_fault)
      (agreeOnFront_same _ _ _))
  | pwadv =>
    exact agreeOnFront_running (agreeOnFront_ite (agreeOnFront_same _ _ _) (agreeOnFront_next ⟨rfl, rfl, rfl, rfl⟩))
  | tdupdate =>
    exact agreeOnFront_running (agreeOnFront_ite
      (agreeOnFront_ite (agreeOnFront_sendChunk s m)
        (agreeOnFront_ite
          (agreeOnFront_ite (agreeOnFront_sendChunk s.startFrame.startPage m) (agreeOnFront_same _ _ _))
          (agreeOnFront_sendChunk s.advanceBand.startPage m)))
      (agreeOnFront_same _ _ _))

end Sys2Proof.Machine

open Sys2Proof Sys2Proof.Machine

/-- Settles O7: the pending command is accepted, decoded and executed. -/
theorem stepRunsTheDecodedCommand : Obligations.StepRunsTheDecodedCommand := by
  intro s c r p i hw he hd
  exact (step_of_issue hw he).trans (execCommand_of_ok hd _)

/-- Settles O8: an index at or past the end of the host's sequence finds no event there. -/
theorem stepWithoutACommandHoldsTheState : Obligations.StepWithoutACommandHoldsTheState := by
  intro s hw hend
  exact step_of_none hw (List.getElem?_eq_none hend)

/-- Settles O9: a legal configuration passes the nine checks, so one that fails a check is refused. -/
theorem illFormedConfigurationHasNoStep : Obligations.IllFormedConfigurationHasNoStep := by
  intro s hfail
  have hill : ¬ s.cfg.wf = true := fun hw => hfail <| by
    obtain ⟨hsize, hpages, htile, hchunk, hwidths, hsame, hbank, hrange, -⟩ := s.cfg.wf_iff.1 hw
    exact ⟨hsize, hpages, htile, hchunk, hwidths, hsame, hbank, hrange, fun hb v _ => Config.convertOf_lt hw hb v⟩
  exact ⟨step_of_illFormed hill, exec_of_illFormed hill⟩

/-- Settles O10: every command, decoded or illegal, runs under the check of `FAULT`. -/
theorem haltedBlockHasNoEffect : Obligations.HaltedBlockHasNoEffect := fun _ hw hf =>
  ⟨exec_of_halted hw hf, execCommand_of_halted hw hf⟩

/-- Settles O13: a command that ends with a code in `FAULT` is one that checks for the cause, and the table of causes is
the one of R250. -/
theorem causesBelongToTheirCommands : Obligations.CausesBelongToTheirCommands := by
  intro s t i hr hexec
  refine ⟨fun h1 => ?_, fun h2 => ?_, fun h3 => ?_⟩
  · exact illegalCmd_not_mem_causes i (mem_causes_of_fault hr (c := .illegalCmd) hexec h1)
  · have hmem := mem_causes_of_fault hr (c := .fieldRange) hexec h2
    cases i <;> simp_all [Instr.causes, Instr.mnemonic]
  · have hmem := mem_causes_of_fault hr (c := .indexRange) hexec h3
    cases i <;> simp_all [Instr.causes, Instr.mnemonic]

/-- Settles O28: a command reads `SEL` only through the store it names, and the two selections name one store. -/
theorem identityBridgeAliasesTheStores : Obligations.IdentityBridgeAliasesTheStores := by
  intro s i hb
  have hcount := count_back_of_identity hb
  have hbytes := nbytes_back_of_identity hb
  have hbits := elemBits_back_of_identity hb
  have hstore := store_back_of_identity hb
  have hset := setStore_back_of_identity hb
  cases i with
  | bfrdR | bfrdL | bfwrR | bfwrL =>
    simp only [Instr.withSelect, exec, execBfrdR, execBfrdL, execBfwrR, execBfwrL, checkedField, State.storeByte,
      State.setStoreByte, hbytes, hstore, hset]
  | elrd | elwr =>
    simp only [Instr.withSelect, exec, execElrd, execElwr, checkedElem, State.elemRead, State.elemWrite, hcount, hbits,
      hstore, hset]
  | chrdR | chrdL | chwrR | chwrL =>
    simp only [Instr.withSelect, exec, execChrdR, execChrdL, execChwrR, execChwrL, checkedChannel, State.elemRead,
      State.elemWrite, hcount, hbits, hstore, hset]
  | clr => simp only [Instr.withSelect, exec, execClr, hbytes, hstore, hset]
  | itend | itadd | itdiff | iteq =>
    simp only [Instr.withSelect, exec, execItend, execItadd, execItdiff, execIteq, hcount]
  | itbeg | pwbegin | pwdraw | pwread | pwadv | tdupdate => rfl

/-- Settles O57: the halted answer writes the response alone, taking a fault `FAULT` besides, and the effects of a
command write what the table of their writers says. -/
theorem eachStateElementHasItsWriters : Obligations.EachStateElementHasItsWriters := by
  intro s t i hexec
  obtain ⟨-, hc⟩ := exec_cases hexec
  cases hc with
  | halted => exact ⟨⟨rfl, rfl, rfl, rfl, rfl⟩, by simp⟩
  | fault h0 c => exact ⟨⟨rfl, rfl, rfl, rfl, rfl⟩, by simp [h0, FaultedWith, faultResponse]⟩
  | effect h0 u res flag e =>
    refine ⟨e.environment_eq, fun h => ?_, e.band_writers, e.fs_writers, e.bs_writers, fun h => absurd e.fault_eq h,
      e.trace_grows, e.draws_writers⟩
    exact (e.rem_eq_or_sends.resolve_left h).1

/-- Settles O59: a command runs alike with two contents of the backend store, as far as the front of the block goes. -/
theorem backendNeverReachesTheFrontend : Obligations.BackendNeverReachesTheFrontend := by
  intro s t u m i hs hm
  exact agreeOnFront_exec s m i t u hs hm
end

section
/-!
PROOFS. The families 41_bitfield and 42_packed_container: the bit-field, element, channel and clear commands bit by bit,
their round trips, packed elements as field accesses (R157), wide elements as bytes (R158), and the iterators.
-/
namespace Sys2Proof.Machine

/-! ### Field functions: widths and round trips (41_bitfield R122 to R124, R129, R131) -/

theorem readL_lt (b o : Nat) {w : Nat} (hw : w ≤ 8) : readL b o w < 2 ^ 8 := by
  refine Nat.lt_pow_two_of_testBit _ fun j hj => ?_
  rw [testBit_readL _ _ _ _ hw, decide_eq_false (Nat.not_lt.2 hj)]
  simp

theorem readR_writeR {n b : Nat} (hb : b < 2 ^ n) (o w v : Nat) : readR (writeR n b o w v) o w = v % 2 ^ w := by
  refine Nat.eq_of_testBit_eq fun j => ?_
  rw [testBit_readR, testBit_writeR _ _ _ _ _ _ hb, Nat.testBit_mod_two_pow]
  by_cases hj : j < w
  · rw [if_pos (by omega), Nat.add_sub_cancel_left]
  · simp [hj]

theorem readL_writeL {n b : Nat} (hb : b < 2 ^ n) (o w v : Nat) :
    readL (writeL n b o w v) o w = v / 2 ^ (8 - w) % 2 ^ w * 2 ^ (8 - w) := by
  rw [readL, writeL, readR_writeR hb, Nat.shiftLeft_eq, Nat.shiftRight_eq_div_pow]

/-- The top `w` bits of the low byte of `v`, in the form of 41_bitfield R131. -/
theorem topBits_eq_and (v : Nat) {w : Nat} (hw : w ≤ 8) :
    v / 2 ^ (8 - w) % 2 ^ w * 2 ^ (8 - w) = v &&& ((2 ^ w - 1) * 2 ^ (8 - w)) &&& 255 := by
  refine Nat.eq_of_testBit_eq fun j => ?_
  have low : (255 : Nat).testBit j = decide (j < 8) := Nat.testBit_two_pow_sub_one 8 j
  rw [← Nat.shiftLeft_eq, ← Nat.shiftLeft_eq, ← Nat.shiftRight_eq_div_pow, Nat.testBit_and, Nat.testBit_and, low,
    Nat.testBit_shiftLeft, Nat.testBit_shiftLeft, Nat.testBit_mod_two_pow, Nat.testBit_two_pow_sub_one,
    Nat.testBit_shiftRight]
  by_cases h : 8 - w ≤ j
  · have hcut : (j - (8 - w) < w) ↔ j < 8 := by omega
    have hsum : 8 - w + (j - (8 - w)) = j := by omega
    by_cases hj : j < 8 <;> simp [h, hcut, hsum, hj]
  · simp [h]

theorem topBits_eq_self {v w : Nat} (hw : w ≤ 8) (hv : v < 256) (h0 : v % 2 ^ (8 - w) = 0) :
    v / 2 ^ (8 - w) % 2 ^ w * 2 ^ (8 - w) = v := by
  have hpow : 2 ^ (8 - w) * 2 ^ w = 256 := by rw [← Nat.pow_add, Nat.sub_add_cancel hw]
  have htop : v / 2 ^ (8 - w) < 2 ^ w := Nat.div_lt_of_lt_mul (hpow ▸ hv)
  rw [Nat.mod_eq_of_lt htop, Nat.div_mul_cancel (Nat.dvd_of_mod_eq_zero h0)]

/-! ### Stream bits of a store -/

/-- Two stores in canonical form with the same stream bits are equal. -/
theorem Memory.ext_of_bits {m m' : Memory} (h : Memory.wf m = true) (h' : Memory.wf m' = true)
    (e : ∀ l, Memory.bit m l = Memory.bit m' l) : m = m' :=
  Memory.ext_of_wf m m' h h' fun a => Memory.get_congr_of_bits m m' a fun j _ => e (8 * a + j)

/-- The store after a right-aligned field write to one byte (41_bitfield R124, R127). -/
def Memory.setField (m : Memory) (a o w v : Nat) : Memory :=
  Memory.set m a (BitVec.ofNat 8 (writeR 8 (Memory.get m a).toNat o w v))

theorem setStoreByte_writeR (s : State) (sel : Sel) (a o w v : Nat) :
    s.setStoreByte sel a (writeR 8 (s.storeByte sel a) o w v) =
      s.setStore sel (Memory.setField (s.store sel) a o w v) := rfl

theorem Memory.wf_setField {m : Memory} (h : Memory.wf m = true) (a o w v : Nat) :
    Memory.wf (Memory.setField m a o w v) = true := Memory.wf_set _ _ _ h

/-- A field write to one byte sets the field's stream bits and changes no other bit (41_bitfield R124, R133). -/
theorem Memory.bit_setField {m : Memory} (h : Memory.wf m = true) (a v l : Nat) {o w : Nat} (how : o + w ≤ 8) :
    Memory.bit (Memory.setField m a o w v) l =
      if 8 * a + o ≤ l ∧ l < 8 * a + o + w then v.testBit (l - (8 * a + o)) else Memory.bit m l := by
  have hl : l % 8 < 8 := Nat.mod_lt _ (by decide)
  rw [Memory.setField, Memory.bit_set _ _ _ _ h]
  by_cases ha : l / 8 = a
  · rw [if_pos ha, BitVec.getLsbD_ofNat, decide_eq_true hl, Bool.true_and,
      testBit_writeR _ _ _ _ _ _ (Memory.get m a).isLt, BitVec.testBit_toNat, Memory.getLsbD_get _ _ _ hl]
    by_cases hf : 8 * a + o ≤ l ∧ l < 8 * a + o + w
    · rw [if_pos hf, if_pos (by omega)]
      congr 1
      omega
    · rw [if_neg hf, if_neg (by omega)]
      congr 1
      omega
  · rw [if_neg ha, if_neg (by omega)]

theorem Memory.streamRead_add (m : Memory) (k a b : Nat) :
    Memory.streamRead m k (a + b) = Memory.streamRead m k a + Memory.streamRead m (k + a) b * 2 ^ a := by
  induction b with
  | zero => simp [Memory.streamRead]
  | succ b ih =>
    rw [← Nat.add_assoc, Memory.streamRead, ih, Memory.streamRead, Nat.add_assoc k, Nat.pow_add]
    ring

/-- A byte is its eight stream bits (20_memory R61). -/
theorem Memory.streamRead_byte (m : Memory) (a : Nat) : Memory.streamRead m (8 * a) 8 = (Memory.get m a).toNat := by
  refine Nat.eq_of_testBit_eq fun j => ?_
  rw [Memory.testBit_streamRead, BitVec.testBit_toNat]
  by_cases hj : j < 8
  · rw [Memory.getLsbD_get _ _ _ hj, decide_eq_true hj, Bool.true_and]
  · rw [BitVec.getLsbD_of_ge _ _ (Nat.not_lt.1 hj), decide_eq_false hj, Bool.false_and]

/-- Whole bytes of the stream, the first one least significant (20_memory R65). -/
theorem Memory.streamRead_bytes (m : Memory) (a n : Nat) :
    Memory.streamRead m (8 * a) (8 * n) =
      ((List.range n).map fun b => (Memory.get m (a + b)).toNat <<< (8 * b)).sum := by
  induction n with
  | zero => rfl
  | succ n ih =>
    rw [Nat.mul_succ, Memory.streamRead_add, ih, ← Nat.mul_add, Memory.streamRead_byte, List.range_succ]
    simp [Nat.shiftLeft_eq]

/-- A packed element inside one byte is written by one field write (42_packed_container R157). -/
theorem Memory.setElem_of_inside {m : Memory} (h : Memory.wf m = true) {e i k p : Nat} (hpos : i * e = 8 * k + p)
    (hin : p + e ≤ 8) (v : Nat) : Memory.setElem m e i v = Memory.setField m k p e v := by
  refine Memory.ext_of_bits (Memory.wf_setElem _ _ _ _ h) (Memory.wf_setField h _ _ _ _) fun l => ?_
  rw [Memory.bit_setElem _ _ _ _ _ h, Memory.bit_setField h _ _ _ hin, hpos]

/-- A packed element that straddles is written by two field writes: its low `8 - p` bits into the first byte, the others
into the second (42_packed_container R157). -/
theorem Memory.setElem_of_straddle {m : Memory} (h : Memory.wf m = true) {e i k p : Nat} (hpos : i * e = 8 * k + p)
    (hp : p < 8) (he : e < 8) (hout : 8 < p + e) (v : Nat) :
    Memory.setElem m e i v =
      Memory.setField (Memory.setField m k p (8 - p) v) (k + 1) 0 (e - (8 - p)) (v >>> (8 - p)) := by
  have h1 := Memory.wf_setField h k p (8 - p) v
  refine Memory.ext_of_bits (Memory.wf_setElem _ _ _ _ h) (Memory.wf_setField h1 _ _ _ _) fun l => ?_
  rw [Memory.bit_setElem _ _ _ _ _ h, Memory.bit_setField h1 _ _ _ (by omega), Memory.bit_setField h _ _ _ (by omega),
    Nat.testBit_shiftRight, hpos]
  by_cases hhigh : 8 * (k + 1) + 0 ≤ l ∧ l < 8 * (k + 1) + 0 + (e - (8 - p))
  · rw [if_pos hhigh, if_pos (by omega)]
    congr 1
    omega
  · rw [if_neg hhigh]
    by_cases hlow : 8 * k + p ≤ l ∧ l < 8 * k + p + (8 - p)
    · rw [if_pos hlow, if_pos (by omega)]
    · rw [if_neg hlow, if_neg (by omega)]

/-- An element inside the cleared bytes reads 0 (42_packed_container R150). -/
theorem Memory.elem_clear (m : Memory) {n e i : Nat} (h : (i + 1) * e ≤ 8 * n) :
    Memory.elem (Memory.clear n m) e i = 0 := by
  refine Nat.zero_of_testBit_eq_false fun j => ?_
  rw [Memory.testBit_elem, Memory.bit_clear]
  rw [Nat.succ_mul] at h
  by_cases hj : j < e
  · rw [if_pos (by omega), Bool.and_false]
  · rw [decide_eq_false hj, Bool.false_and]

/-! ### Bytes and elements of the selected store -/

theorem setStore_setStore (s : State) (sel : Sel) (m m' : Memory) :
    (s.setStore sel m).setStore sel m' = s.setStore sel m' := by
  unfold State.setStore
  rw [State.setStoreBytes_cfg]
  cases s.cfg.storeOf sel <;> rfl

theorem storeByte_setStoreByte {s : State} (hs : StoresOK s) (sel : Sel) (a v b : Nat) :
    (s.setStoreByte sel a v).storeByte sel b = if b = a then v % 256 else s.storeByte sel b := by
  rw [State.storeByte, State.setStoreByte, store_setStore, Memory.get_set _ _ _ _ (wf_store hs sel)]
  split
  · exact BitVec.toNat_ofNat ..
  · rfl

/-- Field writes to two adjacent bytes. -/
theorem setStoreByte_writeR_succ {s : State} (hs : StoresOK s) (sel : Sel) (k o w o' w' v v' : Nat) :
    (s.setStoreByte sel k (writeR 8 (s.storeByte sel k) o w v)).setStoreByte sel (k + 1)
        (writeR 8 (s.storeByte sel (k + 1)) o' w' v') =
      s.setStore sel (Memory.setField (Memory.setField (s.store sel) k o w v) (k + 1) o' w' v') := by
  have hnext : s.storeByte sel (k + 1) =
      (s.setStoreByte sel k (writeR 8 (s.storeByte sel k) o w v)).storeByte sel (k + 1) := by
    rw [storeByte_setStoreByte hs, if_neg (Nat.succ_ne_self k)]
  rw [hnext, setStoreByte_writeR, setStoreByte_writeR, store_setStore, setStore_setStore]

/-- The byte a field write leaves (41_bitfield R124). -/
theorem storeByte_setStoreByte_writeR {s : State} (hs : StoresOK s) (sel : Sel) (a v : Nat) {o w : Nat}
    (how : o + w ≤ 8) :
    (s.setStoreByte sel a (writeR 8 (s.storeByte sel a) o w v)).storeByte sel a =
      writeR 8 (s.storeByte sel a) o w v := by
  rw [storeByte_setStoreByte hs, if_pos rfl]
  exact Nat.mod_eq_of_lt (writeR_lt _ _ _ _ _ (storeByte_lt s sel a) how)

theorem testBit_readR_storeByte (s : State) (sel : Sel) (a j : Nat) {o w : Nat} (how : o + w ≤ 8) :
    (readR (s.storeByte sel a) o w).testBit j = (decide (j < w) && Memory.bit (s.store sel) (8 * a + o + j)) := by
  rw [testBit_readR, testBit_storeByte, ← Nat.add_assoc]
  by_cases hj : j < w
  · rw [decide_eq_true (show o + j < 8 by omega), Bool.true_and]
  · simp [hj]

theorem bit_store_writeField {s : State} (hs : StoresOK s) (sel : Sel) (a v l : Nat) {o w : Nat} (how : o + w ≤ 8) :
    Memory.bit ((s.setStoreByte sel a (writeR 8 (s.storeByte sel a) o w v)).store sel) l =
      if 8 * a + o ≤ l ∧ l < 8 * a + o + w then v.testBit (l - (8 * a + o)) else Memory.bit (s.store sel) l := by
  rw [setStoreByte_writeR, store_setStore, Memory.bit_setField (wf_store hs sel) a v l how]

/-- A packed element inside one byte is read by one field read (42_packed_container R157). -/
theorem elemRead_of_inside (s : State) (sel : Sel) {i k p : Nat} (hpos : i * s.cfg.elemBits sel = 8 * k + p)
    (hin : p + s.cfg.elemBits sel ≤ 8) : s.elemRead sel i = readR (s.storeByte sel k) p (s.cfg.elemBits sel) := by
  refine Nat.eq_of_testBit_eq fun j => ?_
  rw [testBit_elemRead, testBit_readR_storeByte _ _ _ _ hin, hpos]

/-- A packed element that straddles is read by two field reads (42_packed_container R157). -/
theorem elemRead_of_straddle (s : State) (sel : Sel) {i k p : Nat} (hpos : i * s.cfg.elemBits sel = 8 * k + p)
    (hp : p < 8) (he : s.cfg.elemBits sel < 8) (hout : 8 < p + s.cfg.elemBits sel) :
    s.elemRead sel i =
      readR (s.storeByte sel k) p (8 - p) |||
        (readR (s.storeByte sel (k + 1)) 0 (s.cfg.elemBits sel - (8 - p)) <<< (8 - p)) := by
  refine Nat.eq_of_testBit_eq fun j => ?_
  rw [testBit_elemRead, hpos, Nat.testBit_or, Nat.testBit_shiftLeft, testBit_readR_storeByte _ _ _ _ (by omega),
    testBit_readR_storeByte _ _ _ _ (by omega)]
  by_cases hj : j < 8 - p
  · simp [hj, show j < s.cfg.elemBits sel by omega, Nat.not_le.2 hj]
  · have hbit : 8 * (k + 1) + (j - (8 - p)) = 8 * k + p + j := by omega
    have hlast : j - (8 - p) < s.cfg.elemBits sel - (8 - p) ↔ j < s.cfg.elemBits sel := by omega
    simp [hj, hbit, hlast, Nat.not_lt.1 hj]

theorem testBit_readR_elemRead (s : State) (sel : Sel) (i j : Nat) {off w : Nat} (h : off + w ≤ s.cfg.elemBits sel) :
    (readR (s.elemRead sel i) off w).testBit j =
      (decide (j < w) && Memory.bit (s.store sel) (i * s.cfg.elemBits sel + off + j)) := by
  rw [testBit_readR, testBit_elemRead, ← Nat.add_assoc]
  by_cases hj : j < w
  · rw [decide_eq_true (show off + j < s.cfg.elemBits sel by omega), Bool.true_and]
  · simp [hj]

/-- A channel write sets the channel's stream bits and changes no other bit (42_packed_container R143, R161). -/
theorem bit_store_writeChannel {s : State} (hs : StoresOK s) (sel : Sel) (i v l : Nat) {off w : Nat}
    (h : off + w ≤ s.cfg.elemBits sel) :
    Memory.bit ((s.elemWrite sel i (writeR (s.cfg.elemBits sel) (s.elemRead sel i) off w v)).store sel) l =
      if i * s.cfg.elemBits sel + off ≤ l ∧ l < i * s.cfg.elemBits sel + off + w
      then v.testBit (l - (i * s.cfg.elemBits sel + off)) else Memory.bit (s.store sel) l := by
  have helem : s.elemRead sel i < 2 ^ s.cfg.elemBits sel := Memory.elem_lt _ _ _
  rw [bit_store_elemWrite hs]
  by_cases he : i * s.cfg.elemBits sel ≤ l ∧ l < i * s.cfg.elemBits sel + s.cfg.elemBits sel
  · rw [if_pos he, testBit_writeR _ _ _ _ _ _ helem]
    by_cases hc : i * s.cfg.elemBits sel + off ≤ l ∧ l < i * s.cfg.elemBits sel + off + w
    · rw [if_pos hc, if_pos (by omega), Nat.sub_sub]
    · rw [if_neg hc, if_neg (by omega), testBit_elemRead, decide_eq_true (by omega), Bool.true_and]
      congr 1
      omega
  · rw [if_neg he, if_neg (by omega)]

/-- A left-aligned read is the right-aligned one, moved up to end at bit 7. -/
theorem testBit_readL_of_readR {b o w : Nat} {f : Nat → Bool}
    (h : ∀ j, (readR b o w).testBit j = (decide (j < w) && f j)) (hw : w ≤ 8) (j : Nat) :
    (readL b o w).testBit j = (decide (8 - w ≤ j) && (decide (j < 8) && f (j - (8 - w)))) := by
  rw [readL, Nat.testBit_shiftLeft, h]
  by_cases hj : 8 - w ≤ j
  · have hcut : j - (8 - w) < w ↔ j < 8 := by omega
    simp [hj, hcut]
  · simp [hj]

theorem getLsbD_unsignedResult_readR (b o j : Nat) {w : Nat} (hw : w ≤ 8) :
    (unsignedResult (readR b o w)).getLsbD j = (readR b o w).testBit j :=
  getLsbD_unsignedResult _ _ ((readR_lt b o w).trans_le (Nat.pow_le_pow_right (by decide) (by omega)))

theorem getLsbD_unsignedResult_readL (b o j : Nat) {w : Nat} (hw : w ≤ 8) :
    (unsignedResult (readL b o w)).getLsbD j = (readL b o w).testBit j :=
  getLsbD_unsignedResult _ _ ((readL_lt b o hw).trans (by decide))

theorem toNat_unsignedResult {n : Nat} (h : n < 2 ^ 32) : (unsignedResult n).toNat = n :=
  (BitVec.toNat_ofNat ..).trans (Nat.mod_eq_of_lt h)

/-! ### The commands on legal operands -/

section
variable {s : State} (hr : Running s) {sel : Sel}
include hr

section
variable {a o w : Nat} (hw : 1 ≤ w) (how : o + w ≤ 8) (ha : a < s.cfg.nbytes sel)
include hw how ha

theorem checkedField_of_legal (b : Result) : checkedField s sel a o w b = b :=
  checkedField_of_ok hr ((fieldOK_iff o w).2 ⟨hw, by omega, how⟩) ha b

theorem exec_bfrdR_of_legal : exec (.bfrdR sel a o w) s =
    .next { s with resp := doneResponse (unsignedResult (readR (s.storeByte sel a) o w)) false } :=
  checkedField_of_legal hr hw how ha _

theorem exec_bfrdL_of_legal : exec (.bfrdL sel a o w) s =
    .next { s with resp := doneResponse (unsignedResult (readL (s.storeByte sel a) o w)) false } :=
  checkedField_of_legal hr hw how ha _

theorem exec_bfwrR_of_legal (v : Nat) : exec (.bfwrR sel a o w v) s =
    .next { s.setStoreByte sel a (writeR 8 (s.storeByte sel a) o w v) with resp := doneResponse 0 false } :=
  checkedField_of_legal hr hw how ha _

theorem exec_bfwrL_of_legal (v : Nat) : exec (.bfwrL sel a o w v) s =
    .next { s.setStoreByte sel a (writeL 8 (s.storeByte sel a) o w v) with resp := doneResponse 0 false } :=
  checkedField_of_legal hr hw how ha _

end

section
variable {i off w : Nat} (hc : chanOK (s.cfg.elemBits sel) off w = true) (hi : i < s.cfg.count sel)
include hc hi

theorem exec_chrdR_of_legal : exec (.chrdR sel i off w) s =
    .next { s with resp := doneResponse (unsignedResult (readR (s.elemRead sel i) off w)) false } :=
  checkedChannel_of_ok hr hc hi _

theorem exec_chrdL_of_legal : exec (.chrdL sel i off w) s =
    .next { s with resp := doneResponse (unsignedResult (readL (s.elemRead sel i) off w)) false } :=
  checkedChannel_of_ok hr hc hi _

theorem exec_chwrR_of_legal (v : Nat) : exec (.chwrR sel i off w v) s =
    .next { s.elemWrite sel i (writeR (s.cfg.elemBits sel) (s.elemRead sel i) off w v) with
      resp := doneResponse 0 false } :=
  checkedChannel_of_ok hr hc hi _

theorem exec_chwrL_of_legal (v : Nat) : exec (.chwrL sel i off w v) s =
    .next { s.elemWrite sel i (writeL (s.cfg.elemBits sel) (s.elemRead sel i) off w v) with
      resp := doneResponse 0 false } :=
  checkedChannel_of_ok hr hc hi _

end

theorem exec_clr_of_running : exec (.clr sel) s =
    .next { s.setStore sel (Memory.clear (s.cfg.nbytes sel) (s.store sel)) with resp := doneResponse 0 false } :=
  running_of_Running hr _

theorem exec_itbeg_of_running : exec (.itbeg sel) s = .next { s with resp := doneResponse 0 false } :=
  running_of_Running hr _

theorem exec_itend_of_running : exec (.itend sel) s =
    .next { s with resp := doneResponse (unsignedResult (s.cfg.count sel)) false } :=
  running_of_Running hr _

theorem exec_itadd_of_inside {pos : Nat} {n : Int} (hp : pos ≤ s.cfg.count sel) (h0 : 0 ≤ (pos : Int) + n)
    (h1 : (pos : Int) + n ≤ s.cfg.count sel) : exec (.itadd sel pos n) s =
      .next { s with resp := doneResponse (unsignedResult ((pos : Int) + n).toNat) false } := by
  rw [exec, execItadd, running_of_Running hr, if_neg (Nat.not_lt.2 hp), if_neg (by omega), done]

theorem exec_itdiff_of_inside {pos2 pos1 : Nat} (h2 : pos2 ≤ s.cfg.count sel) (h1 : pos1 ≤ s.cfg.count sel) :
    exec (.itdiff sel pos2 pos1) s =
      .next { s with resp := doneResponse (signedResult ((pos2 : Int) - pos1)) false } := by
  rw [exec, execItdiff, running_of_Running hr, if_neg (by omega), done]

theorem exec_iteq_of_inside {pos1 pos2 : Nat} (h1 : pos1 ≤ s.cfg.count sel) (h2 : pos2 ≤ s.cfg.count sel) :
    exec (.iteq sel pos1 pos2) s = .next { s with resp := doneResponse 0 (decide (pos1 = pos2)) } := by
  rw [exec, execIteq, running_of_Running hr, if_neg (by omega), done]

/-! ### A write to the selected store leaves the block running -/

theorem running_setStore (m : Memory) (r : Response) : Running { s.setStore sel m with resp := r } :=
  ⟨by simpa using hr.1, by simpa using hr.2⟩

end

/-- The counts of the two selections (00_scope R19). -/
theorem count_eq_ite (c : Config) (sel : Sel) :
    c.count sel = if sel = .front ∨ c.bridge = .identity then c.ppp else c.maxChunk := by
  unfold Config.count Config.storeOf
  cases sel <;> cases c.bridge <;> simp [Config.countOf]

theorem toInt_signedResult {n : Int} (h0 : -2147483648 ≤ n) (h1 : n ≤ 2147483647) : (signedResult n).toInt = n := by
  rw [signedResult, BitVec.toInt_ofInt, Int.bmod_eq_of_le] <;> omega

end Sys2Proof.Machine

open Sys2Proof Sys2Proof.Machine

/-- Settles O16: the answer is the field read, whose bits are stream bits of the byte. -/
theorem bfrdReadsTheFieldBits : Obligations.BfrdReadsTheFieldBits := by
  intro s sel a o w hr hw how ha
  have hbits := fun j => testBit_readR_storeByte s sel a j how
  have hw8 : w ≤ 8 := by omega
  refine ⟨⟨_, exec_bfrdR_of_legal hr hw how ha, rfl, rfl, rfl, fun j => ?_⟩,
    _, exec_bfrdL_of_legal hr hw how ha, rfl, rfl, rfl, fun j => ?_⟩
  · exact (getLsbD_unsignedResult_readR _ _ _ hw8).trans (hbits j)
  · exact (getLsbD_unsignedResult_readL _ _ _ hw8).trans (testBit_readL_of_readR hbits hw8 j)

/-- Settles O17: the field write is one write of the selected store, which sets the field's stream bits alone; the
left-aligned form writes the value moved down by `8 - w`. -/
theorem bfwrWritesTheFieldBitsOnly : Obligations.BfwrWritesTheFieldBitsOnly := by
  intro s sel a o w v hr hs hw how ha
  refine ⟨⟨_, exec_bfwrR_of_legal hr hw how ha v, setStore_sameButStores s sel _ _, setStore_otherStoreSame s sel _ _,
      ⟨rfl, rfl, rfl⟩, fun l => bit_store_writeField hs sel a v l how⟩,
    _, exec_bfwrL_of_legal hr hw how ha v, setStore_sameButStores s sel _ _, setStore_otherStoreSame s sel _ _,
      ⟨rfl, rfl, rfl⟩, fun l => ?_⟩
  refine (bit_store_writeField hs sel a (v >>> (8 - w)) l how).trans ?_
  rw [Nat.testBit_shiftRight]

/-- Settles O18: the byte the write leaves gives the value's low bits back. -/
theorem rightAlignedRoundTrip : Obligations.RightAlignedRoundTrip := by
  intro s sel a o w v hr hs hw how ha
  have hbyte := storeByte_setStoreByte_writeR hs sel a v how
  have hfits : v % 2 ^ w < 2 ^ 32 :=
    (Nat.mod_lt _ (Nat.two_pow_pos w)).trans_le (Nat.pow_le_pow_right (by decide) (by omega))
  refine ⟨_, _, exec_bfwrR_of_legal hr hw how ha v, exec_bfrdR_of_legal (running_setStore hr _ _) hw how
    (by simpa using ha), rfl, ?_⟩
  refine (congrArg (fun b => (unsignedResult (readR b o w)).toNat) hbyte).trans ?_
  rw [readR_writeR (storeByte_lt s sel a), toNat_unsignedResult hfits]

/-- Settles O19: the byte the write leaves gives the value's top bits back, in their places. -/
theorem leftAlignedRoundTrip : Obligations.LeftAlignedRoundTrip := by
  intro s sel a o w v hr hs hw how ha
  have hw8 : w ≤ 8 := by omega
  have hbyte := storeByte_setStoreByte_writeR hs sel a (v >>> (8 - w)) how
  have hread := readL_writeL (storeByte_lt s sel a) o w v
  have hfits : readL (writeL 8 (s.storeByte sel a) o w v) o w < 2 ^ 32 := (readL_lt _ _ hw8).trans (by decide)
  have hres := (congrArg (fun b => (unsignedResult (readL b o w)).toNat) hbyte).trans
    ((toNat_unsignedResult hfits).trans hread)
  exact ⟨_, _, exec_bfwrL_of_legal hr hw how ha v, exec_bfrdL_of_legal (running_setStore hr _ _) hw how
    (by simpa using ha), rfl, hres.trans (topBits_eq_and v hw8), fun hv h0 => hres.trans (topBits_eq_self hw8 hv h0)⟩

/-- Settles O22: an element read after an element write. -/
theorem elementWritesAreVisibleAtOnce : Obligations.ElementWritesAreVisibleAtOnce := by
  intro s sel i k v hr hs hi hk
  refine ⟨_, _, _, exec_elwr_of_lt hr hi v, exec_elrd_of_lt (running_setStore hr _ _) (by simpa using hk),
    exec_elrd_of_lt hr hk, ?_⟩
  refine (congrArg unsignedResult (elemRead_elemWrite hs sel i v k)).trans ?_
  split <;> rfl

/-- Settles O23: the answer is the channel read, whose bits are stream bits of the element. -/
theorem chrdReadsTheChannelBits : Obligations.ChrdReadsTheChannelBits := by
  intro s sel i off w hr hw hw8 hoff hbyte hi
  have hc := (chanOK_iff (s.cfg.elemBits sel) off w).2 ⟨hw, hw8, hoff, hbyte⟩
  have hbits := fun j => testBit_readR_elemRead s sel i j hoff
  refine ⟨⟨_, exec_chrdR_of_legal hr hc hi, rfl, rfl, rfl, fun j => ?_⟩,
    _, exec_chrdL_of_legal hr hc hi, rfl, rfl, rfl, fun j => ?_⟩
  · exact (getLsbD_unsignedResult_readR _ _ _ hw8).trans (hbits j)
  · exact (getLsbD_unsignedResult_readL _ _ _ hw8).trans (testBit_readL_of_readR hbits hw8 j)

/-- Settles O24: the element is written back with its channel replaced, which sets the channel's stream bits alone. -/
theorem chwrWritesTheChannelBitsOnly : Obligations.ChwrWritesTheChannelBitsOnly := by
  intro s sel i off w v hr hs hw hw8 hoff hbyte hi
  have hc := (chanOK_iff (s.cfg.elemBits sel) off w).2 ⟨hw, hw8, hoff, hbyte⟩
  refine ⟨⟨_, exec_chwrR_of_legal hr hc hi v, setStore_sameButStores s sel _ _, setStore_otherStoreSame s sel _ _,
      ⟨rfl, rfl, rfl⟩, fun l => bit_store_writeChannel hs sel i v l hoff⟩,
    _, exec_chwrL_of_legal hr hc hi v, setStore_sameButStores s sel _ _, setStore_otherStoreSame s sel _ _,
      ⟨rfl, rfl, rfl⟩, fun l => ?_⟩
  refine (bit_store_writeChannel hs sel i (v >>> (8 - w)) l hoff).trans ?_
  rw [Nat.testBit_shiftRight]

/-- Settles O25: the selected store is cleared, and the elements of a cleared store read 0. -/
theorem clrZeroesTheSelectedStore : Obligations.ClrZeroesTheSelectedStore := by
  intro s sel hr
  have hstore := store_setStore s sel (Memory.clear (s.cfg.nbytes sel) (s.store sel))
  refine ⟨_, exec_clr_of_running hr, setStore_sameButStores s sel _ _, setStore_otherStoreSame s sel _ _,
    ⟨rfl, rfl, rfl⟩, fun a => ?_, fun i hi => ?_⟩
  · exact (congrArg (Memory.get · a) hstore).trans (Memory.get_clear _ _ _)
  · have hzero : (s.setStore sel (Memory.clear (s.cfg.nbytes sel) (s.store sel))).elemRead sel i = 0 := by
      rw [State.elemRead, hstore, State.setStore_cfg, Memory.elem_clear _ (Config.elem_inside s.cfg sel i hi)]
    exact ⟨_, exec_elrd_of_lt (running_setStore hr _ _) (by simpa using hi), rfl, congrArg unsignedResult hzero, rfl⟩

/-- Settles O26: both sides have the same stream bits; an element that straddles has its low `8 - p` bits in the first
byte and the others in the second. -/
theorem packedElementsAreFieldAccesses : Obligations.PackedElementsAreFieldAccesses := by
  intro s sel i v hs he e k p
  have hpos : i * e = 8 * k + p := (Nat.div_add_mod (i * e) 8).symm
  have hp : p < 8 := Nat.mod_lt _ (by decide)
  have hwf := wf_store hs sel
  refine ⟨fun hin => ⟨elemRead_of_inside s sel hpos hin, ?_⟩,
    fun hout => ⟨elemRead_of_straddle s sel hpos hp he hout, ?_⟩⟩
  · rw [State.elemWrite, Memory.setElem_of_inside hwf hpos hin, setStoreByte_writeR]
  · rw [State.elemWrite, Memory.setElem_of_straddle hwf hpos hp he hout, setStoreByte_writeR_succ hs]

/-- Settles O27: the bits of whole bytes of the stream. -/
theorem wideElementsAreLittleEndianBytes : Obligations.WideElementsAreLittleEndianBytes := by
  intro s sel i v n hs he
  have hpos : i * (8 * n) = 8 * (i * n) := Nat.mul_left_comm ..
  refine ⟨?_, fun a => ?_⟩
  · rw [State.elemRead, Memory.elem, he, hpos, Memory.streamRead_bytes]
    rfl
  · refine Nat.eq_of_testBit_eq fun j => ?_
    rw [testBit_storeByte, bit_store_elemWrite hs, he, hpos]
    by_cases ha : i * n ≤ a ∧ a < i * n + n
    · rw [if_pos ha, show (256 : Nat) = 2 ^ 8 from rfl, Nat.testBit_mod_two_pow, Nat.testBit_shiftRight]
      by_cases hj : j < 8
      · rw [if_pos (by omega)]
        congr 2
        omega
      · simp [hj]
    · rw [if_neg ha, testBit_storeByte]
      by_cases hj : j < 8
      · rw [if_neg (by omega)]
      · simp [hj]

/-- Settles O29: the ends of the range of positions. -/
theorem itbegAndItendAnswerTheEnds : Obligations.ItbegAndItendAnswerTheEnds := by
  intro s sel hr
  refine ⟨⟨_, exec_itbeg_of_running hr, rfl, rfl, rfl, rfl⟩, _, exec_itend_of_running hr, rfl, rfl, rfl, ?_⟩
  exact (toNat_ofNat_small (Config.count_le hr.1 sel)).trans (count_eq_ite s.cfg sel)

/-- Settles O30: the sum is in range, so neither check faults and the result port holds it. -/
theorem itaddAnswersThePosition : Obligations.ItaddAnswersThePosition := by
  intro s sel pos n hr hp h0 h1
  have hcount := Config.count_le hr.1 sel
  refine ⟨_, exec_itadd_of_inside hr hp h0 h1, rfl, rfl, rfl, ?_⟩
  show ((unsignedResult ((pos : Int) + n).toNat).toNat : Int) = pos + n
  rw [toNat_unsignedResult (by omega), Int.toNat_of_nonneg h0]

/-- Settles O31: a count is below `2^31`, so the difference does not wrap. -/
theorem itdiffAnswersTheSignedDifference : Obligations.ItdiffAnswersTheSignedDifference := by
  intro s sel pos2 pos1 hr h2 h1
  have hcount := Config.count_le hr.1 sel
  exact ⟨_, exec_itdiff_of_inside hr h2 h1, rfl, rfl, rfl, toInt_signedResult (by omega) (by omega)⟩

/-- Settles O32: the comparison is the answer's `FLAG`. -/
theorem iteqComparesPositions : Obligations.IteqComparesPositions := by
  intro s sel pos1 pos2 hr h1 h2
  exact ⟨_, exec_iteq_of_inside hr h1 h2, rfl, rfl, rfl, decide_eq_true_iff⟩
end

section
/-!
PROOFS. The family 43_page_window, continued: the pixel mapping on the resident band (R180 to R183), drawing and reading
a pixel (R188, R189), and the bands that `PWADV` goes through after `PWBEGIN` (R194, R195).
-/
namespace Sys2Proof

/-! ### The mapping is onto the page (43_page_window R183) -/

theorem Config.mapIndex_surj {c : Config} (h : c.wf = true) {k : Nat} (hk : k < c.ppp) :
    ∃ x y, x < c.width ∧ y < c.pageHeight ∧ c.mapIndex x y = k := by
  have hw : 0 < c.width := Config.width_pos h
  unfold Config.ppp at hk
  cases hm : c.mapping with
  | rowMajor =>
    refine ⟨k % c.width, k / c.width, Nat.mod_lt _ hw, Nat.div_lt_of_lt_mul hk, ?_⟩
    simp only [Config.mapIndex, hm]
    exact Nat.div_add_mod' ..
  | banked =>
    obtain ⟨q, hq⟩ : 8 ∣ c.pageHeight := Nat.dvd_of_mod_eq_zero (Config.pageHeight_mod h hm)
    rw [hq, Nat.mul_left_comm] at hk
    have hrow : k / 8 / c.width < q := Nat.div_lt_of_lt_mul (by omega)
    have hcol := Nat.div_add_mod' (k / 8) c.width
    refine ⟨k / 8 % c.width, 8 * (k / 8 / c.width) + k % 8, Nat.mod_lt _ hw, by omega, ?_⟩
    have hdiv : (8 * (k / 8 / c.width) + k % 8) / 8 = k / 8 / c.width := by omega
    simp only [Config.mapIndex, hm, hdiv, Nat.mul_assoc]
    omega

end Sys2Proof

namespace Sys2Proof.Machine

/-! ### The pixels of the resident band -/

/-- The point of the resident band at page-relative coordinates inside the page. -/
theorem inBand_of_relative {s : State} (hb : BandOK s) {x y : Nat} (hx : x < s.cfg.width) (hy : y < s.cfg.pageHeight) :
    s.inBand (s.p0x.toInt + x) (s.p0y.toInt + y) = true := by
  obtain ⟨hleft, hright, k, -, -, hbottom⟩ := hb
  rw [inBand_iff]
  omega

/-- The index is the mapping's formula on the page-relative coordinates, which are not negative (R180, R181). -/
theorem pixelIndex_formula {s : State} (hb : BandOK s) {x y : Int} (h : s.inBand x y = true) :
    (s.cfg.mapping = .rowMajor → (s.pixelIndex x y : Int) = (y - s.p0y.toInt) * s.cfg.width + (x - s.p0x.toInt)) ∧
      (s.cfg.mapping = .banked →
        (s.pixelIndex x y : Int) =
          8 * ((y - s.p0y.toInt) / 8) * s.cfg.width + 8 * (x - s.p0x.toInt) + (y - s.p0y.toInt) % 8) := by
  obtain ⟨-, -, hx, hy⟩ := inBand_relative hb h
  obtain ⟨rx, hrx⟩ := Int.eq_ofNat_of_zero_le hx
  obtain ⟨ry, hry⟩ := Int.eq_ofNat_of_zero_le hy
  constructor <;> intro hm <;> simp [State.pixelIndex, Config.mapIndex, hm, hrx, hry]

/-- Two pixels of the band with one index are one pixel (R183). -/
theorem pixelIndex_inj {s : State} (hw : s.cfg.wf = true) (hb : BandOK s) {x y x' y' : Int} (h : s.inBand x y = true)
    (h' : s.inBand x' y' = true) (he : s.pixelIndex x y = s.pixelIndex x' y') : x = x' ∧ y = y' := by
  obtain ⟨hx, -, hx0, hy0⟩ := inBand_relative hb h
  obtain ⟨hx', -, hx0', hy0'⟩ := inBand_relative hb h'
  obtain ⟨ex, ey⟩ := Config.mapIndex_inj hw hx hx' he
  omega

theorem pixelIndex_surj {s : State} (hw : s.cfg.wf = true) (hb : BandOK s) {k : Nat} (hk : k < s.cfg.ppp) :
    ∃ x y, s.inBand x y = true ∧ s.pixelIndex x y = k := by
  obtain ⟨x, y, hx, hy, hxy⟩ := Config.mapIndex_surj hw hk
  refine ⟨_, _, inBand_of_relative hb hx hy, ?_⟩
  simpa [State.pixelIndex] using hxy

/-! ### Drawing and reading a pixel of the running block -/

section
variable {s : State} (hr : Running s) {x y : Int}
include hr

theorem exec_pwdraw_of_inBand (hb : BandOK s) (h : s.inBand x y = true) (c : Nat) :
    exec (.pwdraw x y c) s = .next { s.elemWrite .front (s.pixelIndex x y) c with resp := doneResponse 0 true } := by
  rw [exec, execPwdraw, running_of_Running hr, if_pos h, if_pos (pixelIndex_lt hr.1 hb h), done]

theorem exec_pwdraw_of_outside (h : s.inBand x y = false) (c : Nat) :
    exec (.pwdraw x y c) s = .next { s with resp := doneResponse 0 false } := by
  rw [exec, execPwdraw, running_of_Running hr, if_neg (Bool.eq_false_iff.1 h), done]

theorem exec_pwread_of_inBand (hb : BandOK s) (h : s.inBand x y = true) :
    exec (.pwread x y) s =
      .next { s with resp := doneResponse (unsignedResult (s.elemRead .front (s.pixelIndex x y))) true } := by
  rw [exec, execPwread, running_of_Running hr, if_pos h, if_pos (pixelIndex_lt hr.1 hb h), done]

theorem exec_pwread_of_outside (h : s.inBand x y = false) :
    exec (.pwread x y) s = .next { s with resp := doneResponse 0 false } := by
  rw [exec, execPwread, running_of_Running hr, if_neg (Bool.eq_false_iff.1 h), done]

/-- A draw answers, and its `FLAG` says whether the point is in the band. -/
theorem exec_pwdraw_flag (hb : BandOK s) (x y : Int) (c : Nat) :
    ∃ t, exec (.pwdraw x y c) s = .next t ∧ Answered t 0 (s.inBand x y) := by
  cases h : s.inBand x y with
  | true => exact ⟨_, exec_pwdraw_of_inBand hr hb h c, rfl, rfl, rfl⟩
  | false => exact ⟨_, exec_pwdraw_of_outside hr h c, rfl, rfl, rfl⟩

end

/-! ### A command repeated -/

theorem repeated_succ_of_next {i : Instr} {n : Nat} {s t u : State} (h : repeated i n s = .next t)
    (he : exec i t = .next u) : repeated i (n + 1) s = .next u := by
  induction n generalizing s with
  | zero =>
    obtain rfl := Outcome_next_inj h
    simp [repeated, he]
  | succ n ih =>
    rw [repeated] at h ⊢
    cases hs : exec i s with
    | next v =>
      rw [hs] at h
      exact ih h
    | fault | refused =>
      rw [hs] at h
      cases h

/-! ### The bands after `PWBEGIN` (43_page_window R194, R195) -/

/-- The running block has its band at band `k` of the frame of configuration `c`. -/
structure AtBand (c : Config) (k : Nat) (t : State) : Prop where
  cfg : t.cfg = c
  run : Running t
  lt : k < c.pageCount
  left : t.p0x.toInt = 0
  right : t.p1x.toInt = (c.width : Int) - 1
  top : t.p0y.toInt = (k : Int) * c.pageHeight
  bottom : t.p1y.toInt = t.p0y.toInt + c.pageHeight - 1

theorem AtBand.bandOK {c : Config} {k : Nat} {t : State} (h : AtBand c k t) : BandOK t := by
  obtain ⟨rfl, -, hk, hleft, hright, htop, hbottom⟩ := h
  exact ⟨hleft, hright, k, hk, htop, hbottom⟩

theorem AtBand.wf {c : Config} {k : Nat} {t : State} (h : AtBand c k t) : c.wf = true := h.cfg ▸ h.run.1

/-- The band is read from the configuration, `FAULT` and the four band fields alone. -/
theorem AtBand.congr {c : Config} {k : Nat} {t u : State} (h : AtBand c k t) (hc : u.cfg = t.cfg)
    (hf : u.fault = t.fault) (hb : (u.p0x, u.p0y, u.p1x, u.p1y) = (t.p0x, t.p0y, t.p1x, t.p1y)) : AtBand c k u := by
  simp only [Prod.mk.injEq] at hb
  obtain ⟨h0x, h0y, h1x, h1y⟩ := hb
  obtain ⟨hcfg, ⟨hwf, hfault⟩, hlt, hleft, hright, htop, hbottom⟩ := h
  exact ⟨hc.trans hcfg, ⟨hc ▸ hwf, hf.trans hfault⟩, hlt, h0x ▸ hleft, h1x ▸ hright, h0y ▸ htop,
    by rw [h1y, h0y, hbottom]⟩

theorem atBand_beginFrame {s : State} (hr : Running s) : AtBand s.cfg 0 s.beginFrame := by
  obtain ⟨h0x, h0y, h1x, h1y⟩ := beginFrame_band hr.1
  exact ⟨rfl, hr, Config.pageCount_pos hr.1, h0x, h1x, by simp, by simpa [h0y] using h1y⟩

theorem atBand_of_pwbegin {s b : State} (hr : Running s) (h : exec .pwbegin s = .next b) : AtBand s.cfg 0 b := by
  obtain rfl := Outcome_next_inj ((exec_pwbegin_of_running hr).symm.trans h)
  exact (atBand_beginFrame hr).congr rfl rfl rfl

/-- The bottom row of band `k`. -/
theorem AtBand.bottom_eq {c : Config} {k : Nat} {t : State} (h : AtBand c k t) :
    t.p1y.toInt = (((k + 1) * c.pageHeight : Nat) : Int) - 1 := by
  rw [h.bottom, h.top]
  push_cast
  ring

theorem AtBand.lastBand_iff {c : Config} {k : Nat} {t : State} (h : AtBand c k t) :
    t.lastBand = true ↔ k + 1 = c.pageCount := by
  obtain ⟨hle, heq⟩ := band_bottom h.wf h.lt
  rw [Machine.lastBand_iff, h.bottom_eq, h.cfg, ← heq]
  omega

theorem AtBand.not_lastBand {c : Config} {k : Nat} {t : State} (h : AtBand c k t) (hk : k + 1 < c.pageCount) :
    t.lastBand = false :=
  Bool.eq_false_iff.2 fun hl => Nat.ne_of_lt hk (h.lastBand_iff.1 hl)

theorem AtBand.advanceBand {c : Config} {k : Nat} {t : State} (h : AtBand c k t) (hk : k + 1 < c.pageCount) :
    AtBand c (k + 1) t.advanceBand := by
  have hl := h.not_lastBand hk
  obtain ⟨rfl, hr, hlt, hleft, hright, htop, hbottom⟩ := h
  obtain ⟨-, h0y, h1y⟩ := advanceBand_band hr.1 hlt htop hbottom hl
  refine ⟨rfl, hr, hk, hleft, hright, ?_, ?_⟩
  · rw [h0y, htop]
    push_cast
    ring
  · rw [h1y, h0y, hbottom]
    ring

theorem AtBand.pwadv {c : Config} {k : Nat} {t : State} (h : AtBand c k t) (hk : k + 1 < c.pageCount) :
    ∃ u, exec .pwadv t = .next u ∧ AtBand c (k + 1) u ∧ Answered u 0 true :=
  ⟨_, exec_pwadv_of_not_lastBand h.run (h.not_lastBand hk), (h.advanceBand hk).congr rfl rfl rfl, rfl, rfl, rfl⟩

/-- `k` advances from the topmost band lead to band `k`, each answering true. -/
theorem AtBand.repeated_pwadv {c : Config} {b : State} (h : AtBand c 0 b) {k : Nat} (hk : k < c.pageCount) :
    ∃ t, repeated .pwadv k b = .next t ∧ AtBand c k t ∧ (0 < k → Answered t 0 true) := by
  induction k with
  | zero => exact ⟨b, rfl, h, fun h0 => absurd h0 (Nat.lt_irrefl 0)⟩
  | succ k ih =>
    obtain ⟨t, ht, hband, -⟩ := ih (by omega)
    obtain ⟨u, hu, hnext, hans⟩ := hband.pwadv hk
    exact ⟨u, repeated_succ_of_next ht hu, hnext, fun _ => hans⟩

/-- A point of the frame is in band `k` when its row is. -/
theorem AtBand.inBand_iff {c : Config} {k : Nat} {t : State} (h : AtBand c k t) {x y : Nat} (hx : x < c.width) :
    t.inBand x y = true ↔ y / c.pageHeight = k := by
  have hp := Config.pageHeight_pos h.wf
  rw [Machine.inBand_iff, h.left, h.right, h.top, h.bottom_eq, Nat.div_eq_iff hp]
  rw [Nat.succ_mul]
  zify
  omega

end Sys2Proof.Machine

open Sys2Proof Sys2Proof.Machine

/-- Settles O33: the formulas, the bound, and both halves of the bijection. -/
theorem pixelMapIsABijection : Obligations.PixelMapIsABijection := fun _ hw hb =>
  ⟨fun _ _ h => pixelIndex_formula hb h, fun _ _ h => pixelIndex_lt hw hb h,
    fun _ _ _ _ h h' he => pixelIndex_inj hw hb h h' he, fun _ hk => pixelIndex_surj hw hb hk⟩

/-- Settles O36: in the band the draw is one element write of the frontend store; outside it there is none. -/
theorem pwdrawWritesItsPixelOnly : Obligations.PwdrawWritesItsPixelOnly := by
  intro s x y c hinv hr
  cases h : s.inBand x y with
  | true =>
    refine ⟨_, exec_pwdraw_of_inBand hr hinv.band h c, ⟨rfl, rfl, rfl⟩, nofun, fun _ => ⟨rfl, fun l => ?_⟩⟩
    exact bit_store_elemWrite hinv.stores .front (s.pixelIndex x y) c l
  | false => exact ⟨_, exec_pwdraw_of_outside hr h c, ⟨rfl, rfl, rfl⟩, fun _ => rfl, nofun⟩

/-- Settles O37: in the band the answer is the pixel's element; outside it, the default colour. -/
theorem pwreadReadsItsPixel : Obligations.PwreadReadsItsPixel := by
  intro s x y hinv hr
  cases h : s.inBand x y with
  | true => exact ⟨_, exec_pwread_of_inBand hr hinv.band h, rfl, rfl, rfl, rfl⟩
  | false => exact ⟨_, exec_pwread_of_outside hr h, rfl, rfl, rfl, rfl⟩

/-- Settles O38: the draw leaves the band, so it leaves every point's index, and writes the one element of its point. -/
theorem aDrawChangesOnePixelOnly : Obligations.ADrawChangesOnePixelOnly := by
  intro s x y x' y' c hinv hr hin
  have hdraw := exec_pwdraw_of_inBand hr hinv.band hin c
  cases hin' : s.inBand x' y' with
  | true =>
    refine ⟨_, _, _, hdraw, exec_pwread_of_inBand (running_setStore hr _ _)
      (hinv.band.congr (by simp) (by simp)) hin',
      exec_pwread_of_inBand hr hinv.band hin', ?_⟩
    have hread := elemRead_elemWrite hinv.stores .front (s.pixelIndex x y) c (s.pixelIndex x' y')
    refine (congrArg (fun v => doneResponse (unsignedResult v) true) hread).trans ?_
    by_cases hp : x' = x ∧ y' = y
    · obtain ⟨rfl, rfl⟩ := hp
      rw [if_pos rfl, if_pos ⟨rfl, rfl⟩]
      rfl
    · rw [if_neg fun he => hp (pixelIndex_inj hr.1 hinv.band hin' hin he), if_neg hp]
  | false =>
    have hp : ¬ (x' = x ∧ y' = y) := by
      rintro ⟨rfl, rfl⟩
      rw [hin] at hin'
      cases hin'
    exact ⟨_, _, _, hdraw, exec_pwread_of_outside (running_setStore hr _ _) hin',
      exec_pwread_of_outside hr hin', (if_neg hp).symm⟩

/-- Settles O40: the advances go through the bands in order, and the last band ends at the frame's last row. -/
theorem advanceTerminates : Obligations.AdvanceTerminates := by
  intro s b hr hb
  have hfirst := atBand_of_pwbegin hr hb
  have hpages := Config.pageCount_pos hr.1
  refine ⟨fun k hk => ?_, ?_⟩
  · obtain ⟨t, ht, -, hans⟩ := hfirst.repeated_pwadv hk
    exact ⟨t, ht, hans k.succ_pos⟩
  · obtain ⟨t, ht, hband, -⟩ := hfirst.repeated_pwadv (k := s.cfg.pageCount - 1) (by omega)
    have hlast := hband.lastBand_iff.2 (Nat.sub_add_cancel hpages)
    refine ⟨t, _, ht, exec_pwadv_of_lastBand hband.run hlast, ⟨rfl, rfl, rfl⟩, ?_⟩
    refine hband.bottom_eq.trans ?_
    rw [Nat.sub_add_cancel hpages, Config.pageHeight_mul hr.1]

/-- Settles O41: after `k` advances the band is band `k`, and a draw answers whether the point is in it. -/
theorem drawsWaitForTheirBand : Obligations.DrawsWaitForTheirBand := by
  intro s b k x y c hr hb hk hx hy
  obtain ⟨t, ht, hband, -⟩ := (atBand_of_pwbegin hr hb).repeated_pwadv hk
  obtain ⟨u, hu, hstatus, -, hflag⟩ := exec_pwdraw_flag hband.run hband.bandOK x y c
  exact ⟨t, u, ht, hu, hstatus, hflag ▸ hband.inBand_iff hx⟩
end

section
/-!
PROOFS. The family 44_transfer: what one update sends (R213 to R218, R226, R227), when it makes no progress (R220,
R223), and the phases (R224).
-/
namespace Sys2Proof.Machine

/-! ### The state a chunk is sent from (R213, R214, R220, R221) -/

/-- The pixels left when a ready update sends its chunk: a page just begun has all of them. -/
def State.pixelsLeft (s : State) : Nat := if s.rem = 0 then s.cfg.ppp else s.rem.toNat

section
variable {s : State} (hw : s.cfg.wf = true)
include hw

theorem beforeChunk_chunkOff : s.beforeChunk.chunkOff = s.cfg.ppp - s.pixelsLeft := by
  rw [State.chunkOff, State.beforeChunk_cfg, beforeChunk_rem_toNat hw, State.pixelsLeft]

theorem beforeChunk_chunkSize : s.beforeChunk.chunkSize = min s.cfg.maxChunk s.pixelsLeft := by
  rw [State.chunkSize, State.beforeChunk_cfg, beforeChunk_rem_toNat hw, State.pixelsLeft]

theorem pixelsLeft_pos : 1 ≤ s.pixelsLeft := by
  unfold State.pixelsLeft
  split
  case isTrue => exact Config.ppp_pos hw
  case isFalse h => exact Nat.pos_of_ne_zero fun h0 => h (BitVec.eq_of_toNat_eq h0)

theorem startPage_chunkOff : s.startPage.chunkOff = 0 := by
  rw [State.chunkOff, startPage_rem_toNat hw, State.startPage_cfg, Nat.sub_self]

theorem startPage_chunkSize : s.startPage.chunkSize = min s.cfg.maxChunk s.cfg.ppp := by
  rw [State.chunkSize, startPage_rem_toNat hw, State.startPage_cfg]

theorem startPage_writeChunk_rem_toNat :
    s.startPage.writeChunk.rem.toNat = s.cfg.ppp - min s.cfg.maxChunk s.cfg.ppp := by
  rw [writeChunk_rem_toNat, startPage_rem_toNat hw, startPage_chunkSize hw]

end

theorem pixelsLeft_le {s : State} (hp : s.rem.toNat ≤ s.cfg.ppp) : s.pixelsLeft ≤ s.cfg.ppp := by
  unfold State.pixelsLeft
  split
  · exact Nat.le_refl _
  · exact hp

theorem beforeChunk_of_rem {s : State} (h : s.rem ≠ 0) : s.beforeChunk = s := if_pos h

theorem beforeChunk_of_exhausted {s : State} (h : PageExhausted s) : s.beforeChunk = s.advanceBand.startPage := by
  obtain ⟨h0, hl⟩ := h
  simp [State.beforeChunk, h0, hl]

theorem beforeChunk_of_idle {s : State} (h : Idle s) : s.beforeChunk = s.startFrame.startPage := by
  obtain ⟨h0, hl⟩ := h
  simp [State.beforeChunk, h0, hl]

/-- Only a frame start clears the frontend store and records an event of its own. -/
theorem beforeChunk_of_not_idle {s : State} (h : ¬ Idle s) :
    s.beforeChunk.fs = s.fs ∧ s.beforeChunk.trace = s.trace := by
  obtain ⟨-, e⟩ | ⟨hidle, -⟩ | ⟨-, e⟩ := beforeChunk_cases s
  · rw [e]
    exact ⟨rfl, rfl⟩
  · exact absurd hidle h
  · rw [e]
    exact ⟨rfl, rfl⟩

/-! ### The answers of an update -/

theorem exec_tdupdate_of_not_ready {s : State} (hr : Running s) (h : s.ready = false) :
    exec .tdupdate s = .next { s with resp := doneResponse 0 false } := by
  simp [exec, execTdupdate, running_of_Running hr, h, done]

theorem exec_tdupdate_of_idle {s : State} (hr : Running s) (h : Idle s) (hp : s.permit = false) :
    exec .tdupdate s = .next { s with resp := doneResponse 0 false } := by
  obtain ⟨h0, hl⟩ := h
  simp [exec, execTdupdate, running_of_Running hr, h0, hl, hp, done]

/-- A ready update with no chunk due finds the block idle without permission (R220). -/
theorem idle_of_not_sends {s : State} (h : ¬ Sends s) : Idle s ∧ s.permit = false := by
  simpa [Sends, and_assoc] using h

/-- With no pixel left the block is idle or at the end of a page (10_state R45). -/
theorem idle_or_exhausted {s : State} (h : s.rem.toNat = 0) : Idle s ∨ PageExhausted s := by
  have h0 : s.rem = 0 := BitVec.eq_of_toNat_eq h
  cases hl : s.lastBand with
  | true => exact .inl ⟨h0, hl⟩
  | false => exact .inr ⟨h0, hl⟩

theorem ne_zero_of_pageActive {s : State} {n : Nat} (h : PageActive n s) : s.rem ≠ 0 := by
  rintro h0
  obtain ⟨hn, hpos⟩ := h
  rw [h0] at hn
  exact absurd hn (Nat.ne_of_lt hpos)

theorem withResp_congr {u v : State} (h : u = v) (r : Response) : { u with resp := r } = { v with resp := r } := by
  rw [h]

/-! ### The bytes of a chunk (R215 to R218, R226, R227) -/

/-- The bytes that cover an aligned chunk lie inside the frontend store. -/
theorem aligned_chunk_inside (c : Config) {off size : Nat} (ha : off * c.ef % 8 = 0) (h : off + size ≤ c.ppp) :
    off * c.ef / 8 + ceilDiv (size * c.ef) 8 ≤ c.nf := by
  have hbits := Nat.mul_le_mul_right c.ef h
  rw [Nat.add_mul] at hbits
  unfold Config.nf ceilDiv
  omega

/-- The frontend store a chunk is read from, inside its bounds: 0 at a frame start, which clears it. -/
theorem get_beforeChunk_fs (s : State) {a : Nat} (ha : a < s.cfg.nf) :
    Memory.get s.beforeChunk.fs a = if Idle s then 0 else Memory.get s.fs a := by
  by_cases h : Idle s
  · rw [if_pos h, beforeChunk_of_idle h]
    exact (Memory.get_clear _ _ _).trans (if_pos ha)
  · rw [if_neg h, (beforeChunk_of_not_idle h).1]

/-- The frontend elements a chunk is converted from: 0 at a frame start. -/
theorem elem_beforeChunk_fs (s : State) {i : Nat} (hi : i < s.cfg.ppp) :
    Memory.elem s.beforeChunk.fs s.cfg.ef i = if Idle s then 0 else Memory.elem s.fs s.cfg.ef i := by
  by_cases h : Idle s
  · rw [if_pos h, beforeChunk_of_idle h]
    exact Memory.elem_clear _ (Config.elem_inside s.cfg .front i hi)
  · rw [if_neg h, (beforeChunk_of_not_idle h).1]

/-- The first bytes of a store, read back as a store, have the store's elements. -/
theorem elem_ofBytes_bytes (m : Memory) {n e j : Nat} (h : (j + 1) * e ≤ 8 * n) :
    Memory.elem (Memory.ofBytes n (Memory.bytes m 0 n)) e j = Memory.elem m e j := by
  rw [Nat.succ_mul] at h
  refine Memory.streamRead_congr _ _ _ _ fun b hb => ?_
  have hin : (j * e + b) / 8 < n := by omega
  rw [Memory.bit, Memory.bit, Memory.get_ofBytes, List.take_of_length_le (Memory.length_bytes m 0 n).le]
  exact congrArg (BitVec.getLsbD · _) ((Memory.getD_bytes m 0 n _ hin).trans (by rw [Nat.zero_add]))

/-- A chunk sent past the frame start leaves the frontend store and adds one event (R214). -/
theorem sent_of_not_idle {s : State} (h : ¬ Idle s) {off size : Nat} (hoff : s.beforeChunk.chunkOff = off)
    (hsize : s.beforeChunk.chunkSize = size) :
    s.beforeChunk.writeChunk.fs = s.fs ∧
      s.beforeChunk.writeChunk.trace = s.trace ++ [.devWrite (s.beforeChunk.chunkBytes off size) off size] := by
  obtain ⟨hfs, htrace⟩ := beforeChunk_of_not_idle h
  rw [State.writeChunk_fs, State.writeChunk_trace, hfs, htrace, hoff, hsize]
  exact ⟨rfl, rfl⟩

/-- The chunk that starts a frame finds the frontend store cleared and adds its event to the frame's (R221). -/
theorem sent_of_idle {s : State} (h : Idle s) {off size : Nat} (hoff : s.beforeChunk.chunkOff = off)
    (hsize : s.beforeChunk.chunkSize = size) :
    (∀ a, Memory.get s.beforeChunk.writeChunk.fs a = if a < s.cfg.nf then 0 else Memory.get s.fs a) ∧
      s.beforeChunk.writeChunk.trace =
        s.trace ++ [.devBeginFrame, .devWrite (s.beforeChunk.chunkBytes off size) off size] := by
  rw [State.writeChunk_fs, State.writeChunk_trace, hoff, hsize, beforeChunk_of_idle h]
  exact ⟨Memory.get_clear _ _, List.append_assoc ..⟩

/-! ### The trace (10_state R41; R219, R222) -/

/-- A chunk of at least one pixel has at least one byte. -/
theorem one_le_chunkBytes_length {s : State} (hw : s.cfg.wf = true) (off : Nat) {size : Nat} (h : 1 ≤ size) :
    1 ≤ (s.chunkBytes off size).length := by
  rw [length_chunkBytes hw]
  have hbits : 1 ≤ size * s.cfg.eb := Nat.mul_pos h (Config.eb_bounds hw).1
  have hcover := (ceilDiv_eight (size * s.cfg.eb)).1
  omega

/-! ### Steps of a device that is not ready (R223) -/

theorem steps_succ_of_next {n : Nat} {s u : State} (h : step s = .next u) : steps (n + 1) s = steps n u :=
  congrArg (fun r : Result => match r with | .next t => steps n t | .fault f => .fault f | .refused f => .refused f) h

theorem steps_of_not_ready (n : Nat) {s : State} (hr : Running s)
    (h : ∀ k, k < n → ∃ c p, s.host[s.pc + k]? = some (.issue c false p) ∧ decode c = .ok .tdupdate) :
    ∃ t, steps n s = .next t ∧
      t = { s with pc := s.pc + n, ready := t.ready, permit := t.permit, resp := t.resp } := by
  induction n generalizing s with
  | zero => exact ⟨s, rfl, rfl⟩
  | succ n ih =>
    obtain ⟨c, p, he, hd⟩ := h 0 n.succ_pos
    let u : State := { s.accept false p with resp := doneResponse 0 false }
    have hu : step s = .next u := by
      rw [step_of_issue hr.1 he, execCommand_of_ok hd]
      exact exec_tdupdate_of_not_ready (s := s.accept false p) hr rfl
    obtain ⟨t, ht, hsame⟩ := ih (s := u) hr fun k hk => by
      obtain ⟨c', p', he', hd'⟩ := h (k + 1) (Nat.succ_lt_succ hk)
      exact ⟨c', p', by rwa [Nat.add_left_comm, Nat.add_comm] at he', hd'⟩
    refine ⟨t, (steps_succ_of_next hu).trans ht, ?_⟩
    rw [hsame]
    simp [u, Nat.add_assoc, Nat.add_comm 1]

end Sys2Proof.Machine

open Sys2Proof Sys2Proof.Machine

/-- Settles O42: the poll fails, or the frame-start test does. -/
theorem updateWithoutProgressChangesNothing : Obligations.UpdateWithoutProgressChangesNothing := by
  rintro s hr (hready | ⟨hidle, hpermit⟩)
  · exact exec_tdupdate_of_not_ready hr hready
  · exact exec_tdupdate_of_idle hr hidle hpermit

/-- Settles O43: with pixels left the chunk is sent from the state itself. -/
theorem updateSendsTheNextChunk : Obligations.UpdateSendsTheNextChunk := by
  intro s hinv hr hready hrem off size
  have hexec := exec_tdupdate_of_sends hr hready (.inl hrem) hinv.rem
  rw [beforeChunk_of_rem hrem] at hexec
  have hle : size ≤ s.rem.toNat := (chunkSize_le s).1
  have hp := hinv.rem
  refine ⟨_, s.chunkBytes off size, hexec, ⟨rfl, rfl, rfl⟩, chunkSize_pos hr.1 hrem, by omega,
    length_chunkBytes hr.1 off size, ?_, writeChunk_rem_toNat s⟩
  exact withResp_congr (writeChunk_shape s) _

/-- Settles O44: the band moves down, the page begins, and its first chunk is sent. -/
theorem updateBeginsTheNextPage : Obligations.UpdateBeginsTheNextPage := by
  intro s hinv hr hready hpage size
  have hexec := exec_tdupdate_of_sends hr hready (.inr (.inl hpage.2)) hinv.rem
  rw [beforeChunk_of_exhausted hpage] at hexec
  have hoff : s.advanceBand.startPage.chunkOff = 0 := startPage_chunkOff hr.1
  have hsize : s.advanceBand.startPage.chunkSize = size := startPage_chunkSize hr.1
  obtain ⟨-, -, k, hk, htop, hbottom⟩ := hinv.band
  obtain ⟨-, h0y, h1y⟩ := advanceBand_band hr.1 hk htop hbottom hpage.2
  refine ⟨_, s.advanceBand.startPage.chunkBytes 0 size, hexec, ⟨rfl, congrArg unsignedResult hsize, rfl⟩,
    length_chunkBytes (s := s.advanceBand.startPage) hr.1 0 size, ?_,
    startPage_writeChunk_rem_toNat (s := s.advanceBand) hr.1, ?_, ?_⟩
  · have hshape := writeChunk_shape s.advanceBand.startPage
    rw [hoff, hsize] at hshape
    refine (withResp_congr hshape _).trans ?_
    simp only [State.writeChunk_p0y, State.writeChunk_p1y]
    rfl
  · exact (congrArg BitVec.toInt (State.writeChunk_p0y _)).trans h0y
  · exact (congrArg BitVec.toInt (State.writeChunk_p1y _)).trans h1y

/-- Settles O45: the frame starts, its first page begins, and the page's first chunk is sent. -/
theorem updateStartsAFrame : Obligations.UpdateStartsAFrame := by
  intro s hinv hr hready hpermit hidle size
  have hexec := exec_tdupdate_of_sends hr hready (.inr (.inr hpermit)) hinv.rem
  rw [beforeChunk_of_idle hidle] at hexec
  have hoff : s.startFrame.startPage.chunkOff = 0 := startPage_chunkOff hr.1
  have hsize : s.startFrame.startPage.chunkSize = size := startPage_chunkSize hr.1
  obtain ⟨h0x, h0y, h1x, h1y⟩ := beginFrame_band hr.1
  refine ⟨_, s.startFrame.startPage.chunkBytes 0 size, hexec, ⟨rfl, congrArg unsignedResult hsize, rfl⟩,
    length_chunkBytes (s := s.startFrame.startPage) hr.1 0 size, ?_,
    startPage_writeChunk_rem_toNat (s := s.startFrame) hr.1, fun a => ?_, ?_, ?_, ?_, ?_⟩
  · have hshape := writeChunk_shape s.startFrame.startPage
    rw [hoff, hsize] at hshape
    refine (withResp_congr hshape _).trans ?_
    simp only [State.writeChunk_p0x, State.writeChunk_p0y, State.writeChunk_p1x, State.writeChunk_p1y,
      State.writeChunk_fs, State.startPage_trace, State.startFrame_trace, List.append_assoc]
    rfl
  · exact (congrArg (Memory.get · a) (State.writeChunk_fs _)).trans (Memory.get_clear ..)
  · exact (congrArg BitVec.toInt (State.writeChunk_p0x _)).trans h0x
  · exact (congrArg BitVec.toInt (State.writeChunk_p0y _)).trans h0y
  · exact (congrArg BitVec.toInt (State.writeChunk_p1x _)).trans h1x
  · exact (congrArg BitVec.toInt (State.writeChunk_p1y _)).trans h1y

/-- Settles O46: an identity chunk is read from the frontend store the update leaves, or is the next draw. -/
theorem identityChunksCarryTheStoreBytes : Obligations.IdentityChunksCarryTheStoreBytes := by
  intro s hinv hr hready hsends hb left off size len
  have hoff : s.beforeChunk.chunkOff = off := beforeChunk_chunkOff hr.1
  have hsize : s.beforeChunk.chunkSize = size := beforeChunk_chunkSize hr.1
  have hin : off + size ≤ s.cfg.ppp := by
    have : left ≤ s.cfg.ppp := pixelsLeft_le hinv.rem
    omega
  have hbridge : s.beforeChunk.cfg.bridge = .identity := by rw [State.beforeChunk_cfg, hb]
  refine ⟨_, s.beforeChunk.chunkBytes off size, exec_tdupdate_of_sends hr hready hsends hinv.rem, by simp [hb],
    fun h => sent_of_not_idle h hoff hsize, fun h => sent_of_idle h hoff hsize, fun ha => ?_, fun ha => ?_⟩
  · have hinside := aligned_chunk_inside s.cfg ha hin
    obtain ⟨hbytes, hdraws⟩ :=
      chunk_of_aligned (s := s.beforeChunk) (off := off) (size := size) hbridge (by simpa using ha)
    refine ⟨hinside, by simpa [hoff, hsize] using hdraws, ?_⟩
    rw [hbytes, State.beforeChunk_cfg]
    refine List.map_congr_left fun i hi => get_beforeChunk_fs s ?_
    have := List.mem_range.1 hi
    omega
  · obtain ⟨hbytes, hdraws⟩ :=
      chunk_of_unaligned (s := s.beforeChunk) (off := off) (size := size) hbridge (by simpa using ha)
    refine ⟨by simpa [hoff, hsize] using hdraws, ?_⟩
    rw [hbytes, State.beforeChunk_cfg, State.beforeChunk_draws]
    rfl

/-- Settles O47: the chunk's elements of the backend store become the conversions, and its bytes are read from there. -/
theorem convertingChunksCarryTheConversions : Obligations.ConvertingChunksCarryTheConversions := by
  intro s hinv hr hready hsends hb left off size
  have hoff : s.beforeChunk.chunkOff = off := beforeChunk_chunkOff hr.1
  have hsize : s.beforeChunk.chunkSize = size := beforeChunk_chunkSize hr.1
  have hin : off + size ≤ s.cfg.ppp := by
    have : left ≤ s.cfg.ppp := pixelsLeft_le hinv.rem
    omega
  have hbridge : s.beforeChunk.cfg.bridge = .converting := by rw [State.beforeChunk_cfg, hb]
  obtain ⟨-, -, hwf, -⟩ := hinv.stores
  have hbs : s.beforeChunk.writeChunk.bs = convertChunk s.cfg s.beforeChunk.fs off size s.bs := by
    rw [State.writeChunk_bs, afterExtract_bs_of_converting _ _ _ hbridge, hoff, hsize, State.beforeChunk_cfg,
      State.beforeChunk_bs]
  have hbytes : s.beforeChunk.chunkBytes off size =
      Memory.bytes s.beforeChunk.writeChunk.bs 0 (ceilDiv (size * s.cfg.eb) 8) := by
    rw [chunkBytes_of_converting _ _ hbridge, State.writeChunk_bs, hoff, hsize, State.beforeChunk_cfg]
  have hlen : (s.beforeChunk.chunkBytes off size).length = ceilDiv (size * s.cfg.eb) 8 := by
    rw [hbytes, Memory.length_bytes]
  refine ⟨_, s.beforeChunk.chunkBytes off size, exec_tdupdate_of_sends hr hready hsends hinv.rem, ?_,
    fun h => sent_of_not_idle h hoff hsize, fun h => sent_of_idle h hoff hsize, hlen, ?_,
    fun j hj => ⟨?_, ?_⟩, fun l hl => ?_⟩
  · refine (State.writeChunk_draws _).trans ?_
    rw [afterExtract_draws_of_converting _ _ hbridge, State.beforeChunk_draws]
  · rw [hlen]
    exact hbytes
  · refine (congrArg (Memory.elem · s.cfg.eb j) hbs).trans ?_
    rw [elem_convertChunk hr.1 hb _ _ _ _ hwf, if_pos hj, elem_beforeChunk_fs s (by omega)]
  · rw [hlen, hbytes]
    exact elem_ofBytes_bytes _ ((Nat.mul_le_mul_right _ hj).trans (ceilDiv_eight _).1)
  · refine (congrArg (Memory.bit · l) hbs).trans ?_
    exact bit_convertChunk_ge _ _ _ _ _ hwf l hl

/-- Settles O48: each step finds an update pending and the device not ready. -/
theorem backpressureHoldsTheBlock : Obligations.BackpressureHoldsTheBlock := fun n _ hr h => steps_of_not_ready n hr h

/-- Settles O50: only a chunk reaches the trace, after the event of a frame start if it begins a frame. -/
theorem theTraceOnlyGrowsByUpdates : Obligations.TheTraceOnlyGrowsByUpdates := by
  intro s t i hexec
  obtain ⟨hw, hc⟩ := exec_cases hexec
  cases hc with
  | halted | fault => exact .inl rfl
  | effect h0 u res flag e =>
    refine e.keeps_or_sends.imp (fun hkeep => hkeep.1) fun ⟨hi, hu⟩ => ⟨hi, ?_⟩
    have hleft := pixelsLeft_pos hw
    have hchunk := Config.maxChunk_pos hw
    have hsize : 1 ≤ s.beforeChunk.chunkSize := by rw [beforeChunk_chunkSize hw]; omega
    have hle : s.beforeChunk.chunkSize ≤ s.cfg.maxChunk := State.beforeChunk_cfg s ▸ (chunkSize_le s.beforeChunk).2
    refine ⟨s.beforeChunk.chunkBytes s.beforeChunk.chunkOff s.beforeChunk.chunkSize, s.beforeChunk.chunkOff, _,
      one_le_chunkBytes_length (by simpa using hw) _ hsize, hsize, hle, ?_⟩
    subst hu
    by_cases h : Idle s
    · exact .inr (sent_of_idle h rfl rfl).2
    · exact .inl (sent_of_not_idle h rfl rfl).2

/-- Settles O51: an update with a chunk due sends it; otherwise the block is idle without permission. -/
theorem readyUpdatesMakeProgress : Obligations.ReadyUpdatesMakeProgress := by
  intro s hinv hr hready
  by_cases hs : Sends s
  · refine ⟨_, exec_tdupdate_of_sends hr hready hs hinv.rem, .inl ⟨rfl, ?_⟩⟩
    show s.trace.length < s.beforeChunk.writeChunk.trace.length
    by_cases h : Idle s
    · rw [(sent_of_idle h rfl rfl).2]
      simp
    · rw [(sent_of_not_idle h rfl rfl).2]
      simp
  · obtain ⟨hidle, hpermit⟩ := idle_of_not_sends hs
    exact ⟨_, exec_tdupdate_of_idle hr hidle hpermit, .inr ⟨rfl, hidle, hpermit, rfl⟩⟩

/-- Settles O52: the chunk lowers the pixels left, and the band tells the end of a page from the end of a frame. -/
theorem updatesFollowThePhases : Obligations.UpdatesFollowThePhases := by
  intro s hinv hr hready hpermit
  have hrem := beforeChunk_writeChunk_rem_toNat hr.1
  refine ⟨_, exec_tdupdate_of_sends hr hready (.inr (.inr hpermit)) hinv.rem, fun hphase => ?_, fun n hactive => ?_⟩
  · have h0 : s.rem = 0 := hphase.elim (·.1) (·.1)
    rw [if_pos h0] at hrem
    split
    · exact ⟨hrem.trans (by omega), by omega⟩
    · exact idle_or_exhausted (hrem.trans (by omega))
  · rw [if_neg (ne_zero_of_pageActive hactive), hactive.1] at hrem
    split
    · exact ⟨hrem.trans (by omega), by omega⟩
    · exact idle_or_exhausted (hrem.trans (by omega))
end

section
/-!
PROOFS. The chunk coverage law (44_transfer R225): the updates of one frame, page after page and chunk after chunk.
-/
namespace Sys2Proof

/-! ### The chunks of a page and of a frame -/

/-- Chunk `j` of a page is due exactly when the chunks before it leave pixels. -/
theorem lt_ceilDiv_iff {a b j : Nat} (hb : 1 ≤ b) : j < ceilDiv a b ↔ j * b < a := by
  unfold ceilDiv
  rw [← Nat.succ_le_iff, Nat.le_div_iff_mul_le hb, Nat.succ_mul]
  omega

/-- Chunk `j` of a page: its offset and its size (44_transfer R214). -/
def Config.chunkRecord (c : Config) (j : Nat) : Nat × Nat := (j * c.maxChunk, min c.maxChunk (c.ppp - j * c.maxChunk))

/-- The chunks of `k` pages and the first `j` ones of the next page. -/
def Config.recordsUpTo (c : Config) (k j : Nat) : List (Nat × Nat) :=
  (List.range k).flatMap (fun _ => c.pageRecords) ++ (List.range j).map c.chunkRecord

theorem recordsUpTo_succ_chunk (c : Config) (k j : Nat) :
    c.recordsUpTo k (j + 1) = c.recordsUpTo k j ++ [c.chunkRecord j] := by
  simp [Config.recordsUpTo, List.range_succ]

/-- After the last chunk of a page the next page is due. -/
theorem recordsUpTo_succ_page (c : Config) (k : Nat) :
    c.recordsUpTo (k + 1) 0 = c.recordsUpTo k (ceilDiv c.ppp c.maxChunk) := by
  simp only [Config.recordsUpTo, List.range_succ, List.flatMap_append, List.flatMap_singleton, List.range_zero,
    List.map_nil, List.append_nil]
  rfl

theorem recordsUpTo_pageCount (c : Config) : c.recordsUpTo c.pageCount 0 = c.frameRecords :=
  List.append_nil _

/-- The first `j` chunks of a page hold its first `j * MAX_CHUNK` pixels, as far as it has them. -/
theorem sum_chunkRecord_sizes (c : Config) (j : Nat) :
    (((List.range j).map c.chunkRecord).map Prod.snd).sum = min c.ppp (j * c.maxChunk) := by
  induction j with
  | zero => simp
  | succ j ih =>
    rw [List.range_succ, List.map_append, List.map_append, List.sum_append, ih, Nat.succ_mul]
    simp only [List.map_cons, List.map_nil, List.sum_cons, List.sum_nil, Config.chunkRecord]
    omega

section
variable {c : Config} (hw : c.wf = true)
include hw

theorem ppp_le_ceilDiv_mul : c.ppp ≤ ceilDiv c.ppp c.maxChunk * c.maxChunk :=
  Nat.not_lt.1 fun h => absurd ((lt_ceilDiv_iff (Config.maxChunk_pos hw)).2 h) (Nat.lt_irrefl _)

theorem sum_pageRecords_sizes : (c.pageRecords.map Prod.snd).sum = c.ppp :=
  (sum_chunkRecord_sizes c _).trans (Nat.min_eq_left (ppp_le_ceilDiv_mul hw))

theorem sum_frameRecords_sizes : (c.frameRecords.map Prod.snd).sum = c.width * c.height := by
  have hsum (k : Nat) : (((List.range k).flatMap fun _ => c.pageRecords).map Prod.snd).sum = k * c.ppp := by
    induction k with
    | zero => simp
    | succ k ih =>
      rw [List.range_succ, List.flatMap_append, List.map_append, List.sum_append, ih, Nat.succ_mul,
        List.flatMap_singleton, sum_pageRecords_sizes hw]
  rw [← Config.ppp_mul hw]
  exact hsum c.pageCount

theorem frameRecords_sizes : ∀ r ∈ c.frameRecords, 1 ≤ r.2 ∧ r.2 ≤ c.maxChunk := by
  intro r hr
  obtain ⟨-, -, hr⟩ := List.mem_flatMap.1 hr
  obtain ⟨j, hj, rfl⟩ := List.mem_map.1 hr
  have hchunk := Config.maxChunk_pos hw
  have hdue := (lt_ceilDiv_iff hchunk).1 (List.mem_range.1 hj)
  constructor
  · show 1 ≤ min c.maxChunk (c.ppp - j * c.maxChunk)
    omega
  · exact Nat.min_le_left _ _

end

end Sys2Proof

namespace Sys2Proof.Machine

/-! ### One frame, update after update -/

/-- The frame begun in state `s` has been sent up to chunk `j` of page `k`. -/
structure SentUpTo (s : State) (k j : Nat) (t : State) : Prop where
  band : AtBand s.cfg k t
  ready : t.ready = true
  rem : t.rem.toNat = s.cfg.ppp - j * s.cfg.maxChunk
  trace : ∃ ws, t.trace = s.trace ++ .devBeginFrame :: ws ∧
    ws.map Event.record = (s.cfg.recordsUpTo k j).map some

/-- Sending the chunk that is due (44_transfer R214). -/
theorem SentUpTo.chunk {s u : State} {k j : Nat} (h : SentUpTo s k j u) (hdue : j * s.cfg.maxChunk < s.cfg.ppp)
    (r : Response) : SentUpTo s k (j + 1) { u.writeChunk with resp := r } := by
  obtain ⟨hband, hready, hrem, ws, htrace, hws⟩ := h
  have hcfg := hband.cfg
  have hoff : u.chunkOff = j * s.cfg.maxChunk := by rw [State.chunkOff, hcfg, hrem]; omega
  have hsize : u.chunkSize = min s.cfg.maxChunk (s.cfg.ppp - j * s.cfg.maxChunk) := by
    rw [State.chunkSize, hcfg, hrem]
  refine ⟨hband.congr (by simp) (by simp) (by simp), by simpa using hready, ?_,
    ws ++ [.devWrite (u.chunkBytes u.chunkOff u.chunkSize) u.chunkOff u.chunkSize], ?_, ?_⟩
  · refine (writeChunk_rem_toNat u).trans ?_
    rw [hrem, hsize, Nat.succ_mul]
    omega
  · refine (State.writeChunk_trace u).trans ?_
    rw [htrace, List.append_assoc]
    rfl
  · rw [List.map_append, hws, recordsUpTo_succ_chunk, List.map_append, hoff, hsize]
    rfl

theorem sentUpTo_startFrame {s : State} (hr : Running s) (hready : s.ready = true) :
    SentUpTo s 0 0 s.startFrame.startPage := by
  refine ⟨(atBand_beginFrame hr).congr rfl rfl rfl, hready, ?_, [], rfl, rfl⟩
  exact (startPage_rem_toNat (s := s.startFrame) hr.1).trans (by simp)

/-- After the last chunk of a page, before the last band, the next page begins. -/
theorem SentUpTo.advance {s t : State} {k : Nat} (h : SentUpTo s k (ceilDiv s.cfg.ppp s.cfg.maxChunk) t)
    (hk : k + 1 < s.cfg.pageCount) : SentUpTo s (k + 1) 0 t.advanceBand.startPage := by
  obtain ⟨hband, hready, -, ws, htrace, hws⟩ := h
  refine ⟨(hband.advanceBand hk).congr rfl rfl rfl, hready, ?_, ws, htrace, hws.trans ?_⟩
  · refine (startPage_rem_toNat (s := t.advanceBand) hband.run.1).trans ?_
    rw [State.advanceBand_cfg, hband.cfg]
    simp
  · rw [recordsUpTo_succ_page]

section
variable {s t : State} {k j : Nat} (h : SentUpTo s k j t)
include h

theorem SentUpTo.rem_eq_zero_iff : t.rem = 0 ↔ ceilDiv s.cfg.ppp s.cfg.maxChunk ≤ j := by
  have hdue := lt_ceilDiv_iff (a := s.cfg.ppp) (j := j) (Config.maxChunk_pos h.band.wf)
  have hrem := h.rem
  constructor
  · intro h0
    rw [h0] at hrem
    have h0 : (0 : Word).toNat = 0 := rfl
    omega
  · intro hj
    exact BitVec.eq_of_toNat_eq (hrem.trans (show _ = 0 by omega))

/-- The frame is sent exactly when the block is idle again (10_state R45). -/
theorem SentUpTo.idle_iff : Idle t ↔ ceilDiv s.cfg.ppp s.cfg.maxChunk ≤ j ∧ k + 1 = s.cfg.pageCount :=
  and_congr h.rem_eq_zero_iff h.band.lastBand_iff

/-- With the frame not sent, the next ready update sends the next chunk of the page, or the first one of the next. -/
theorem SentUpTo.update (hle : j ≤ ceilDiv s.cfg.ppp s.cfg.maxChunk) (hidle : ¬ Idle t) :
    ∃ u, exec .tdupdate t = .next u ∧
      ((j < ceilDiv s.cfg.ppp s.cfg.maxChunk ∧ SentUpTo s k (j + 1) u) ∨
        (j = ceilDiv s.cfg.ppp s.cfg.maxChunk ∧ SentUpTo s (k + 1) 1 u)) := by
  have hw := h.band.wf
  have hppp := Config.ppp_pos hw
  have hrem : t.rem.toNat ≤ t.cfg.ppp := by
    rw [h.rem, h.band.cfg]
    omega
  by_cases hj : j < ceilDiv s.cfg.ppp s.cfg.maxChunk
  · have h0 : t.rem ≠ 0 := fun h0 => Nat.not_le.2 hj (h.rem_eq_zero_iff.1 h0)
    refine ⟨_, exec_tdupdate_of_sends h.band.run h.ready (.inl h0) hrem, .inl ⟨hj, ?_⟩⟩
    rw [beforeChunk_of_rem h0]
    exact h.chunk ((lt_ceilDiv_iff (Config.maxChunk_pos hw)).1 hj) _
  · obtain rfl : j = ceilDiv s.cfg.ppp s.cfg.maxChunk := Nat.le_antisymm hle (Nat.not_lt.1 hj)
    have hk : k + 1 < s.cfg.pageCount := by
      have hne : k + 1 ≠ s.cfg.pageCount := fun he => hidle (h.idle_iff.2 ⟨Nat.le_refl _, he⟩)
      have := h.band.lt
      omega
    have hl := h.band.not_lastBand hk
    refine ⟨_, exec_tdupdate_of_sends h.band.run h.ready (.inr (.inl hl)) hrem, .inr ⟨rfl, ?_⟩⟩
    rw [beforeChunk_of_exhausted ⟨h.rem_eq_zero_iff.2 (Nat.le_refl _), hl⟩]
    exact (h.advance hk).chunk (by omega) _

end

/-- After `m` updates of a frame, none of them past its end, the frame is sent up to chunk `m` in page order. -/
theorem repeated_tdupdate_of_idle {s : State} (hp : s.rem.toNat ≤ s.cfg.ppp) (hr : Running s) (hready : s.ready = true)
    (hpermit : s.permit = true) (hidle : Idle s) {m : Nat} (hm : 0 < m)
    (hle : m ≤ s.cfg.pageCount * ceilDiv s.cfg.ppp s.cfg.maxChunk) :
    ∃ t k j, repeated .tdupdate m s = .next t ∧ SentUpTo s k j t ∧ 0 < j ∧ j ≤ ceilDiv s.cfg.ppp s.cfg.maxChunk ∧
      m = k * ceilDiv s.cfg.ppp s.cfg.maxChunk + j := by
  have hppp := Config.ppp_pos hr.1
  have hpage : 0 < ceilDiv s.cfg.ppp s.cfg.maxChunk := (lt_ceilDiv_iff (Config.maxChunk_pos hr.1)).2 (by omega)
  induction m with
  | zero => exact absurd hm (Nat.lt_irrefl 0)
  | succ m ih =>
    rcases Nat.eq_zero_or_pos m with rfl | hm
    · have hexec := exec_tdupdate_of_sends hr hready (.inr (.inr hpermit)) hp
      rw [beforeChunk_of_idle hidle] at hexec
      exact ⟨_, 0, 1, repeated_succ_of_next rfl hexec, (sentUpTo_startFrame hr hready).chunk (by omega) _,
        Nat.one_pos, hpage, by omega⟩
    · obtain ⟨t, k, j, ht, hsent, hj0, hj, hmj⟩ := ih hm (by omega)
      have hnot : ¬ Idle t := fun hdone => by
        obtain ⟨hge, hk⟩ := hsent.idle_iff.1 hdone
        rw [← hk, Nat.succ_mul] at hle
        omega
      obtain ⟨u, hu, ⟨hlt, hnext⟩ | ⟨rfl, hnext⟩⟩ := hsent.update hj hnot
      · exact ⟨u, k, j + 1, repeated_succ_of_next ht hu, hnext, j.succ_pos, hlt, by omega⟩
      · exact ⟨u, k + 1, 1, repeated_succ_of_next ht hu, hnext, Nat.one_pos, hpage, by rw [Nat.succ_mul]; omega⟩

end Sys2Proof.Machine

open Sys2Proof Sys2Proof.Machine

/-- Settles O49: the updates go through the chunks of the frame in order, and only the last one makes the block idle. -/
theorem oneFrameCoversEveryPixel : Obligations.OneFrameCoversEveryPixel := by
  intro s hinv hr hready hpermit hidle
  have hafter {m : Nat} (hm : 0 < m) (hle : m ≤ s.cfg.pageCount * ceilDiv s.cfg.ppp s.cfg.maxChunk) :=
    repeated_tdupdate_of_idle hinv.rem hr hready hpermit hidle hm hle
  have hppp := Config.ppp_pos hr.1
  have hpage : 0 < ceilDiv s.cfg.ppp s.cfg.maxChunk := (lt_ceilDiv_iff (Config.maxChunk_pos hr.1)).2 (by omega)
  have hall : 0 < s.cfg.pageCount * ceilDiv s.cfg.ppp s.cfg.maxChunk := Nat.mul_pos (Config.pageCount_pos hr.1) hpage
  refine ⟨?_, fun m u hm hlt hu hdone => ?_⟩
  · obtain ⟨t, k, j, ht, hsent, hj0, hj, hmj⟩ := hafter hall (Nat.le_refl _)
    have hk : k + 1 = s.cfg.pageCount := by
      have := hsent.band.lt
      by_contra hne
      have := Nat.mul_le_mul_right (ceilDiv s.cfg.ppp s.cfg.maxChunk) (show k + 2 ≤ s.cfg.pageCount by omega)
      rw [Nat.add_mul] at this
      omega
    obtain rfl : j = ceilDiv s.cfg.ppp s.cfg.maxChunk := by
      rw [← hk, Nat.succ_mul] at hmj
      omega
    obtain ⟨ws, htrace, hws⟩ := hsent.trace
    refine ⟨t, ws, ht, hsent.idle_iff.2 ⟨Nat.le_refl _, hk⟩, htrace, ?_, sum_frameRecords_sizes hr.1,
      frameRecords_sizes hr.1⟩
    rw [hws, ← recordsUpTo_succ_page, hk, recordsUpTo_pageCount]
  · obtain ⟨t, k, j, ht, hsent, -, hj, hmj⟩ := hafter hm (Nat.le_of_lt hlt)
    obtain rfl := Outcome_next_inj (ht.symm.trans hu)
    obtain ⟨hge, hk⟩ := hsent.idle_iff.1 hdone
    rw [← hk, Nat.succ_mul] at hlt
    omega
end
